-- ==== Sys2Proof/Word.lean ====
section
/-! DEFINITION. The word types of IRCAP. -/

namespace Sys2Proof

/-- A 32-bit register, pulse, command or trace word (10_state.md R38, 30_encoding.md R80). -/
abbrev Word := BitVec 32

/-- A duration in microseconds, `DUR_W` = 31 bits (10_state.md R20, 00_scope.md R7). -/
abbrev Dur := BitVec 31

/-- One byte of a register on the bus (20_memory.md R62). -/
abbrev Byte := BitVec 8

end Sys2Proof
end

