-- ==== Sys2Proof/Machine/Constants.lean ====
section
/-! DEFINITION. The constants the document fixes (00_scope.md R6, 40_capture.md R101, 41_nec_decoder.md R141,
42_nec_encoder.md R160), in microseconds unless said otherwise. -/

namespace Sys2Proof.Machine

/-- `MIN_PULSE_US`: lower clamp bound of a captured duration. -/
def minPulseUs : Nat := 50
/-- `MAX_PULSE_US`: upper clamp bound; a pulse clamped to it is inter-frame silence. -/
def maxPulseUs : Nat := 250000
/-- `CBUF_CAP`: capture buffer capacity in pulses. -/
def cbufCap : Nat := 128
/-- `IDLE_GAP_US`: the idle-flush threshold. -/
def idleGapUs : Nat := 5000

/-- An inclusive window of durations. -/
structure Window where
  lo : Nat
  hi : Nat
  deriving DecidableEq, Repr

/-- `BURST`: the leader mark window. -/
def burstWin : Window := ⟨7200, 10800⟩
/-- `HDR`: the header space window. -/
def hdrWin : Window := ⟨3900, 5100⟩
/-- `SHORT`: the short-pulse window. -/
def shortWin : Window := ⟨400, 700⟩
/-- `RPT_SPACE`: the repeat-code space window. -/
def rptSpaceWin : Window := ⟨2000, 3000⟩
/-- `RPT_TOTAL`: the repeat-code total-duration window. -/
def rptTotalWin : Window := ⟨12000, 120000⟩

/-- `ENC_LEADER_US`. -/
def encLeaderUs : Nat := 9000
/-- `ENC_HEADER_US`. -/
def encHeaderUs : Nat := 4500
/-- `ENC_SHORT_US`. -/
def encShortUs : Nat := 562
/-- `ENC_LONG_US`. -/
def encLongUs : Nat := 1687
/-- `PAYLOAD_BITS`. -/
def payloadBits : Nat := 32

end Sys2Proof.Machine
end

