-- ==== Sys2Proof/Config.lean ====
section
/-! DEFINITION. The parameters the spec leaves open (00_scope.md R7), their admissible values, and the two that
have no default. -/

namespace Sys2Proof

/-- The open parameters of 00_scope.md R7, fixed for a run (10_state.md R52). -/
structure Params where
  /-- `TICK_PERIOD_US`: period of the idle check; 0 disables the internal divider. -/
  tickPeriodUs : Nat
  /-- `LONG_SPACE_LO`: lower bound of the decoder's long-space window. -/
  longSpaceLo : Nat
  /-- `LONG_SPACE_HI`: upper bound of the decoder's long-space window. -/
  longSpaceHi : Nat
  /-- `DUTY_W`: width of the duty value. -/
  dutyW : Nat
  /-- `MARK_DUTY`: the nonzero duty value of a mark. -/
  markDuty : Word
  /-- `HW_AVAILABLE`: whether interrupt registration and the timer are available at construction. -/
  hwAvailable : Bool
  /-- `BASE`: the host address of the register window. -/
  base : Nat
  deriving DecidableEq, Repr

/-- The constraints column of 00_scope.md R7, and the bound that makes `TICK_PERIOD_US` reachable by the 32-bit
divider of 10_state.md R29 (DEDUCED, log 9). -/
abbrev Params.Wf (p : Params) : Prop :=
  p.tickPeriodUs ≤ 2 ^ 32 ∧
  562 < p.longSpaceLo ∧ p.longSpaceLo ≤ 1687 ∧ 1687 ≤ p.longSpaceHi ∧
  1 ≤ p.dutyW ∧ p.dutyW ≤ 32 ∧
  1 ≤ p.markDuty.toNat ∧ p.markDuty.toNat < 2 ^ p.dutyW ∧
  p.base % 0x1000 = 0

/-- Free value: which admissible `MARK_DUTY` the platform chose (00_scope.md R7 gives none; log 2). -/
opaque Config.markDutyChoice : Nat

/-- Free value: which 4 KiB page the platform mapped the window at (00_scope.md R7 gives none; log 2). -/
opaque Config.basePage : Nat

/-- `MARK_DUTY` after reset: any value of `1 .. 2^32 - 1`, none of them singled out. -/
def Config.markDuty : Word := BitVec.ofNat 32 (Config.markDutyChoice % (2 ^ 32 - 1) + 1)

/-- `BASE` after reset: any multiple of 0x1000, none of them singled out. -/
def Config.base : Nat := Config.basePage * 0x1000

/-- The parameters with the defaults of 00_scope.md R7, the free constants where it has none. -/
def Params.default : Params where
  tickPeriodUs := 32000
  longSpaceLo := 1547
  longSpaceHi := 1827
  dutyW := 32
  markDuty := Config.markDuty
  hwAvailable := true
  base := Config.base

end Sys2Proof
end

