-- ==== Sys2Proof/Machine/Types.lean ====
section
/-! DEFINITION. The value types of 10_state.md section 1, the notifications, the error names of
60_exceptions.md R201 and the pin configuration, as plain data. -/

namespace Sys2Proof.Machine

/-- A pulse: level (1 = mark, 0 = space) and duration (10_state.md R20). -/
structure Pulse where
  level : Bool
  dur : Dur
  deriving DecidableEq, Repr, Inhabited

/-- A pulse train: an ordered sequence of pulses (10_state.md R22). -/
abbrev Train := List Pulse

/-- Why a train was cut (10_state.md R23). -/
inductive FlushReason where
  | idle
  | overflow
  deriving DecidableEq, Repr

/-- What the notification port carries (10_state.md R36). -/
inductive Notification where
  /-- `PulseNotif(p)`: one captured pulse. -/
  | pulse (p : Pulse)
  /-- `TrainNotif(T, reason)`: a flushed train and its reason. -/
  | train (t : Train) (reason : FlushReason)
  deriving DecidableEq, Repr

/-- The outcome of the most recent decoder command (10_state.md R24). -/
inductive ResKind where
  | none
  | payload
  | noResult
  | repeatYes
  | repeatNo
  deriving DecidableEq, Repr

/-- The causes of a refused command (60_exceptions.md R201). -/
inductive CmdError where
  | illegalOpc
  | reservedArg
  | alreadyConstructed
  | hwUnavailable
  | txBusy
  | emptySet
  | badLen
  deriving DecidableEq, Repr

/-- The causes of a bus error (20_memory.md R64), in the order they are checked (60_exceptions.md R210 (f); log 3). -/
inductive BusCause where
  /-- An access of other than 4 bytes. -/
  | size
  /-- An offset that is not a multiple of 4. -/
  | misaligned
  /-- An offset with no register. -/
  | unmapped
  /-- A write to a read-only register. -/
  | readOnly
  deriving DecidableEq, Repr

/-- The pin mode `CONSTRUCT` asks for (10_state.md R37). -/
inductive PinMode where
  | input
  deriving DecidableEq, Repr

/-- The pull resistor `CONSTRUCT` asks for (10_state.md R37). -/
inductive PinPull where
  | pullUp
  deriving DecidableEq, Repr

/-- The interrupt registration of the receiver pin (10_state.md R37). -/
inductive PinInterrupt where
  | none
  | bothEdges
  deriving DecidableEq, Repr

/-- The pin-configuration request `rx_pin_cfg`; `none` for a mode or pull means not driven (10_state.md R37, R51). -/
structure PinCfg where
  mode : Option PinMode
  pull : Option PinPull
  interrupt : PinInterrupt
  deriving DecidableEq, Repr

/-- The engine's condition, a function of `constructed` and the buffer (10_state.md R49). -/
inductive EngineState where
  | notConstructed
  | idle
  | capturing
  deriving DecidableEq, Repr

end Sys2Proof.Machine
end

