-- ==== Sys2Proof/Syntax.lean ====
section
/-! DEFINITION. The fourteen operations (30_encoding.md R84), one constructor per row of opcode_table.json. -/

namespace Sys2Proof

/-- An operation of IRCAP: a host command (format C), an environment event (format E) or a host access (format A).
Operands that are counts or offsets are naturals, as the assembler writes them (30_encoding.md R86, R92); their
field widths are the checks of `Instr.WellFormed`. -/
inductive Instr where
  /-- `NOP` -/
  | nop
  /-- `CONSTRUCT al` -/
  | construct (activeLow : Bool)
  /-- `DISPOSE` -/
  | dispose
  /-- `CLRERR` -/
  | clrerr
  /-- `DECODE` -/
  | decode
  /-- `ISREPEAT` -/
  | isrepeat
  /-- `ENCODE` -/
  | encode
  /-- `SNAP` -/
  | snap
  /-- `SEND` -/
  | send
  /-- `USEC n` -/
  | usec (n : Nat)
  /-- `EDGE lvl` -/
  | edge (newLevel : Bool)
  /-- `TICK` -/
  | tick
  /-- `WR off, data` -/
  | wr (off : Nat) (data : Word)
  /-- `RD off` -/
  | rd (off : Nat)
  deriving DecidableEq, Repr

end Sys2Proof
end

