-- ==== Sys2Proof/WellFormed.lean ====
section
/-! DEFINITION. Which instruction terms have an encoding: every numeric operand fits its field
(30_encoding.md R82, R83, R86). -/

namespace Sys2Proof

/-- The operands fit the fields of the encoding: `n` in 24 bits, `OFF` in 12 bits. The other operands are fixed
by their types. -/
def Instr.WellFormed (i : Instr) : Bool :=
  match i with
  | .nop | .construct _ | .dispose | .clrerr | .decode | .isrepeat | .encode | .snap | .send => true
  | .usec n => decide (n < 2 ^ 24)
  | .edge _ | .tick => true
  | .wr off _ => decide (off < 2 ^ 12)
  | .rd off => decide (off < 2 ^ 12)

end Sys2Proof
end

