-- ==== Sys2Proof/Decode.lean ====
section
/-! DEFINITION. The trace decoder and the command decoder (30_encoding.md R80 to R90, R96), total on any words,
the encoder written from the same tables, and the opcode map (R84) as a list of rows. -/

namespace Sys2Proof

open Machine (CmdError)

/-- `w[hi:lo]` read as an unsigned number (00_scope.md R8). -/
def field (w : Word) (hi lo : Nat) : Nat := w.toNat / 2 ^ lo % 2 ^ (hi + 1 - lo)

/-- A host command: a format-C operation (30_encoding.md R81, R84). -/
inductive Command where
  | nop
  | construct (activeLow : Bool)
  | dispose
  | clrerr
  | decode
  | isrepeat
  | encode
  | snap
  | send
  deriving DecidableEq, Repr

/-- The operation a command is. -/
def Command.toInstr : Command → Instr
  | .nop => .nop
  | .construct al => .construct al
  | .dispose => .dispose
  | .clrerr => .clrerr
  | .decode => .decode
  | .isrepeat => .isrepeat
  | .encode => .encode
  | .snap => .snap
  | .send => .send

/-- A command that assigns no `ARG` bit: any 1 in `ARG` is reserved (30_encoding.md R87). -/
def noArg (w : Word) (c : Command) : Except CmdError Command :=
  if field w 23 0 = 0 then .ok c else .error .reservedArg

/-- Decoding a command word written to `CMD`, steps (1) and (2) of 30_encoding.md R96: the opcode check, then the
reserved-bit check. -/
def decodeCommand (w : Word) : Except CmdError Command :=
  match field w 31 24 with
  | 0x00 => noArg w .nop
  | 0x01 => if field w 23 1 = 0 then .ok (.construct (field w 0 0 == 1)) else .error .reservedArg
  | 0x02 => noArg w .dispose
  | 0x0F => noArg w .clrerr
  | 0x10 => noArg w .decode
  | 0x11 => noArg w .isrepeat
  | 0x12 => noArg w .encode
  | 0x13 => noArg w .snap
  | 0x20 => noArg w .send
  | _ => .error .illegalOpc

/-- Why a trace word spells no operation (30_encoding.md R89). -/
inductive DecodeReject where
  /-- There is no word: the end of the trace. -/
  | endOfTrace
  /-- `OPC` in 0x83..0xBF or 0xC2..0xFF. -/
  | unassignedOpcode
  /-- An `EDGE` or `TICK` word with a reserved `ARG` bit set. -/
  | reservedEventArg
  /-- An access word with bits [23:12] not 0. -/
  | reservedAccessBits
  /-- A `WR` word with no data word after it. -/
  | missingData
  deriving DecidableEq, Repr

/-- A decoded trace item and its length in words, or the reason there is none. -/
inductive Decoded where
  | item (i : Instr) (len : Nat)
  | reject (why : DecodeReject)
  deriving DecidableEq, Repr

/-- A bare format-C word stands for a host write of that word to `CMD` (30_encoding.md R81): its command's
operation, or, where R96 refuses the word, the item `WR 0x000, word` (DEDUCED, log 7). -/
def commandItem (w : Word) : Instr :=
  match decodeCommand w with
  | .ok c => c.toInstr
  | .error _ => .wr 0x000 w

/-- Decoding the item that starts at the head of a list of trace words (30_encoding.md R80 to R83, R89, R90). -/
def decodeItem (ws : List Word) : Decoded :=
  match ws with
  | [] => .reject .endOfTrace
  | w :: rest =>
    if field w 31 24 < 0x80 then .item (commandItem w) 1
    else match field w 31 24 with
    | 0x80 => .item (.usec (field w 23 0)) 1
    | 0x81 => if field w 23 1 = 0 then .item (.edge (field w 0 0 == 1)) 1 else .reject .reservedEventArg
    | 0x82 => if field w 23 0 = 0 then .item .tick 1 else .reject .reservedEventArg
    | 0xC0 =>
      if field w 23 12 = 0 then
        match rest with
        | data :: _ => .item (.wr (field w 11 0) data) 2
        | [] => .reject .missingData
      else .reject .reservedAccessBits
    | 0xC1 => if field w 23 12 = 0 then .item (.rd (field w 11 0)) 1 else .reject .reservedAccessBits
    | _ => .reject .unassignedOpcode

/-- The whole trace, item by item from index `i` (30_encoding.md R90, R93): its items, or the index of the first
word that spells no operation. The fuel is the number of words. -/
def decodeTraceFrom : Nat → Nat → List Word → Except (Nat × DecodeReject) (List Instr)
  | _, _, [] => .ok []
  | 0, i, _ :: _ => .error (i, .endOfTrace)
  | fuel + 1, i, w :: rest =>
    match decodeItem (w :: rest) with
    | .reject why => .error (i, why)
    | .item ins len =>
      match decodeTraceFrom fuel (i + len) ((w :: rest).drop len) with
      | .ok is => .ok (ins :: is)
      | .error e => .error e

/-- A trace decoded into its list of items (30_encoding.md R93). -/
def decodeTrace (ws : List Word) : Except (Nat × DecodeReject) (List Instr) :=
  decodeTraceFrom ws.length 0 ws

/-- A word with `OPC` in bits [31:24] and `ARG` in bits [23:0] (30_encoding.md R80, R81). -/
def opWord (opc arg : Nat) : Word := BitVec.ofNat 32 (opc * 2 ^ 24 + arg)

/-- The words of an operation (30_encoding.md R81 to R84). -/
def encode (i : Instr) : List Word :=
  match i with
  | .nop => [opWord 0x00 0]
  | .construct al => [opWord 0x01 al.toNat]
  | .dispose => [opWord 0x02 0]
  | .clrerr => [opWord 0x0F 0]
  | .decode => [opWord 0x10 0]
  | .isrepeat => [opWord 0x11 0]
  | .encode => [opWord 0x12 0]
  | .snap => [opWord 0x13 0]
  | .send => [opWord 0x20 0]
  | .usec n => [opWord 0x80 n]
  | .edge lvl => [opWord 0x81 lvl.toNat]
  | .tick => [opWord 0x82 0]
  | .wr off data => [opWord 0xC0 off, data]
  | .rd off => [opWord 0xC1 off]

/-- A row of the opcode map: an item whose first word `w` has `w AND mask = match` is this operation. -/
structure OpRow where
  mnemonic : String
  bits : Word
  mask : Word
  words : Nat
  deriving DecidableEq, Repr

/-- The opcode map with `match` and `mask` (30_encoding.md R84, opcode_table.json). -/
def opRows : List OpRow :=
  [⟨"NOP", 0x00000000, 0xFFFFFFFF, 1⟩, ⟨"CONSTRUCT", 0x01000000, 0xFFFFFFFE, 1⟩,
   ⟨"DISPOSE", 0x02000000, 0xFFFFFFFF, 1⟩, ⟨"CLRERR", 0x0F000000, 0xFFFFFFFF, 1⟩,
   ⟨"DECODE", 0x10000000, 0xFFFFFFFF, 1⟩, ⟨"ISREPEAT", 0x11000000, 0xFFFFFFFF, 1⟩,
   ⟨"ENCODE", 0x12000000, 0xFFFFFFFF, 1⟩, ⟨"SNAP", 0x13000000, 0xFFFFFFFF, 1⟩,
   ⟨"SEND", 0x20000000, 0xFFFFFFFF, 1⟩, ⟨"USEC", 0x80000000, 0xFF000000, 1⟩,
   ⟨"EDGE", 0x81000000, 0xFFFFFFFE, 1⟩, ⟨"TICK", 0x82000000, 0xFFFFFFFF, 1⟩,
   ⟨"WR", 0xC0000000, 0xFFFFF000, 2⟩, ⟨"RD", 0xC1000000, 0xFFFFF000, 1⟩]

/-- The mnemonic of an operation (30_encoding.md R84). -/
def Instr.mnemonic : Instr → String
  | .nop => "NOP"
  | .construct _ => "CONSTRUCT"
  | .dispose => "DISPOSE"
  | .clrerr => "CLRERR"
  | .decode => "DECODE"
  | .isrepeat => "ISREPEAT"
  | .encode => "ENCODE"
  | .snap => "SNAP"
  | .send => "SEND"
  | .usec _ => "USEC"
  | .edge _ => "EDGE"
  | .tick => "TICK"
  | .wr _ _ => "WR"
  | .rd _ => "RD"

/-- Whether a word has the row's fixed bits. -/
def OpRow.hits (r : OpRow) (w : Word) : Bool := w &&& r.mask == r.bits

/-- The two trace words of an instruction whose bits are `w`, the first word in bits 31..0, the second in bits
63..32, the bits above `nbits` zero. -/
def tableWords (nbits w : Nat) : List Word :=
  [BitVec.ofNat 32 (w % 2 ^ nbits), BitVec.ofNat 32 (w % 2 ^ nbits / 2 ^ 32)]

/-- The instruction the decoder reads from an opcode-table row's bits. -/
def decodeTableWord (nbits w : Nat) : Option Instr :=
  match decodeItem (tableWords nbits w) with
  | .item i _ => some i
  | .reject _ => none

end Sys2Proof
end

