-- ==== Sys2Proof/Machine/State.lean ====
section
/-! DEFINITION. Every piece of state the spec gives the block, its reset value, and the reasons a step can stop. -/

namespace Sys2Proof.Machine

/-- The capture engine (10_state.md R25 to R30, R37). -/
structure Capture where
  /-- The engine exists (R25). -/
  constructed : Bool
  /-- The construction argument (R25). -/
  activeLow : Bool
  /-- The inside-interrupt flag (R30). -/
  inIsr : Bool
  /-- The train buffer, oldest pulse first; `cbuf_len` is its length (R26). -/
  cbuf : Train
  /-- The pulse timer, microseconds (R27). -/
  ptimer : Word
  /-- The since-last-edge timer, microseconds (R28). -/
  sinceEdge : Word
  /-- The tick divider, microseconds (R29). -/
  tickCnt : Word
  /-- The pin-configuration request `rx_pin_cfg` (R37). -/
  rxPinCfg : PinCfg
  deriving DecidableEq, Repr

/-- The operand and result registers of the codec and transmitter commands (10_state.md R31 to R33, R41 to R43). -/
structure Codec where
  /-- `PAYLOAD` (R42). -/
  payload : Word
  /-- `RESULT` (R42). -/
  result : Word
  /-- `RESKIND` (R41). -/
  resKind : ResKind
  /-- `WBUF[0..127]` (R32). -/
  wbuf : Vector Word 128
  /-- `WLEN`, 0..128 (R43). -/
  wlen : Fin 129
  /-- `CSET[0..15]` (R33). -/
  cset : Vector Dur 16
  /-- `CLEN`, 0..16 (R43). -/
  clen : Fin 17
  deriving DecidableEq, Repr

/-- The transmitter (10_state.md R34); `tx_len` is the length of `train`. -/
structure Transmitter where
  /-- `tx_busy`. -/
  busy : Bool
  /-- `tx_train`, the private copy latched by `SEND`. -/
  train : Train
  /-- `tx_idx`, the index of the pulse being output. -/
  idx : Nat
  /-- `tx_rem`, microseconds left of the current pulse. -/
  rem : Dur
  /-- `pwm_duty`, `DUTY_W` bits held in 32 (log 10). -/
  duty : Word
  deriving DecidableEq, Repr

/-- The error report (10_state.md R35). -/
structure ErrorReport where
  /-- `fatal`, sticky until reset. -/
  fatal : Bool
  /-- `cmd_err`, sticky until `CLRERR` or reset. -/
  cmdErr : Bool
  /-- `ERRCODE`, the most recent code, 0 for none. -/
  errcode : BitVec 8
  deriving DecidableEq, Repr

/-- The trace harness (30_encoding.md R93): test apparatus, not hardware (log 4). -/
structure Harness where
  /-- The trace being run. -/
  trace : List Word
  /-- The index of the next trace word (10_state.md R50). -/
  pc : Nat
  /-- The values read by `RD`, oldest first. -/
  rdLog : List Word
  /-- The platform's bus-error answers to the host, oldest first: no state of the block (60_exceptions.md R201; log 3). -/
  busErrors : List BusCause
  deriving DecidableEq, Repr

/-- The machine: the block, its output history, its parameters and the harness that drives it. -/
structure State where
  capture : Capture
  codec : Codec
  tx : Transmitter
  err : ErrorReport
  /-- The output history of the notification port, oldest first (10_state.md R36). -/
  notifLog : List Notification
  /-- The parameters of 00_scope.md R7; no operation writes them (log 1). -/
  params : Params
  harness : Harness
  deriving DecidableEq, Repr

/-- How the machine faults. -/
inductive Fault where
  /-- Raised by the bus operations `memWrite` and `memRead` for a host address outside the window, which is no address
  of the block (20_memory.md R60); by no operation of a trace. Safe: nothing is claimed of such an access (log 14). -/
  | outsideWindow
  deriving DecidableEq, Repr

/-- Why the machine has no next step. -/
inductive Refusal where
  /-- Raised by no arm now: an instruction with no meaning. Safe. -/
  | notModelled (mnemonic : String)
  /-- Raised by `step` when `pc` has reached the end of the trace (30_encoding.md R93, R97). Safe. -/
  | endOfTrace
  /-- Raised by `step` at a trace word that spells no operation (30_encoding.md R89), naming its index. Safe (log 6). -/
  | illFormedTrace (index : Nat) (why : DecodeReject)
  /-- Raised by `loadTrace` for 2^32 words or more, which the 32-bit index could not count (10_state.md R50). Safe. -/
  | traceTooLong
  deriving DecidableEq, Repr

/-- The pin configuration after reset: no interrupt, mode and pull not driven (10_state.md R51). -/
def PinCfg.reset : PinCfg := { mode := none, pull := none, interrupt := .none }

/-- The machine right after reset (10_state.md R51), with the default parameters (00_scope.md R7) and no trace
loaded (log 5). -/
def State.reset : State where
  capture :=
    { constructed := false, activeLow := false, inIsr := false, cbuf := [], ptimer := 0, sinceEdge := 0,
      tickCnt := 0, rxPinCfg := PinCfg.reset }
  codec :=
    { payload := 0, result := 0, resKind := .none, wbuf := Vector.replicate 128 0, wlen := 0,
      cset := Vector.replicate 16 0, clen := 0 }
  tx := { busy := false, train := [], idx := 0, rem := 0, duty := 0 }
  err := { fatal := false, cmdErr := false, errcode := 0 }
  notifLog := []
  params := Params.default
  harness := { trace := [], pc := 0, rdLog := [], busErrors := [] }

end Sys2Proof.Machine
end

