-- ==== Sys2Proof/Machine/Ops.lean ====
section
/-! DEFINITION. The shared operations: the arithmetic primitives of 00_scope.md R9, the pulse word, raising an error
(the block's only exceptions, 60_exceptions.md R201 to R203), clearing it (R212), emitting, storing, flushing, reset,
and the harness's fetch and advance. -/

namespace Sys2Proof.Machine

/-! ### Primitives (00_scope.md R9) -/

/-- `sstartinc`. -/
def satInc (v : Word) : Word :=
  if v.toNat < 2 ^ 32 - 1 then BitVec.ofNat 32 (v.toNat + 1) else BitVec.ofNat 32 (2 ^ 32 - 1)

/-- `clamp`. -/
def clamp (v lo hi : Nat) : Nat := if v < lo then lo else if hi < v then hi else v

/-- `in_win`: both bounds inclusive. -/
def inWin (d : Nat) (w : Window) : Bool := decide (w.lo ≤ d) && decide (d ≤ w.hi)

/-- `|a - b|`, the absolute difference of naturals (43_transmitter.md R181). -/
def absDiff (a b : Nat) : Nat := (a - b) + (b - a)

/-! ### Pulses and their words (10_state.md R20, R21) -/

/-- `Pulse(1, d)` and `Pulse(0, d)` with `d` a natural below 2^31. -/
def pulseOf (level : Bool) (d : Nat) : Pulse := ⟨level, BitVec.ofNat 31 d⟩

/-- The pulse word `{level, dur}`. -/
def Pulse.toWord (p : Pulse) : Word := (BitVec.ofBool p.level ++ p.dur).cast (by decide)

/-- The pulse a word is: bit 31 the level, bits [30:0] the duration. -/
def Pulse.ofWord (w : Word) : Pulse := ⟨w.getLsbD 31, w.setWidth 31⟩

/-- A pulse's duration in microseconds. -/
def Pulse.us (p : Pulse) : Nat := p.dur.toNat

/-- A mark in a window (41_nec_decoder.md R141). -/
def Pulse.isMarkIn (p : Pulse) (w : Window) : Bool := p.level && inWin p.us w

/-- A space in a window (41_nec_decoder.md R141). -/
def Pulse.isSpaceIn (p : Pulse) (w : Window) : Bool := !p.level && inWin p.us w

/-- The number of a flush reason (10_state.md R23). -/
def FlushReason.code : FlushReason → Nat
  | .idle => 1
  | .overflow => 2

/-- The word form of a notification: a header, then the pulse words (30_encoding.md R91). -/
def Notification.words (n : Notification) : List Word :=
  match n with
  | .pulse p => [BitVec.ofNat 32 (0x1 * 2 ^ 28 + 1), p.toWord]
  | .train t r => BitVec.ofNat 32 (0x2 * 2 ^ 28 + r.code * 2 ^ 24 + t.length) :: t.map Pulse.toWord

/-! ### Errors (60_exceptions.md R201 to R203, R212) -/

/-- The code recorded in `ERRCODE` (60_exceptions.md R201). -/
def CmdError.code : CmdError → BitVec 8
  | .illegalOpc => 1
  | .reservedArg => 2
  | .alreadyConstructed => 3
  | .hwUnavailable => 4
  | .txBusy => 5
  | .emptySet => 6
  | .badLen => 7

/-- `raise CmdError(code)`: the sticky flag and the code, nothing else (60_exceptions.md R202). -/
def raiseCmdError (e : CmdError) (s : State) : State :=
  { s with err := { s.err with cmdErr := true, errcode := e.code } }

/-- `raise Fatal(code)` (60_exceptions.md R203). -/
def raiseFatal (e : CmdError) (s : State) : State :=
  raiseCmdError e { s with err := { s.err with fatal := true } }

/-- What `CLRERR` clears, the counterpart of a return (60_exceptions.md R212, 44_host_commands.md R191). -/
def clearCmdError (s : State) : State :=
  { s with err := { s.err with cmdErr := false, errcode := 0 } }

/-- `raise BusError`: the platform answers the host; the block is as if the access had not been issued
(00_scope.md R9, 20_memory.md R64, 60_exceptions.md R200; log 3). -/
def busError (c : BusCause) (s : State) : State :=
  { s with harness := { s.harness with busErrors := s.harness.busErrors ++ [c] } }

/-! ### The capture engine's primitives -/

/-- The capture engine inside one step: its state, and what it has emitted in the step so far. -/
structure Engine where
  cap : Capture
  out : List Notification
  deriving DecidableEq, Repr

/-- `emit N` (00_scope.md R9). -/
def emit (n : Notification) (e : Engine) : Engine := { e with out := e.out ++ [n] }

/-- Step 4 of an edge: append the pulse and notify it (40_capture.md R111, R114). -/
def storePulse (p : Pulse) (e : Engine) : Engine :=
  emit (.pulse p) { e with cap := { e.cap with cbuf := e.cap.cbuf ++ [p] } }

/-- `FLUSH(reason)`: snapshot, clear, emit, indivisibly (40_capture.md R115). -/
def flush (reason : FlushReason) (e : Engine) : Engine :=
  emit (.train e.cap.cbuf reason) { e with cap := { e.cap with cbuf := [] } }

/-- A step of the engine as a step of the machine: what it emits is appended to the output history, which nothing in
the block reads (10_state.md R36). -/
def onEngine (f : Engine → Engine) (s : State) : State :=
  let e := f { cap := s.capture, out := [] }
  { s with capture := e.cap, notifLog := s.notifLog ++ e.out }

/-- The level of the pulse an edge ends: the level that just ended, XORed with active-low (40_capture.md R104). -/
def endedLevel (newLevel activeLow : Bool) : Bool := (!newLevel) ^^ activeLow

/-! ### Reset (70_reset_and_hazards.md R220) -/

/-- Assertion of `rst`: every state element of the block takes its value of 10_state.md R51; the parameters are
fixed for a run and the harness is no part of the block (log 11). -/
def assertReset (s : State) : State := { State.reset with params := s.params, harness := s.harness }

/-! ### The harness (30_encoding.md R93) -/

/-- The item at `pc`. -/
def fetch (s : State) : Decoded := decodeItem (s.harness.trace.drop s.harness.pc)

/-- `pc <- pc + length(item)`. -/
def advance (len : Nat) (s : State) : State :=
  { s with harness := { s.harness with pc := s.harness.pc + len } }

/-- `rd_log <- rd_log ++ [v]`. -/
def logRead (v : Word) (s : State) : State :=
  { s with harness := { s.harness with rdLog := s.harness.rdLog ++ [v] } }

/-- The words of a trace with `ws` stored from index `start`; a gap before it is filled with `NOP` words. -/
def overwriteAt (trace : List Word) (start : Nat) (ws : List Word) : List Word :=
  trace.take start ++ List.replicate (start - trace.length) 0 ++ ws ++ trace.drop (start + ws.length)

/-- Loading a trace into the harness: it is refused as a whole, naming the index, where it is ill-formed
(30_encoding.md R89, 93_implementation_defined.md V3); otherwise it runs from index 0, with an empty read
log and an empty record of bus errors. A trace has fewer than 2^32 words, so that the 32-bit index never wraps (10_state.md R50).

DESIGN CHOICE (log 18): 70_reset_and_hazards.md R220 has a trace start from the reset state, which is this load into
`State.reset` or what `assertReset` gives; loading into any other state, whose block and history stay as they are, is the
model's generalisation. -/
def loadTrace (ws : List Word) (s : State) : Except Refusal State :=
  match decodeTrace ws with
  | .error (i, why) => .error (.illFormedTrace i why)
  | .ok _ =>
    if ws.length < 2 ^ 32 then .ok { s with harness := { trace := ws, pc := 0, rdLog := [], busErrors := [] } }
    else .error .traceTooLong

end Sys2Proof.Machine
end

