-- ==== Sys2Proof/Machine/Flags.lean ====
section
/-! DEFINITION. The flags: the derived `capturing`, the engine state, the `STATUS` word and the code of `RESKIND`
(10_state.md R24, R35, R39, R49). -/

namespace Sys2Proof.Machine

/-- `capturing = (cbuf_len != 0)` (10_state.md R35). -/
def State.capturing (s : State) : Bool := s.capture.cbuf.length != 0

/-- The engine's state machine as a function of the state (10_state.md R49). -/
def State.engine (s : State) : EngineState :=
  if s.capture.constructed then (if s.capturing then .capturing else .idle) else .notConstructed

/-- `STATUS` (10_state.md R39): one live bit per flag, bits [31:7] zero. -/
def State.status (s : State) : Word :=
  BitVec.ofNat 32
    (s.capture.constructed.toNat + 2 * s.capture.inIsr.toNat + 4 * s.capturing.toNat + 8 * s.tx.busy.toNat
      + 16 * s.err.fatal.toNat + 32 * s.err.cmdErr.toNat + 64 * s.capture.activeLow.toNat)

/-- The value of `RESKIND` (10_state.md R24). -/
def ResKind.code : ResKind → Nat
  | .none => 0
  | .payload => 1
  | .noResult => 2
  | .repeatYes => 3
  | .repeatNo => 4

end Sys2Proof.Machine
end

