-- ==== Sys2Proof/Machine/Operands.lean ====
section
/-! DEFINITION. Operands: the register window (10_state.md R38 to R47), the work train, the canonical set and the
payload bytes (R31 to R33). -/

namespace Sys2Proof.Machine

/-! ### The register window -/

/-- A register of the window (10_state.md R38). -/
inductive Reg where
  | cmd | status | errcode | reskind | payload | result | wlen | clen
  | cbuflen | ptimer | since | tickcnt | txlen | txidx | txrem | duty
  | cset (i : Fin 16)
  | wbuf (i : Fin 128)
  | cbuf (i : Fin 128)
  deriving DecidableEq, Repr

/-- The registers at offsets 0x000 to 0x03C, in order (10_state.md R38). -/
def fixedRegs : List Reg :=
  [.cmd, .status, .errcode, .reskind, .payload, .result, .wlen, .clen,
   .cbuflen, .ptimer, .since, .tickcnt, .txlen, .txidx, .txrem, .duty]

/-- The byte offset of a register (10_state.md R38). -/
def Reg.offset : Reg → Nat
  | .cmd => 0x000
  | .status => 0x004
  | .errcode => 0x008
  | .reskind => 0x00C
  | .payload => 0x010
  | .result => 0x014
  | .wlen => 0x018
  | .clen => 0x01C
  | .cbuflen => 0x020
  | .ptimer => 0x024
  | .since => 0x028
  | .tickcnt => 0x02C
  | .txlen => 0x030
  | .txidx => 0x034
  | .txrem => 0x038
  | .duty => 0x03C
  | .cset i => 0x040 + 4 * i
  | .wbuf i => 0x200 + 4 * i
  | .cbuf i => 0x400 + 4 * i

/-- The register whose word index in the window is `k`, if there is one. -/
def regOfIndex (k : Nat) : Option Reg :=
  if hc : 0x10 ≤ k ∧ k < 0x20 then some (.cset ⟨k - 0x10, by omega⟩)
  else if hw : 0x80 ≤ k ∧ k < 0x100 then some (.wbuf ⟨k - 0x80, by omega⟩)
  else if hb : 0x100 ≤ k ∧ k < 0x180 then some (.cbuf ⟨k - 0x100, by omega⟩)
  else fixedRegs[k]?

/-- The register at a byte offset, or the bus error of an access there: misaligned first, then unmapped
(20_memory.md R63, R64, 60_exceptions.md R210). -/
def regAt (off : Nat) : Except BusCause Reg :=
  if off % 4 ≠ 0 then .error .misaligned
  else match regOfIndex (off / 4) with
    | some r => .ok r
    | none => .error .unmapped

/-- Whether the host may write a register (the access column of 10_state.md R38). -/
def Reg.writable : Reg → Bool
  | .cmd | .payload | .wlen | .clen | .cset _ | .wbuf _ => true
  | .status | .errcode | .reskind | .result | .cbuflen | .ptimer | .since | .tickcnt
  | .txlen | .txidx | .txrem | .duty | .cbuf _ => false

/-- A count in bits [7:0] of a register, the upper bits zero. -/
def low8 (n : Nat) : Word := BitVec.ofNat 32 (n % 2 ^ 8)

/-- The value a register reads as (10_state.md R39 to R47). No read has a side effect. -/
def readReg (r : Reg) (s : State) : Word :=
  match r with
  | .cmd => 0
  | .status => s.status
  | .errcode => s.err.errcode.setWidth 32
  | .reskind => BitVec.ofNat 32 s.codec.resKind.code
  | .payload => s.codec.payload
  | .result => s.codec.result
  | .wlen => BitVec.ofNat 32 s.codec.wlen
  | .clen => BitVec.ofNat 32 s.codec.clen
  | .cbuflen => low8 s.capture.cbuf.length
  | .ptimer => s.capture.ptimer
  | .since => s.capture.sinceEdge
  | .tickcnt => s.capture.tickCnt
  | .txlen => low8 s.tx.train.length
  | .txidx => low8 s.tx.idx
  | .txrem => s.tx.rem.setWidth 32
  | .duty => BitVec.ofNat 32 (s.tx.duty.toNat % 2 ^ s.params.dutyW)
  | .cset i => s.codec.cset[i].setWidth 32
  | .wbuf i => s.codec.wbuf[i]
  | .cbuf i => (s.capture.cbuf[i.val]?.map Pulse.toWord).getD 0

/-- Byte `k` (0..3) of a word on the little-endian bus: bits [8k+7 : 8k] (20_memory.md R62). -/
def byteOf (w : Word) (k : Nat) : Byte := w.extractLsb' (8 * k) 8

/-- The byte at byte offset `a` of the window, `none` where no register is mapped (20_memory.md R62). -/
def windowByte (a : Nat) (s : State) : Option Byte :=
  match regAt (a / 4 * 4) with
  | .ok r => some (byteOf (readReg r s) (a % 4))
  | .error _ => none

/-! ### Operands of the codec and transmitter commands -/

/-- The first words of a register file replaced by `xs` (as many as fit), the others kept. -/
def overlay {α : Type} {n : Nat} (v : Vector α n) (xs : List α) : Vector α n :=
  ⟨⟨(xs ++ v.toList.drop xs.length).take n⟩, by simp; omega⟩

/-- The operand train `WBUF[0 .. WLEN-1]` (10_state.md R22, R32). -/
def State.workTrain (s : State) : Train := (s.codec.wbuf.toList.take s.codec.wlen).map Pulse.ofWord

/-- The canonical set `CSET[0 .. CLEN-1]` as a list (10_state.md R33). -/
def State.canonSet (s : State) : List Nat := (s.codec.cset.toList.take s.codec.clen).map BitVec.toNat

/-- Byte `j` (0..3) of a payload: bits [31-8j : 24-8j] (10_state.md R31). -/
def payloadByte (p : Word) (j : Nat) : Byte := p.extractLsb' (24 - 8 * j) 8

end Sys2Proof.Machine
end

