-- ==== Sys2Proof/Machine/CaptureEngine.lean ====
section
/-! DEFINITION. The capture engine (40_capture.md): `CONSTRUCT`, `DISPOSE`, `EDGE`, `TICK` and the capture part of one
microsecond. -/

namespace Sys2Proof.Machine

/-- What `CONSTRUCT` asks of the receiver pin (10_state.md R37). -/
def PinCfg.constructed : PinCfg := { mode := some .input, pull := some .pullUp, interrupt := .bothEdges }

/-- The engine `CONSTRUCT al` builds (40_capture.md R105, 70_reset_and_hazards.md R224). -/
def buildEngine (al : Bool) (s : State) : State :=
  { s with
    capture :=
      { constructed := true, activeLow := al, inIsr := false, cbuf := [], ptimer := 0, sinceEdge := 0, tickCnt := 0,
        rxPinCfg := PinCfg.constructed } }

/-- `CONSTRUCT al` (40_capture.md R105). -/
def execConstruct (al : Bool) (s : State) : Host.Outcome State Fault Refusal :=
  .next <|
    if s.capture.constructed then raiseCmdError .alreadyConstructed s
    else if s.params.hwAvailable = false then raiseFatal .hwUnavailable s
    else buildEngine al s

/-- `DISPOSE` (40_capture.md R106): deregister, discard the buffer, leave the timers as they stand. -/
def execDispose (s : State) : Host.Outcome State Fault Refusal :=
  .next <|
    if s.capture.constructed then
      { s with
        capture :=
          { s.capture with
            constructed := false
            cbuf := []
            rxPinCfg := { s.capture.rxPinCfg with interrupt := .none } } }
    else s

/-- Steps 1 to 6 of the edge handler on a constructed engine (40_capture.md R108): the reading, the clamp, the level,
append and notify unless silence, restart of both timers, overflow flush at capacity. -/
def edgeHandler (newLevel : Bool) (e : Engine) : Engine :=
  let d := clamp e.cap.ptimer.toNat minPulseUs maxPulseUs
  let p := pulseOf (endedLevel newLevel e.cap.activeLow) d
  let e₁ : Engine := { e with cap := { e.cap with inIsr := true, ptimer := 0 } }
  let e₂ := if d < maxPulseUs then storePulse p e₁ else e₁
  let e₃ : Engine := { e₂ with cap := { e₂.cap with sinceEdge := 0 } }
  let e₄ := if cbufCap ≤ e₃.cap.cbuf.length then flush .overflow e₃ else e₃
  { e₄ with cap := { e₄.cap with inIsr := false } }

/-- An edge, ignored while there is no engine (40_capture.md R107, R108). -/
def edgeEvent (newLevel : Bool) (e : Engine) : Engine :=
  if e.cap.constructed then edgeHandler newLevel e else e

/-- `EDGE new_level` (40_capture.md R108). -/
def execEdge (newLevel : Bool) (s : State) : Host.Outcome State Fault Refusal :=
  .next (onEngine (edgeEvent newLevel) s)

/-- The idle check (40_capture.md R107, R116). -/
def idleCheck (e : Engine) : Engine :=
  if e.cap.constructed = false then e
  else if e.cap.inIsr || e.cap.cbuf.isEmpty then e
  else if idleGapUs ≤ e.cap.sinceEdge.toNat then flush .idle e
  else e

/-- `TICK`: one idle check; `tick_cnt` is not touched (40_capture.md R116, R121). -/
def execTick (s : State) : Host.Outcome State Fault Refusal := .next (onEngine idleCheck s)

/-- The idle-check scheduler, for the period `TICK_PERIOD_US` (40_capture.md R121). -/
def tickDivider (period : Nat) (e : Engine) : Engine :=
  if period = 0 then e
  else if e.cap.tickCnt.toNat + 1 = period then idleCheck { e with cap := { e.cap with tickCnt := 0 } }
  else { e with cap := { e.cap with tickCnt := BitVec.ofNat 32 (e.cap.tickCnt.toNat + 1) } }

/-- The capture part of one microsecond, on the engine (40_capture.md R120). -/
def engineUsec (period : Nat) (e : Engine) : Engine :=
  if e.cap.constructed then
    tickDivider period
      { e with cap := { e.cap with ptimer := satInc e.cap.ptimer, sinceEdge := satInc e.cap.sinceEdge } }
  else e

/-- The capture part of one microsecond (40_capture.md R120). -/
def usecCapture (s : State) : State := onEngine (engineUsec s.params.tickPeriodUs) s

end Sys2Proof.Machine
end

