-- ==== Sys2Proof/Machine/NecCodec.lean ====
section
/-! DEFINITION. The NEC decoder (41_nec_decoder.md) and the NEC encoder (42_nec_encoder.md): `DECODE`, `ISREPEAT`,
`ENCODE`, and the pure functions they apply. -/

namespace Sys2Proof.Machine

/-! ### Decoding a train -/

/-- The pulses after the first one that satisfies `p`; `none` if there is none. -/
def afterFirst (p : Pulse → Bool) (t : Train) : Option Train :=
  match t with
  | [] => none
  | x :: rest => if p x then some rest else afterFirst p rest

/-- Step 1: the pulses after the leader (41_nec_decoder.md R143). -/
def afterLeader (t : Train) : Option Train := afterFirst (fun p => p.isMarkIn burstWin) t

/-- Step 2: the pulses after the header space (41_nec_decoder.md R144). -/
def afterHeader (t : Train) : Option Train := afterFirst (fun p => p.isSpaceIn hdrWin) t

/-- Step 3: the last pulse is a short mark (41_nec_decoder.md R145). -/
def stopBitOk (t : Train) : Bool :=
  match t.getLast? with
  | some p => p.isMarkIn shortWin
  | none => false

/-- The bit a mark/space pair is, the long window tested first; `none` outside the windows (41_nec_decoder.md R146). -/
def pairBit (long : Window) (m s : Pulse) : Option Bool :=
  if m.isMarkIn shortWin = false then none
  else if s.isSpaceIn long then some true
  else if s.isSpaceIn shortWin then some false
  else none

/-- Step 4: at most `n` bits from mark/space pairs, fewer when the pulses run out, `none` on a window miss
(41_nec_decoder.md R146). -/
def collectBits (long : Window) : Nat → Train → Option (List Bool)
  | 0, _ => some []
  | n + 1, m :: s :: rest =>
    match pairBit long m s with
    | none => none
    | some b => (collectBits long n rest).map (b :: ·)
  | _ + 1, [_] => some []
  | _ + 1, [] => some []

/-- Step 5: the payload word `sum over k of bit_k * 2^(31-k)` (41_nec_decoder.md R147). -/
def packBits (bits : List Bool) : Word := BitVec.ofNat 32 (bits.foldl (fun acc b => 2 * acc + b.toNat) 0)

/-- The long-space window, a parameter (41_nec_decoder.md R141). -/
def longWin (p : Params) : Window := ⟨p.longSpaceLo, p.longSpaceHi⟩

/-- `decode(T)` (41_nec_decoder.md R148). -/
def decodeTrain (long : Window) (t : Train) : Option Word :=
  match (afterLeader t).bind afterHeader with
  | none => none
  | some rest =>
    if stopBitOk t = false then none
    else match collectBits long payloadBits rest with
      | none => none
      | some bits => if bits.length = payloadBits then some (packBits bits) else none

/-- The exact sum of a train's durations (41_nec_decoder.md R151). -/
def totalUs (t : Train) : Nat := (t.map Pulse.us).sum

/-- `is_repeat(T)` (41_nec_decoder.md R151). -/
def isRepeat (t : Train) : Bool :=
  t.length == 4 && inWin (totalUs t) rptTotalWin &&
    match afterLeader t with
    | some (s :: m :: _) => s.isSpaceIn rptSpaceWin && m.isMarkIn shortWin
    | _ => false

/-- A decoded result: payload, repeat indicator or no-result (10_state.md R24). -/
inductive DecodedResult where
  | payload (p : Word)
  | repeatCode
  | noResult
  deriving DecidableEq, Repr

/-- The three-way classification a host forms from the two commands; not a command (41_nec_decoder.md R152). -/
def classify (long : Window) (t : Train) : DecodedResult :=
  if isRepeat t then .repeatCode
  else match decodeTrain long t with
    | some r => .payload r
    | none => .noResult

/-- `DECODE` (41_nec_decoder.md R142). -/
def execDecode (s : State) : Host.Outcome State Fault Refusal :=
  match decodeTrain (longWin s.params) s.workTrain with
  | none => .next { s with codec := { s.codec with resKind := .noResult } }
  | some r => .next { s with codec := { s.codec with resKind := .payload, result := r } }

/-- `ISREPEAT` (41_nec_decoder.md R150). -/
def execIsrepeat (s : State) : Host.Outcome State Fault Refusal :=
  .next { s with codec := { s.codec with resKind := if isRepeat s.workTrain then .repeatYes else .repeatNo } }

/-! ### Encoding a payload -/

/-- The mark and space of one bit (42_nec_encoder.md R162). -/
def bitPulses (b : Bool) : Train := [pulseOf true encShortUs, pulseOf false (if b then encLongUs else encShortUs)]

/-- The payload's bits in the order sent: bit `k` of the frame is `P[31-k]` (42_nec_encoder.md R163). -/
def payloadBitsOf (p : Word) : List Bool := (List.range payloadBits).map fun k => p.getLsbD (31 - k)

/-- `encode(P)` (42_nec_encoder.md R162). -/
def encodeTrain (p : Word) : Train :=
  [pulseOf true encLeaderUs, pulseOf false encHeaderUs] ++ (payloadBitsOf p).flatMap bitPulses
    ++ [pulseOf true encShortUs]

/-- `ENCODE` (42_nec_encoder.md R161). -/
def execEncode (s : State) : Host.Outcome State Fault Refusal :=
  .next
    { s with
      codec :=
        { s.codec with
          wbuf := overlay s.codec.wbuf ((encodeTrain s.codec.payload).map Pulse.toWord)
          wlen := 67 } }

end Sys2Proof.Machine
end

