-- ==== Sys2Proof/Machine/TxUnit.lean ====
section
/-! DEFINITION. The transmitter and the snap helper (43_transmitter.md): `SEND`, `SNAP` and the transmitter part of one
microsecond. -/

namespace Sys2Proof.Machine

/-- The duty value of a pulse (43_transmitter.md R172). -/
def dutyOf (params : Params) (p : Pulse) : Word := if p.level then params.markDuty else 0

/-- `LOAD_PULSE` of the pulse `p` at index `i` (43_transmitter.md R172). -/
def loadPulse (params : Params) (i : Nat) (p : Pulse) (t : Transmitter) : Transmitter :=
  { t with idx := i, rem := p.dur, duty := dutyOf params p }

/-- The end of a train: the index at its length, the duty back to zero (43_transmitter.md R172, R174). -/
def finishTrain (i : Nat) (t : Transmitter) : Transmitter := { t with idx := i, duty := 0, busy := false }

/-- The loop of `TX_ADVANCE`, over the pulses after the current one: leave the current pulse while it has no
microsecond left (43_transmitter.md R172). It ends in every state (log 8). -/
def skipSpent (params : Params) : Train → Transmitter → Transmitter
  | [], t => if t.busy && t.rem == 0 then finishTrain (t.idx + 1) t else t
  | p :: rest, t =>
    if t.busy && t.rem == 0 then skipSpent params rest (loadPulse params (t.idx + 1) p t) else t

/-- `TX_ADVANCE` (43_transmitter.md R172). -/
def txAdvance (params : Params) (t : Transmitter) : Transmitter :=
  skipSpent params (t.train.drop (t.idx + 1)) t

/-- The transmitter just after `SEND` has latched the train `w` (43_transmitter.md R171). -/
def startTrain (params : Params) (w : Train) (t : Transmitter) : Transmitter :=
  match w with
  | [] => { t with train := [], idx := 0, rem := 0, duty := 0 }
  | p :: rest => txAdvance params (loadPulse params 0 p { t with train := p :: rest, busy := true })

/-- `SEND` (43_transmitter.md R171). -/
def execSend (s : State) : Host.Outcome State Fault Refusal :=
  .next <|
    if s.tx.busy then raiseCmdError .txBusy s
    else { s with tx := startTrain s.params s.workTrain s.tx }

/-- The transmitter part of one microsecond, on the transmitter (43_transmitter.md R173). -/
def txUsec (params : Params) (t : Transmitter) : Transmitter :=
  if t.busy then txAdvance params { t with rem := t.rem - 1 } else t

/-- How many microseconds a transmitter stays busy: the rest of its pulse and the pulses after it
(43_transmitter.md R175). -/
def busyUs (t : Transmitter) : Nat :=
  if t.busy then t.rem.toNat + ((t.train.drop (t.idx + 1)).map Pulse.us).sum else 0

/-- The transmitter part of one microsecond (43_transmitter.md R173). -/
def usecTx (s : State) : State := { s with tx := txUsec s.params s.tx }

/-! ### Snapping -/

/-- The better of two candidates for `d`: the nearer, the smaller of two equally near (43_transmitter.md R181). -/
def nearer (d best c : Nat) : Nat :=
  if absDiff c d < absDiff best d then c
  else if absDiff c d = absDiff best d ∧ c < best then c
  else best

/-- `nearest(d, C)` for the set listed as `c :: cs` (43_transmitter.md R181). -/
def nearest (d c : Nat) (cs : List Nat) : Nat := cs.foldl (nearer d) c

/-- A pulse with its duration replaced by the nearest member of the set, its level kept (43_transmitter.md R180). -/
def snapPulse (c : Nat) (cs : List Nat) (p : Pulse) : Pulse := pulseOf p.level (nearest p.us c cs)

/-- `SNAP` (43_transmitter.md R180). -/
def execSnap (s : State) : Host.Outcome State Fault Refusal :=
  match s.canonSet with
  | [] => .next (raiseCmdError .emptySet s)
  | c :: cs =>
    .next
      { s with
        codec :=
          { s.codec with
            wbuf := overlay s.codec.wbuf (s.workTrain.map fun p => (snapPulse c cs p).toWord) } }

end Sys2Proof.Machine
end

