-- ==== Sys2Proof/Machine/HostAccess.lean ====
section
/-! DEFINITION. Housekeeping commands, host accesses and the complete time step (44_host_commands.md): `NOP`, `CLRERR`,
`WR`, `RD`, `USEC`; command execution; and the host bus (20_memory.md R62 to R64). -/

namespace Sys2Proof.Machine

/-- `NOP` (44_host_commands.md R190). -/
def execNop (s : State) : Host.Outcome State Fault Refusal := .next s

/-- `CLRERR` (44_host_commands.md R191). -/
def execClrerr (s : State) : Host.Outcome State Fault Refusal := .next (clearCmdError s)

/-- Performing a decoded command, step (3) of 30_encoding.md R96. -/
def runCommand (c : Command) (s : State) : Host.Outcome State Fault Refusal :=
  match c with
  | .nop => execNop s
  | .construct al => execConstruct al s
  | .dispose => execDispose s
  | .clrerr => execClrerr s
  | .decode => execDecode s
  | .isrepeat => execIsrepeat s
  | .encode => execEncode s
  | .snap => execSnap s
  | .send => execSend s

/-- `EXEC_CMD(w)` (44_host_commands.md R194, 30_encoding.md R96). -/
def execCmd (w : Word) (s : State) : Host.Outcome State Fault Refusal :=
  match decodeCommand w with
  | .error e => .next (raiseCmdError e s)
  | .ok c => runCommand c s

/-- `WRITE_LEN(WLEN, 128, data)` (44_host_commands.md R195). -/
def writeWlen (data : Word) (s : State) : State :=
  if h : data.toNat < 129 then { s with codec := { s.codec with wlen := ⟨data.toNat, h⟩ } }
  else raiseCmdError .badLen s

/-- `WRITE_LEN(CLEN, 16, data)` (44_host_commands.md R195). -/
def writeClen (data : Word) (s : State) : State :=
  if h : data.toNat < 17 then { s with codec := { s.codec with clen := ⟨data.toNat, h⟩ } }
  else raiseCmdError .badLen s

/-- A host write to a mapped register (44_host_commands.md R192, R196, R197); one the host may not write is answered
with `BusError` and the block goes on (60_exceptions.md R200; log 3). -/
def writeReg (r : Reg) (data : Word) (s : State) : Host.Outcome State Fault Refusal :=
  match r with
  | .cmd => execCmd data s
  | .payload => .next { s with codec := { s.codec with payload := data } }
  | .wlen => .next (writeWlen data s)
  | .clen => .next (writeClen data s)
  | .cset i => .next { s with codec := { s.codec with cset := s.codec.cset.set i (data.setWidth 31) } }
  | .wbuf i => .next { s with codec := { s.codec with wbuf := s.codec.wbuf.set i data } }
  | .status | .errcode | .reskind | .result | .cbuflen | .ptimer | .since | .tickcnt
  | .txlen | .txidx | .txrem | .duty | .cbuf _ => .next (busError .readOnly s)

/-- `WR off, data` (44_host_commands.md R192). -/
def execWr (off : Nat) (data : Word) (s : State) : Host.Outcome State Fault Refusal :=
  match regAt off with
  | .error c => .next (busError c s)
  | .ok r => writeReg r data s

/-- `RD off` (44_host_commands.md R193); a refused read returns no value, so nothing joins the read log. -/
def execRd (off : Nat) (s : State) : Host.Outcome State Fault Refusal :=
  match regAt off with
  | .error c => .next (busError c s)
  | .ok r => .next (logRead (readReg r s) s)

/-! ### Time -/

/-- One microsecond (44_host_commands.md R198). -/
def usecOne (s : State) : State := usecTx (usecCapture s)

/-- `n` successive microseconds (44_host_commands.md R198). -/
def usecMany : Nat → State → State
  | 0, s => s
  | n + 1, s => usecMany n (usecOne s)

/-- Nothing advances with time: no engine, and the transmitter idle (44_host_commands.md R198, corner cases). -/
def State.timeless (s : State) : Bool := !s.capture.constructed && !s.tx.busy

/-- `USEC n` (44_host_commands.md R198); a timeless state is answered at once, which changes no result
(`usecMany_of_timeless`). -/
def execUsec (n : Nat) (s : State) : Host.Outcome State Fault Refusal :=
  .next (if s.timeless then s else usecMany n s)

/-! ### The host bus (20_memory.md R63, R64; 00_scope.md R9 `MemRead`, `MemWrite`) -/

/-- The offset in the window of a host address, `none` outside it (20_memory.md R60; log 14). -/
def windowOffset (addr : Nat) (s : State) : Option Nat :=
  if s.params.base ≤ addr ∧ addr < s.params.base + 0x1000 then some (addr - s.params.base) else none

/-- `MemWrite(addr, n, v)`. -/
def memWrite (addr n : Nat) (v : Word) (s : State) : Host.Outcome State Fault Refusal :=
  match windowOffset addr s with
  | none => .fault .outsideWindow
  | some off => if n ≠ 4 then .next (busError .size s) else execWr off v s

/-- `MemRead(addr, n)`: the bus's answer, a value or `BusError`; it has no effect on the block. -/
def memRead (addr n : Nat) (s : State) : Except Fault (Except BusCause Word) :=
  match windowOffset addr s with
  | none => .error .outsideWindow
  | some off => .ok (if n ≠ 4 then .error .size else (regAt off).map (readReg · s))

end Sys2Proof.Machine
end

