-- ==== Sys2Proof/Machine/Dispatch.lean ====
section
/-! DEFINITION. One arm per operation (30_encoding.md R84). -/

namespace Sys2Proof.Machine

def exec (i : Instr) (s : State) : Host.Outcome State Fault Refusal :=
  match i with
  | .nop => Sys2Proof.Machine.execNop s
  | .construct al => Sys2Proof.Machine.execConstruct al s
  | .dispose => Sys2Proof.Machine.execDispose s
  | .clrerr => Sys2Proof.Machine.execClrerr s
  | .decode => Sys2Proof.Machine.execDecode s
  | .isrepeat => Sys2Proof.Machine.execIsrepeat s
  | .encode => Sys2Proof.Machine.execEncode s
  | .snap => Sys2Proof.Machine.execSnap s
  | .send => Sys2Proof.Machine.execSend s
  | .usec n => Sys2Proof.Machine.execUsec n s
  | .edge lvl => Sys2Proof.Machine.execEdge lvl s
  | .tick => Sys2Proof.Machine.execTick s
  | .wr off data => Sys2Proof.Machine.execWr off data s
  | .rd off => Sys2Proof.Machine.execRd off s

end Sys2Proof.Machine
end

