-- ==== Sys2Proof/Machine/Step.lean ====
section
/-! DEFINITION. One step of the harness (30_encoding.md R93): decode the item at `pc`, execute it, move past it. -/

namespace Sys2Proof.Machine

/-- One item of the trace: each `step` is one operation, one atomic step (20_memory.md R68). -/
def step (s : State) : Host.Outcome State Fault Refusal :=
  match fetch s with
  | .item i len =>
    match exec i s with
    | .next t => .next (advance len t)
    | .fault f => .fault f
    | .refused r => .refused r
  | .reject .endOfTrace => .refused .endOfTrace
  | .reject why => .refused (.illFormedTrace s.harness.pc why)

/-- The state with an instruction's words stored in the trace at `pc`, where `step` fetches (log 5). -/
def State.withFetchWord (s : State) (nbits w : Nat) : State :=
  { s with
    harness := { s.harness with trace := overwriteAt s.harness.trace s.harness.pc (tableWords nbits w) } }

end Sys2Proof.Machine
end

