-- ==== Sys2Proof/Machine/Pseudo.lean ====
section
/-! DEFINITION. Sequences of operations: running a list of items, the pseudo-operations (30_encoding.md R94) and the
document's call forms (R95) as lists of items. -/

namespace Sys2Proof.Machine

/-- Executing items in order, stopping at the first fault or refusal (30_encoding.md R93). -/
def execAll : List Instr → State → Host.Outcome State Fault Refusal
  | [], s => .next s
  | i :: is, s =>
    match exec i s with
    | .next t => execAll is t
    | .fault f => .fault f
    | .refused r => .refused r

/-- The largest count of one `USEC` word (30_encoding.md R82). -/
def maxUsec : Nat := 16777215

/-- `WAIT n`. -/
def waitItems (n : Nat) : List Instr :=
  List.replicate (n / maxUsec) (.usec maxUsec) ++ [.usec (n % maxUsec)]

/-- `PULSEIN lvl, d`. -/
def pulseInItems (lvl : Bool) (d : Nat) : List Instr := waitItems d ++ [.edge lvl]

/-- Writes of `ws` to the registers of an array that starts at `base`, from its index `i`. -/
def storeItems (base : Nat) : Nat → List Word → List Instr
  | _, [] => []
  | i, w :: ws => .wr (base + 4 * i) w :: storeItems base (i + 1) ws

/-- `LOADTRAIN p0, ..., p(k-1)`: the pulse words, then `WLEN`. -/
def loadTrainItems (ps : List Word) : List Instr :=
  storeItems 0x200 0 ps ++ [.wr 0x018 (BitVec.ofNat 32 ps.length)]

/-- `LOADSET c0, ..., c(k-1)`: the durations, then `CLEN`. -/
def loadSetItems (cs : List Word) : List Instr :=
  storeItems 0x040 0 cs ++ [.wr 0x01C (BitVec.ofNat 32 cs.length)]

/-- `SETPAYLOAD b0, b1, b2, b3`. -/
def setPayloadItems (b0 b1 b2 b3 : Byte) : List Instr :=
  [.wr 0x010 (BitVec.ofNat 32 (b0.toNat * 2 ^ 24 + b1.toNat * 2 ^ 16 + b2.toNat * 2 ^ 8 + b3.toNat))]

/-- `CMD w`, the long form of a bare format-C word. -/
def cmdItems (w : Word) : List Instr := [.wr 0x000 w]

/-- `EXPECT off, v`: the read; `v` is an annotation. -/
def expectItems (off : Nat) (_v : Word) : List Instr := [.rd off]

/-- The call form `decode(train)` (30_encoding.md R95). -/
def callDecode (ps : List Word) : List Instr := loadTrainItems ps ++ [.decode, .rd 0x00C, .rd 0x014]

/-- The call form `is_repeat(train)`. -/
def callIsRepeat (ps : List Word) : List Instr := loadTrainItems ps ++ [.isrepeat, .rd 0x00C]

/-- The call form `encode(payload)`: `RD WLEN`, then `RD WBUF[0..66]`. -/
def callEncode (b0 b1 b2 b3 : Byte) : List Instr :=
  setPayloadItems b0 b1 b2 b3 ++ [.encode, .rd 0x018]
    ++ (List.range 67).map fun i => .rd (0x200 + 4 * i)

/-- How long `TX_BUSY` stays 1 after the items `is`: the wait the call form of `send` ends with. -/
def busyUsAfter (is : List Instr) (s : State) : Nat :=
  match execAll is s with
  | .next t => busyUs t.tx
  | .fault _ | .refused _ => 0

/-- The call form `send(pin, train)`: the train, `SEND`, then time until `STATUS.TX_BUSY` is 0. How much time that is
depends on the machine, so the form is that of a state; `tx_busy` falls at the end of the wait and not before
(`usecMany_busy`). -/
def callSend (ps : List Word) (s : State) : List Instr :=
  let sent := loadTrainItems ps ++ [.send]
  sent ++ waitItems (busyUsAfter sent s)

/-- The call form `snap_pulse_lengths(train, set)`. -/
def callSnap (ps cs : List Word) : List Instr :=
  loadTrainItems ps ++ loadSetItems cs ++ [.snap]
    ++ (List.range ps.length).map fun i => .rd (0x200 + 4 * i)

end Sys2Proof.Machine
end

