-- ==== Sys2Proof/Safety.lean ====
section
/-! DEFINITION. What a good state is: the invariants of 10_state.md R48 with the bounds R29, R32 to R34 and R40 give, the
legality of a notification, the accesses the bus admits, and the terms the claims use for what is left unchanged. -/

namespace Sys2Proof.Machine

/-- A duration the capture engine can produce (40_capture.md R124). -/
def Pulse.captured (p : Pulse) : Bool := decide (50 ≤ p.us) && decide (p.us ≤ 249999)

/-- The invariants of 10_state.md R48, clause by clause; (d) is in the types of `wlen` and `clen`. -/
structure State.Inv (s : State) : Prop where
  /-- The parameters are admissible (00_scope.md R7). -/
  params : s.params.Wf
  /-- (a) -/
  cbufLen : s.capture.cbuf.length ≤ 127
  /-- (b) -/
  cbufCaptured : ∀ p ∈ s.capture.cbuf, 50 ≤ p.us ∧ p.us ≤ 249999
  /-- (c) -/
  inIsr : s.capture.inIsr = false
  /-- (d) -/
  lengths : s.codec.wlen.val ≤ 128 ∧ s.codec.clen.val ≤ 16
  /-- (e) -/
  txBusy : s.tx.busy = true → ∃ p, s.tx.train[s.tx.idx]? = some p ∧ 1 ≤ s.tx.rem.toNat ∧
    s.tx.duty = if p.level then s.params.markDuty else 0
  /-- (f) -/
  txIdle : s.tx.busy = false → s.tx.duty = 0
  /-- (g) -/
  notConstructed : s.capture.constructed = false → s.capture.cbuf = []
  /-- (h) -/
  timersEqual : s.capture.constructed = true → s.capture.ptimer = s.capture.sinceEdge
  /-- (i) -/
  noError : s.err.cmdErr = false → s.err.errcode = 0
  /-- (j) -/
  fatalHw : s.err.fatal = true → s.params.hwAvailable = false
  /-- The tick divider is below its period (10_state.md R29). -/
  tickCnt : s.capture.tickCnt.toNat < max s.params.tickPeriodUs 1
  /-- The latched train fits the work buffer, and an idle transmitter has run to its end (10_state.md R34, R45). -/
  txTrain : s.tx.train.length ≤ 128 ∧ (s.tx.busy = false → s.tx.idx = s.tx.train.length ∧ s.tx.rem = 0)
  /-- Codes 8 to 255 are never written (60_exceptions.md R201). -/
  errcode : s.err.errcode.toNat ≤ 7

/-- A notification the block can emit: a captured pulse; an Overflow train of exactly 128, an Idle train of 1 to 127
captured pulses (40_capture.md R113, R115, R116, R124). -/
def Notification.legal : Notification → Bool
  | .pulse p => p.captured
  | .train t .overflow => t.length == 128 && t.all Pulse.captured
  | .train t .idle => decide (1 ≤ t.length) && decide (t.length ≤ 127) && t.all Pulse.captured

/-- Every notification emitted so far is legal. -/
def State.LogLegal (s : State) : Prop := ∀ n ∈ s.notifLog, n.legal = true

/-- The pulses of all trains in a history, in order. -/
def trainPulses (log : List Notification) : Train :=
  log.flatMap fun n => match n with
    | .train t _ => t
    | .pulse _ => []

/-- The pulses of all per-pulse notifications in a history, in order. -/
def notifiedPulses (log : List Notification) : Train :=
  log.flatMap fun n => match n with
    | .pulse p => [p]
    | .train _ _ => []

/-- The bus error an operation is answered with, if it is: a host access at a misaligned or unmapped offset, or a write
to a register the host may not write, the first of these that holds (20_memory.md R63, R64, 60_exceptions.md R210). -/
def busErrorOf (i : Instr) : Option BusCause :=
  match i with
  | .nop | .construct _ | .dispose | .clrerr | .decode | .isrepeat | .encode | .snap | .send
  | .usec _ | .edge _ | .tick => none
  | .wr off _ => match regAt off with
    | .ok r => if r.writable then none else some .readOnly
    | .error c => some c
  | .rd off => match regAt off with
    | .ok _ => none
    | .error c => some c

/-- The operations the bus admits; one that is no host access always is. -/
def admitted (i : Instr) : Bool := (busErrorOf i).isNone

/-- An offset in one of the mapped ranges of 10_state.md R38. -/
def mapped (off : Nat) : Bool :=
  decide (off < 0x080) || (decide (0x200 ≤ off) && decide (off < 0x600))

/-- Two states with the same window bytes outside the offsets `w` (20_memory.md R62). -/
def SameBytesOutside (w : Nat → Bool) (s t : State) : Prop := ∀ a, w a = false → windowByte a t = windowByte a s

/-- The command an operation performs, if it performs one: a format-C operation, or a write to `CMD`
(30_encoding.md R81). -/
def commandOf : Instr → Option Command
  | .nop => some .nop
  | .construct al => some (.construct al)
  | .dispose => some .dispose
  | .clrerr => some .clrerr
  | .decode => some .decode
  | .isrepeat => some .isrepeat
  | .encode => some .encode
  | .snap => some .snap
  | .send => some .send
  | .usec _ | .edge _ | .tick | .rd _ => none
  | .wr off data =>
    if off = 0x000 then match decodeCommand data with
      | .ok c => some c
      | .error _ => none
    else none

/-- The offsets from `lo` to below `hi`. -/
def within (lo hi a : Nat) : Bool := decide (lo ≤ a) && decide (a < hi)

/-- The bytes of the window a command may change. `STATUS` and `ERRCODE` (0x004 to 0x00B) count for every command that
can be refused (44_host_commands.md R194). -/
def commandBytes (c : Command) (s : State) (a : Nat) : Bool :=
  match c with
  | .nop => false
  | .clrerr => within 0x004 0x00C a
  | .decode => within 0x00C 0x010 a || within 0x014 0x018 a
  | .isrepeat => within 0x00C 0x010 a
  | .encode => within 0x018 0x01C a || within 0x200 (0x200 + 4 * 67) a
  | .snap => within 0x004 0x00C a || within 0x200 (0x200 + 4 * s.codec.wlen.val) a
  | .send => within 0x004 0x00C a || within 0x030 0x040 a
  | .construct _ => within 0x004 0x00C a || within 0x020 0x030 a || within 0x400 0x600 a
  | .dispose => within 0x004 0x008 a || within 0x020 0x024 a || within 0x400 0x600 a

/-- The bytes of the window an operation may change: those of the command it performs, if it performs one; a word that
`CMD` refuses changes the error report only. -/
def ownBytes (i : Instr) (s : State) (a : Nat) : Bool :=
  match commandOf i with
  | some c => commandBytes c s a
  | none => match i with
    | .nop | .construct _ | .dispose | .clrerr | .decode | .isrepeat | .encode | .snap | .send | .rd _ => false
    | .edge _ | .tick => within 0x004 0x008 a || within 0x020 0x030 a || within 0x400 0x600 a
    | .usec _ => within 0x004 0x008 a || within 0x020 0x040 a || within 0x400 0x600 a
    | .wr off _ =>
      if off = 0x000 then within 0x004 0x00C a
      else within off (off + 4) a || (within 0x018 0x020 off && within 0x004 0x00C a)

/-- An operation's word is the opcode `opc` with the operand `arg` (30_encoding.md R84), in both directions. -/
def encodedAs (i : Instr) (opc arg : Nat) : Prop :=
  encode i = [opWord opc arg] ∧ ∀ rest, decodeItem (opWord opc arg :: rest) = .item i 1

end Sys2Proof.Machine
end

