-- ==== Sys2Proof/Certificates/Slice0/Obligations.lean ====
section
/-! DEFINITION. The statements for the provers. Each docstring names the rule of spec/ it formalises. -/

open Sys2Proof Sys2Proof.Machine

/-! ### Encoding -/

/-- 30_encoding.md R81 to R84, R90: decoding the words of a well-formed operation, whatever words follow, gives the
operation back, with its length. -/
def Obligations.DecodeOfEncodeReturnsTheInstruction : Prop :=
  ∀ (i : Instr) (rest : List Word), i.WellFormed = true →
    decodeItem (encode i ++ rest) = .item i (encode i).length

/-- The other direction (30_encoding.md R80 to R84, R96; log 7 for the last clause): an item the decoder reads is well
formed and its words are the operation's own words, except a bare command word that R96 refuses, which is the one-word
form of `WR 0x000, w`. -/
def Obligations.EncodeOfDecodeReturnsTheWords : Prop :=
  ∀ (ws : List Word) (i : Instr) (len : Nat), decodeItem ws = .item i len →
    i.WellFormed = true ∧
    (ws.take len = encode i ∨
      ∃ w e, ws.head? = some w ∧ decodeCommand w = .error e ∧ i = .wr 0x000 w ∧ len = 1)

/-- 30_encoding.md R84 and opcode_table.json: a word with a row's fixed bits decodes to that row's operation, with the
row's number of words (a two-word row needs its second word). -/
def Obligations.RowWordsDecodeToTheirRow : Prop :=
  ∀ r ∈ opRows, ∀ (w : Word) (rest : List Word), r.hits w = true → (r.words = 2 → rest ≠ []) →
    ∃ i, decodeItem (w :: rest) = .item i r.words ∧ i.mnemonic = r.mnemonic ∧ i.WellFormed = true

/-- 30_encoding.md R89: exactly the listed words spell no operation, and loading a trace that reaches one after
well-formed operations refuses the whole trace by naming its index. That `step` too refuses such a word when `pc` reaches
it, naming the index, is the model's choice (log 6): R89 has the harness refuse the trace before it runs. Loading into a
state that is not the reset state is the model's generalisation (log 18). -/
def Obligations.IllFormedWordsAreRefusedByIndex : Prop :=
  ∀ (w : Word) (rest : List Word),
    let opc := field w 31 24
    let bad := (0x83 ≤ opc ∧ opc ≤ 0xBF) ∨ (0xC2 ≤ opc ∧ opc ≤ 0xFF) ∨
      (opc = 0x81 ∧ field w 23 1 ≠ 0) ∨ (opc = 0x82 ∧ field w 23 0 ≠ 0) ∨
      ((opc = 0xC0 ∨ opc = 0xC1) ∧ field w 23 12 ≠ 0) ∨ (opc = 0xC0 ∧ rest = [])
    (¬ bad → ∃ i len, decodeItem (w :: rest) = .item i len) ∧
    (bad → ∃ why,
      (∀ s : State, s.harness.trace.drop s.harness.pc = w :: rest →
        step s = .refused (.illFormedTrace s.harness.pc why)) ∧
      (∀ (is : List Instr) (s : State), (∀ i ∈ is, i.WellFormed = true) →
        loadTrace (is.flatMap encode ++ w :: rest) s =
          .error (.illFormedTrace (is.flatMap encode).length why)))

/-- 30_encoding.md R81: a bare format-C word in a trace is the same as the two-word item `WR 0x000, word`. -/
def Obligations.BareCommandWordIsAWriteToCmd : Prop :=
  ∀ (w : Word) (rest : List Word), field w 31 24 < 0x80 →
    ∃ i, decodeItem (w :: rest) = .item i 1 ∧ ∀ s : State, exec i s = exec (.wr 0x000 w) s

/-- A sanity check on words written out from 30_encoding.md R81 to R84. -/
def Obligations.WordsOfEachFormatDecode : Prop :=
  decodeItem [0x01000001] = .item (.construct true) 1 ∧
  decodeItem [0x13000000] = .item .snap 1 ∧
  decodeItem [0x80001388] = .item (.usec 5000) 1 ∧
  decodeItem [0x81000001] = .item (.edge true) 1 ∧
  decodeItem [0xC000030C, 0x00001234] = .item (.wr 0x30C 0x1234) 2 ∧
  decodeItem [0xC1000308] = .item (.rd 0x308) 1

/-! ### The harness -/

/-- 30_encoding.md R93, 60_exceptions.md R200: when the words at `pc` decode to an item, its execution completes, and a
step is that execution with `pc` moved past the item's words. -/
def Obligations.StepRunsTheDecodedItem : Prop :=
  ∀ (s : State) (i : Instr) (len : Nat), decodeItem (s.harness.trace.drop s.harness.pc) = .item i len →
    ∃ t, exec i s = .next t ∧
      step s = .next { t with harness := { t.harness with pc := s.harness.pc + len } }

/-- 30_encoding.md R93, R97: a run ends exactly when `pc` has reached the end of the trace. -/
def Obligations.StepStopsExactlyAtTheEndOfTheTrace : Prop :=
  ∀ s : State, step s = .refused .endOfTrace ↔ s.harness.trace.length ≤ s.harness.pc

/-- 30_encoding.md R89, R93: no run of a trace the harness has loaded meets an ill-formed word. That the state loaded into
may be any, not the reset state alone (70_reset_and_hazards.md R220), is the model's generalisation (log 18). -/
def Obligations.LoadedTraceNeverMeetsAnIllFormedWord : Prop :=
  ∀ (ws : List Word) (s₀ s : State) (k index : Nat) (why : DecodeReject), loadTrace ws s₀ = .ok s →
    Host.Core.run Sys2Proof.core k s ≠ .refused (.illFormedTrace index why)

/-- 30_encoding.md R93, 10_state.md R50, R52: a step moves `pc` forward by one or two words and never past the end,
leaves the trace and the parameters alone, and appends at most one value to the read log and one bus error to the
record of them (the record is the model's, log 3). -/
def Obligations.StepMovesForwardAndKeepsConfiguration : Prop :=
  ∀ s t : State, step s = .next t →
    t.params = s.params ∧ t.harness.trace = s.harness.trace ∧
    (t.harness.pc = s.harness.pc + 1 ∨ t.harness.pc = s.harness.pc + 2) ∧
    t.harness.pc ≤ t.harness.trace.length ∧
    (t.harness.rdLog = s.harness.rdLog ∨ ∃ v, t.harness.rdLog = s.harness.rdLog ++ [v]) ∧
    (t.harness.busErrors = s.harness.busErrors ∨ ∃ c, t.harness.busErrors = s.harness.busErrors ++ [c])

/-! ### Reset and invariants -/

/-- 10_state.md R51: power-on and the assertion of `rst`, from any state, put every element in its value of the table;
every register then reads 0. -/
def Obligations.ResetGivesTheResetValues : Prop :=
  let quiet := fun t : State =>
    t.capture =
      { constructed := false, activeLow := false, inIsr := false, cbuf := [], ptimer := 0, sinceEdge := 0, tickCnt := 0,
        rxPinCfg := { mode := none, pull := none, interrupt := .none } } ∧
    t.codec =
      { payload := 0, result := 0, resKind := .none, wbuf := Vector.replicate 128 0, wlen := 0,
        cset := Vector.replicate 16 0, clen := 0 } ∧
    t.tx = { busy := false, train := [], idx := 0, rem := 0, duty := 0 } ∧
    t.err = { fatal := false, cmdErr := false, errcode := 0 } ∧
    t.notifLog = [] ∧
    ∀ r, readReg r t = 0
  quiet State.reset ∧ ∀ s : State, quiet (assertReset s)

/-- 10_state.md R48, R51: the invariants hold after reset, and after `rst` from any state with admissible parameters. -/
def Obligations.InvariantsHoldAfterReset : Prop :=
  State.reset.Inv ∧ ∀ s : State, s.params.Wf → (assertReset s).Inv

/-- 10_state.md R48: every step keeps the invariants, from every state that has them. -/
def Obligations.EveryStepKeepsTheInvariants : Prop :=
  ∀ s t : State, s.Inv → step s = .next t → t.Inv

/-- 40_capture.md R115, R116, R124: every notification ever emitted is legal: captured durations lie in [50, 249999], an
Overflow train has exactly 128 pulses and an Idle train 1 to 127. -/
def Obligations.EveryStepEmitsOnlyLegalNotifications : Prop :=
  ∀ s t : State, s.Inv → s.LogLegal → step s = .next t → t.LogLegal

/-- 40_capture.md R114, 20_memory.md R71: what an operation emits accounts for every pulse: the buffer before, followed by
the pulses newly notified, is the pulses of the trains newly emitted followed by the buffer after; only a `DISPOSE`
discards, and it emits nothing. -/
def Obligations.EveryPulseIsInOneTrainOrTheBuffer : Prop :=
  ∀ (i : Instr) (s t : State), s.Inv → exec i s = .next t →
    (commandOf i ≠ some .dispose →
      ∃ new, t.notifLog = s.notifLog ++ new ∧
        s.capture.cbuf ++ notifiedPulses new = trainPulses new ++ t.capture.cbuf) ∧
    (commandOf i = some .dispose → t.notifLog = s.notifLog ∧ t.capture.cbuf = [])

/-- 10_state.md R36: the history is written only by appending and read by nothing: any other history before an operation
changes nothing but the history. -/
def Obligations.NotificationHistoryIsWriteOnly : Prop :=
  ∀ (i : Instr) (s : State) (old : List Notification), ∃ t new, exec i s = .next t ∧
    t.notifLog = s.notifLog ++ new ∧ exec i { s with notifLog := old } = .next { t with notifLog := old ++ new }

/-- 10_state.md R35, 60_exceptions.md R202, R203: the error flags gate nothing: with any other error report an operation
does the same to everything else (an `RD` logs a value, which may be a flag's). -/
def Obligations.ErrorFlagsGateNothing : Prop :=
  ∀ (i : Instr) (s : State) (e : ErrorReport), ∃ t u, exec i s = .next t ∧ exec i { s with err := e } = .next u ∧
    u.capture = t.capture ∧ u.codec = t.codec ∧ u.tx = t.tx ∧ u.notifLog = t.notifLog ∧ u.params = t.params ∧
    u.harness.trace = t.harness.trace ∧ u.harness.pc = t.harness.pc ∧ u.harness.busErrors = t.harness.busErrors ∧
    u.harness.rdLog.length = t.harness.rdLog.length ∧ ((∀ off, i ≠ .rd off) → u.harness = t.harness)

/-- 70_reset_and_hazards.md R225, 60_exceptions.md R203: no operation clears `fatal`, only reset does, and only a
`CONSTRUCT` with the hardware unavailable sets it. -/
def Obligations.FatalIsStickyAndOnlyConstructSetsIt : Prop :=
  ∀ (i : Instr) (s t : State), exec i s = .next t →
    (s.err.fatal = true → t.err.fatal = true ∧ (assertReset t).err.fatal = false) ∧
    (s.err.fatal = false → t.err.fatal = true →
      (∃ al, commandOf i = some (.construct al)) ∧ s.capture.constructed = false ∧ s.params.hwAvailable = false)

/-! ### Totality and bus errors -/

/-- 60_exceptions.md R200, 20_memory.md R63, R64: every operation completes, on every state and every operand. One the bus
does not admit leaves the block, its history and the read log as if it had not been issued: only the platform's answer is
recorded (the record, and the cause in it, are the model's, log 3). One it admits is answered with no bus error. -/
def Obligations.EveryAdmittedOperationCompletes : Prop :=
  ∀ (i : Instr) (s : State), ∃ t, exec i s = .next t ∧
    (∀ c, busErrorOf i = some c →
      t = { s with harness := { s.harness with busErrors := s.harness.busErrors ++ [c] } }) ∧
    (admitted i = true → t.harness.busErrors = s.harness.busErrors)

/-- 20_memory.md R63, R64, 44_host_commands.md R192, R193, R197, 60_exceptions.md R210: which accesses are bus errors, by
offset; such an access changes nothing but the record of bus errors, and any other completes without one. The record is
the model's (log 3), and so is the answer `unmapped` at offsets from 0x1000, which no trace can spell (log 16). -/
def Obligations.BusErrorsByOffset : Prop :=
  ∀ (off : Nat) (data : Word) (s : State),
    let answered := fun (c : BusCause) (o : Host.Outcome State Fault Refusal) =>
      o = .next { s with harness := { s.harness with busErrors := s.harness.busErrors ++ [c] } }
    (off % 4 ≠ 0 → answered .misaligned (exec (.wr off data) s) ∧ answered .misaligned (exec (.rd off) s)) ∧
    (off % 4 = 0 → (0x080 ≤ off ∧ off < 0x200) ∨ 0x600 ≤ off →
      answered .unmapped (exec (.wr off data) s) ∧ answered .unmapped (exec (.rd off) s)) ∧
    (off % 4 = 0 → off < 0x080 ∨ (0x200 ≤ off ∧ off < 0x600) →
      ∃ v, exec (.rd off) s = .next { s with harness := { s.harness with rdLog := s.harness.rdLog ++ [v] } }) ∧
    (off % 4 = 0 → off = 0x000 ∨ off = 0x010 ∨ off = 0x018 ∨ off = 0x01C ∨ (0x040 ≤ off ∧ off < 0x080) ∨
      (0x200 ≤ off ∧ off < 0x400) → ∃ t, exec (.wr off data) s = .next t ∧ t.harness = s.harness) ∧
    (off % 4 = 0 → off = 0x004 ∨ off = 0x008 ∨ off = 0x00C ∨ off = 0x014 ∨ (0x020 ≤ off ∧ off < 0x040) ∨
      (0x400 ≤ off ∧ off < 0x600) → answered .readOnly (exec (.wr off data) s))

/-- 20_memory.md R60, R63, R64, 44_host_commands.md R192, R193: on the host bus, an access in the window of other than 4
bytes is a bus error, and a 4-byte access at `BASE + off` is the operation `WR off` or `RD off`. Bus accesses beside the
step, and that one outside the window is a fault, are the model's choice (log 14); the record of bus errors and that the
size is checked before the offset are too (log 3). -/
def Obligations.BusAccessesAreWordAccessesAtBase : Prop :=
  ∀ (s : State) (addr n off : Nat) (v : Word),
    let answered := fun (c : BusCause) =>
      { s with harness := { s.harness with busErrors := s.harness.busErrors ++ [c] } }
    (off < 0x1000 → n ≠ 4 →
      memWrite (s.params.base + off) n v s = .next (answered .size) ∧
      memRead (s.params.base + off) n s = .ok (.error .size)) ∧
    (off < 0x1000 →
      memWrite (s.params.base + off) 4 v s = exec (.wr off v) s ∧
      ((∃ x, memRead (s.params.base + off) 4 s = .ok (.ok x) ∧
          exec (.rd off) s = .next { s with harness := { s.harness with rdLog := s.harness.rdLog ++ [x] } }) ∨
        ∃ c, memRead (s.params.base + off) 4 s = .ok (.error c) ∧ exec (.rd off) s = .next (answered c))) ∧
    (addr < s.params.base ∨ s.params.base + 0x1000 ≤ addr →
      memWrite addr n v s = .fault .outsideWindow ∧ memRead addr n s = .error .outsideWindow)

/-! ### Capture engine -/

/-- 40_capture.md R105: `CONSTRUCT`, its encoding and its three cases. -/
def Obligations.ConstructBuildsTheEngineOrIsRefused : Prop :=
  ∀ (al : Bool) (s : State),
    encodedAs (.construct al) 0x01 al.toNat ∧
    (s.capture.constructed = true →
      exec (.construct al) s = .next { s with err := { s.err with cmdErr := true, errcode := 3 } }) ∧
    (s.capture.constructed = false → s.params.hwAvailable = false →
      exec (.construct al) s = .next { s with err := { fatal := true, cmdErr := true, errcode := 4 } }) ∧
    (s.capture.constructed = false → s.params.hwAvailable = true →
      exec (.construct al) s = .next { s with
        capture :=
          { constructed := true, activeLow := al, inIsr := false, cbuf := [], ptimer := 0, sinceEdge := 0,
            tickCnt := 0,
            rxPinCfg := { mode := some .input, pull := some .pullUp, interrupt := .bothEdges } } })

/-- 40_capture.md R106: `DISPOSE` discards the buffer without a notification and leaves the timers; without an engine it
is a no-op. -/
def Obligations.DisposeDiscardsTheBuffer : Prop :=
  encodedAs .dispose 0x02 0 ∧ ∀ s : State,
    (s.capture.constructed = true →
      exec .dispose s = .next { s with
        capture :=
          { s.capture with
            constructed := false, cbuf := [], rxPinCfg := { s.capture.rxPinCfg with interrupt := .none } } }) ∧
    (s.capture.constructed = false → exec .dispose s = .next s)

/-- 40_capture.md R108 (with R102, R104, R109 to R113): `EDGE`, its encoding, and on a constructed engine its result and
its frame; `p` is the pulse the edge forms. Without an engine it changes nothing. -/
def Obligations.EdgeStoresTheEndedPulse : Prop :=
  ∀ (newLevel : Bool) (s : State) (p : Pulse),
    p.level = ((!newLevel) ^^ s.capture.activeLow) → p.us = max 50 (min s.capture.ptimer.toNat 250000) →
    let silence := 250000 ≤ s.capture.ptimer.toNat
    let buf := if silence then s.capture.cbuf else s.capture.cbuf ++ [p]
    let log := if silence then s.notifLog else s.notifLog ++ [.pulse p]
    encodedAs (.edge newLevel) 0x81 newLevel.toNat ∧
    (s.capture.constructed = false → exec (.edge newLevel) s = .next s) ∧
    (s.capture.constructed = true → ∃ t, exec (.edge newLevel) s = .next t ∧
      t.capture.ptimer = 0 ∧ t.capture.sinceEdge = 0 ∧ t.capture.inIsr = false ∧
      (buf.length < 128 → t.capture.cbuf = buf ∧ t.notifLog = log) ∧
      (128 ≤ buf.length → t.capture.cbuf = [] ∧ t.notifLog = log ++ [.train buf .overflow]) ∧
      t.capture.constructed = true ∧ t.capture.activeLow = s.capture.activeLow ∧
      t.capture.tickCnt = s.capture.tickCnt ∧ t.capture.rxPinCfg = s.capture.rxPinCfg ∧
      t.codec = s.codec ∧ t.tx = s.tx ∧ t.err = s.err ∧ t.params = s.params ∧ t.harness = s.harness)

/-- 40_capture.md R107: while no engine exists, `EDGE` and `TICK` change nothing, and `USEC` changes nothing of the engine
and emits nothing. -/
def Obligations.EventsWithoutAnEngineDoNothing : Prop :=
  ∀ s : State, s.capture.constructed = false →
    (∀ l, exec (.edge l) s = .next s) ∧ exec .tick s = .next s ∧
    (∀ n, ∃ t, exec (.usec n) s = .next t ∧ t.capture = s.capture ∧ t.notifLog = s.notifLog)

/-- 40_capture.md R116: `TICK` flushes exactly when the engine exists, no edge handler runs, the buffer is not empty and
the line has been quiet for 5000 µs; otherwise it changes nothing. The flushed train then has 1 to 127 pulses. -/
def Obligations.TickFlushesAQuietBuffer : Prop :=
  encodedAs .tick 0x82 0 ∧ ∀ s : State,
    let flushes := s.capture.constructed = true ∧ s.capture.inIsr = false ∧ s.capture.cbuf ≠ [] ∧
      5000 ≤ s.capture.sinceEdge.toNat
    (flushes → exec .tick s = .next { s with
      capture := { s.capture with cbuf := [] }, notifLog := s.notifLog ++ [.train s.capture.cbuf .idle] }) ∧
    (¬ flushes → exec .tick s = .next s) ∧
    (s.Inv → flushes → 1 ≤ s.capture.cbuf.length ∧ s.capture.cbuf.length ≤ 127)

/-- 40_capture.md R120, R121: one microsecond of a constructed engine: both timers advance and saturate, then the divider
may perform the idle check, which sees the advanced timer. -/
def Obligations.OneMicrosecondOfTheEngine : Prop :=
  ∀ s : State, s.Inv → s.capture.constructed = true →
    let since := min (s.capture.sinceEdge.toNat + 1) (2 ^ 32 - 1)
    let fires := s.params.tickPeriodUs ≠ 0 ∧ s.capture.tickCnt.toNat + 1 = s.params.tickPeriodUs
    let flushes := fires ∧ s.capture.cbuf ≠ [] ∧ 5000 ≤ since
    ∃ t, exec (.usec 1) s = .next t ∧
      t.capture.ptimer.toNat = min (s.capture.ptimer.toNat + 1) (2 ^ 32 - 1) ∧
      t.capture.sinceEdge.toNat = since ∧
      (s.params.tickPeriodUs = 0 → t.capture.tickCnt = s.capture.tickCnt) ∧
      (fires → t.capture.tickCnt = 0) ∧
      (s.params.tickPeriodUs ≠ 0 → ¬ fires → t.capture.tickCnt.toNat = s.capture.tickCnt.toNat + 1) ∧
      (flushes → t.capture.cbuf = [] ∧ t.notifLog = s.notifLog ++ [.train s.capture.cbuf .idle]) ∧
      (¬ flushes → t.capture.cbuf = s.capture.cbuf ∧ t.notifLog = s.notifLog) ∧
      t.capture.constructed = true ∧ t.capture.activeLow = s.capture.activeLow ∧ t.capture.inIsr = s.capture.inIsr ∧
      t.capture.rxPinCfg = s.capture.rxPinCfg ∧
      t.codec = s.codec ∧ t.err = s.err ∧ t.params = s.params ∧ t.harness = s.harness

/-- 44_host_commands.md R198: `USEC n` is `n` times `USEC 1`: it always completes, `USEC 0` does nothing, and `a + b`
microseconds are `a` and then `b`. -/
def Obligations.UsecIsSuccessiveMicroseconds : Prop :=
  ∀ s : State, exec (.usec 0) s = .next s ∧
    ∀ a b : Nat, ∃ t u, exec (.usec a) s = .next t ∧ exec (.usec b) t = .next u ∧ exec (.usec (a + b)) s = .next u

/-- 40_capture.md R122: from an empty buffer, 128 edges of which the first ends a pulse shorter than 250000 µs and every
later one comes less than 5000 µs after the one before it store 128 pulses, and the last emits exactly one Overflow
train, of those pulses in order. -/
def Obligations.OverflowAfterOneHundredTwentyEightEdges : Prop :=
  ∀ (s : State) (gap : Nat) (level : Bool) (rest : List (Nat × Bool)), s.Inv → s.capture.constructed = true →
    s.capture.cbuf = [] → s.capture.ptimer.toNat + gap < 250000 → rest.length = 127 → (∀ g ∈ rest, g.1 < 5000) →
    let gaps := (gap, level) :: rest
    ∃ t train, execAll (gaps.flatMap fun g => [.usec g.1, .edge g.2]) s = .next t ∧
      train.length = 128 ∧ t.notifLog = s.notifLog ++ train.map .pulse ++ [.train train .overflow] ∧
      t.capture.cbuf = [] ∧ t.capture.constructed = true ∧
      (train.map Pulse.level = gaps.map fun g => (!g.2) ^^ s.capture.activeLow) ∧
      train.map Pulse.us = max 50 (s.capture.ptimer.toNat + gap) :: rest.map fun g => max 50 g.1

/-- 40_capture.md R123, 70_reset_and_hazards.md R228: with the divider on, a non-empty buffer and no edge, time flushes
exactly one Idle train, of exactly the buffered pulses, at most a period after the line has been quiet 5000 µs, and none
before it has. -/
def Obligations.QuietLineFlushesOneIdleTrain : Prop :=
  ∀ (s : State) (n : Nat), s.Inv → s.capture.constructed = true → s.capture.cbuf ≠ [] →
    s.params.tickPeriodUs ≠ 0 →
    (5000 - s.capture.sinceEdge.toNat + s.params.tickPeriodUs ≤ n →
      ∃ t, exec (.usec n) s = .next t ∧ t.capture.cbuf = [] ∧
        t.notifLog = s.notifLog ++ [.train s.capture.cbuf .idle]) ∧
    (s.capture.sinceEdge.toNat + n < 5000 →
      ∃ t, exec (.usec n) s = .next t ∧ t.capture.cbuf = s.capture.cbuf ∧ t.notifLog = s.notifLog)

/-- 43_transmitter.md R185, 44_host_commands.md R198: time carries the engine and the transmitter independently: any other
transmitter leaves the engine's course as it was, and any other engine the transmitter's. -/
def Obligations.EngineAndTransmitterAreIndependentInTime : Prop :=
  ∀ (n : Nat) (s : State) (tx : Transmitter) (cap : Capture), ∃ t u v,
    exec (.usec n) s = .next t ∧ exec (.usec n) { s with tx := tx } = .next u ∧
    exec (.usec n) { s with capture := cap } = .next v ∧
    u.capture = t.capture ∧ u.notifLog = t.notifLog ∧ v.tx = t.tx

/-! ### NEC codec -/

/-- 41_nec_decoder.md R154: decoding an encoded payload returns it, for every payload and every admissible long-space
window. -/
def Obligations.DecodeOfEncodedTrainIsThePayload : Prop :=
  ∀ (p : Word) (lo hi : Nat), 562 < lo → lo ≤ 1687 → 1687 ≤ hi → decodeTrain ⟨lo, hi⟩ (encodeTrain p) = some p

/-- 42_nec_encoder.md R165 at the registers: `ENCODE` then `DECODE` leaves `RESULT = PAYLOAD`. -/
def Obligations.EncodeThenDecodeReturnsThePayloadRegister : Prop :=
  ∀ s : State, s.params.Wf → ∃ t u, exec .encode s = .next t ∧ exec .decode t = .next u ∧
    u.codec.result = s.codec.payload ∧ u.codec.resKind = .payload

/-- 41_nec_decoder.md R148 (R143 to R147), with the pulses by index: a train decodes to `r` exactly when there are a first
leader, a first header space after it, a short mark at the end, and 32 pairs from right after the header whose bits,
the long window tested first, are `r` from bit 31 down. -/
def Obligations.DecodeMeansLeaderHeaderStopAndThirtyTwoPairs : Prop :=
  ∀ (lo hi : Nat) (t : Train) (r : Word),
    let win := fun (d lo hi : Nat) => lo ≤ d ∧ d ≤ hi
    decodeTrain ⟨lo, hi⟩ t = some r ↔
      ∃ a b, b + 64 < t.length ∧ a < b ∧
        (∃ p, t[a]? = some p ∧ p.level = true ∧ win p.us 7200 10800) ∧
        (∀ i < a, ∀ p, t[i]? = some p → ¬ (p.level = true ∧ win p.us 7200 10800)) ∧
        (∃ p, t[b]? = some p ∧ p.level = false ∧ win p.us 3900 5100) ∧
        (∀ j, a < j → j < b → ∀ p, t[j]? = some p → ¬ (p.level = false ∧ win p.us 3900 5100)) ∧
        (∃ p, t.getLast? = some p ∧ p.level = true ∧ win p.us 400 700) ∧
        ∀ k < 32, ∃ m s, t[b + 1 + 2 * k]? = some m ∧ t[b + 2 + 2 * k]? = some s ∧
          m.level = true ∧ win m.us 400 700 ∧ s.level = false ∧
          ((win s.us lo hi ∧ r.getLsbD (31 - k) = true) ∨
            (¬ win s.us lo hi ∧ win s.us 400 700 ∧ r.getLsbD (31 - k) = false))

/-- 41_nec_decoder.md R142: `DECODE` writes `RESKIND`, and `RESULT` only on success; nothing else changes. -/
def Obligations.DecodeCommandLatchesTheResult : Prop :=
  encodedAs .decode 0x10 0 ∧ ∀ s : State,
    (∀ r, decodeTrain ⟨s.params.longSpaceLo, s.params.longSpaceHi⟩ s.workTrain = some r →
      exec .decode s = .next { s with codec := { s.codec with resKind := .payload, result := r } }) ∧
    (decodeTrain ⟨s.params.longSpaceLo, s.params.longSpaceHi⟩ s.workTrain = none →
      exec .decode s = .next { s with codec := { s.codec with resKind := .noResult } })

/-- 10_state.md R21, R32: the work train is the pulses of the first `WLEN` words of `WBUF`: bit 31 the level, bits [30:0]
the duration. -/
def Obligations.WorkTrainIsTheFirstWlenWords : Prop :=
  ∀ s : State, s.workTrain.length = s.codec.wlen.val ∧
    ∀ (i : Nat) (h : i < 128), i < s.codec.wlen.val → ∃ p, s.workTrain[i]? = some p ∧
      p.level = s.codec.wbuf[i].getLsbD 31 ∧ p.us = s.codec.wbuf[i].toNat % 2 ^ 31

/-- 41_nec_decoder.md R151, by index: exactly four pulses, the total in its window, and after the first leader a repeat
space and a short mark. -/
def Obligations.IsRepeatMeansLeaderSpaceMark : Prop :=
  ∀ t : Train,
    let leader := fun (p : Pulse) => p.level = true ∧ 7200 ≤ p.us ∧ p.us ≤ 10800
    isRepeat t = true ↔
      ∃ p0 p1 p2 p3 : Pulse, t = [p0, p1, p2, p3] ∧
        12000 ≤ p0.us + p1.us + p2.us + p3.us ∧ p0.us + p1.us + p2.us + p3.us ≤ 120000 ∧
        ∃ s m, ((leader p0 ∧ s = p1 ∧ m = p2) ∨ (¬ leader p0 ∧ leader p1 ∧ s = p2 ∧ m = p3)) ∧
          s.level = false ∧ 2000 ≤ s.us ∧ s.us ≤ 3000 ∧ m.level = true ∧ 400 ≤ m.us ∧ m.us ≤ 700

/-- 41_nec_decoder.md R150: `ISREPEAT` writes `RESKIND` and nothing else. -/
def Obligations.IsRepeatCommandLatchesTheAnswer : Prop :=
  encodedAs .isrepeat 0x11 0 ∧ ∀ s : State,
    (isRepeat s.workTrain = true →
      exec .isrepeat s = .next { s with codec := { s.codec with resKind := .repeatYes } }) ∧
    (isRepeat s.workTrain = false →
      exec .isrepeat s = .next { s with codec := { s.codec with resKind := .repeatNo } })

/-- 41_nec_decoder.md R153: no train is both a repeat code and decodable; so the order of the two tests in the
three-way classification (R152) does not matter. -/
def Obligations.RepeatAndDecodeAreExclusive : Prop :=
  ∀ (long : Window) (t : Train), ¬ (isRepeat t = true ∧ decodeTrain long t ≠ none) ∧
    classify long t = match decodeTrain long t with
      | some r => .payload r
      | none => if isRepeat t then .repeatCode else .noResult

/-- 42_nec_encoder.md R162, its index map: leader, header space, a short mark and a short or long space for each bit from
bit 31 down, the stop mark; nothing more. -/
def Obligations.EncodedTrainIndexMap : Prop :=
  ∀ p : Word,
    let holds := fun (i : Nat) (level : Bool) (us : Nat) =>
      ∃ q : Pulse, (encodeTrain p)[i]? = some q ∧ q.level = level ∧ q.us = us
    (encodeTrain p).length = 67 ∧ holds 0 true 9000 ∧ holds 1 false 4500 ∧ holds 66 true 562 ∧
    ∀ k < 32, holds (2 + 2 * k) true 562 ∧
      (p.getLsbD (31 - k) = true → holds (3 + 2 * k) false 1687) ∧
      (p.getLsbD (31 - k) = false → holds (3 + 2 * k) false 562)

/-- 42_nec_encoder.md R164: length, alternation, durations, total and injectivity of an encoded train. -/
def Obligations.EncodedTrainProperties : Prop :=
  ∀ p : Word,
    (encodeTrain p).length = 67 ∧
    (∀ (i : Nat) (q : Pulse), (encodeTrain p)[i]? = some q → (q.level = true ↔ i % 2 = 0)) ∧
    (∀ q ∈ encodeTrain p, (q.us = 9000 ∨ q.us = 4500 ∨ q.us = 562 ∨ q.us = 1687) ∧ 50 ≤ q.us ∧ q.us ≤ 249999) ∧
    totalUs (encodeTrain p) = 50030 + 1125 * ((List.range 32).filter fun k => p.getLsbD k).length ∧
    ∀ q : Word, encodeTrain q = encodeTrain p → q = p

/-- 42_nec_encoder.md R161, R167: `ENCODE` writes `WBUF[0..66]` and `WLEN` and nothing else, reads only `PAYLOAD`, and is
idempotent. -/
def Obligations.EncodeCommandWritesTheWorkBuffer : Prop :=
  encodedAs .encode 0x12 0 ∧ ∀ s : State, ∃ (t : State) (buf : Vector Word 128), exec .encode s = .next t ∧
    t = { s with codec := { s.codec with wbuf := buf, wlen := 67 } } ∧
    (∀ (i : Nat) (h : i < 128), i < 67 → ((encodeTrain s.codec.payload)[i]?).map Pulse.toWord = some buf[i]) ∧
    (∀ (i : Nat) (h : i < 128), 67 ≤ i → buf[i] = s.codec.wbuf[i]) ∧
    t.workTrain = encodeTrain s.codec.payload ∧ exec .encode t = .next t

/-! ### Transmitter and snap helper -/

/-- 43_transmitter.md R171, R172, R176, R177: `SEND` while busy is refused; otherwise it latches the work train and shows
the first pulse with time left, or is done when there is none; nothing but the transmitter changes. -/
def Obligations.SendLatchesTheWorkTrain : Prop :=
  encodedAs .send 0x20 0 ∧ ∀ s : State,
    (s.tx.busy = true → exec .send s = .next { s with err := { s.err with cmdErr := true, errcode := 5 } }) ∧
    (s.tx.busy = false →
      ((∀ p ∈ s.workTrain, p.us = 0) →
        exec .send s = .next { s with
          tx := { busy := false, train := s.workTrain, idx := s.workTrain.length, rem := 0, duty := 0 } }) ∧
      (∀ (i : Nat) (p : Pulse), s.workTrain[i]? = some p → p.us ≠ 0 →
        (∀ j < i, ∀ q, s.workTrain[j]? = some q → q.us = 0) →
        exec .send s = .next { s with
          tx :=
            { busy := true, train := s.workTrain, idx := i, rem := p.dur,
              duty := if p.level then s.params.markDuty else 0 } }))

/-- 43_transmitter.md R175, the duty timeline: `n` microseconds after a `SEND`, the transmitter is in the pulse whose
interval holds `n`, with the exact remainder and its duty; from the total on it is idle with duty 0. -/
def Obligations.DutyTimeline : Prop :=
  ∀ (s s₁ : State) (n : Nat), s.tx.busy = false → exec .send s = .next s₁ →
    let train := s.workTrain
    let start := fun i => ((train.take i).map Pulse.us).sum
    ∃ u, exec (.usec n) s₁ = .next u ∧
      (∀ (i : Nat) (p : Pulse), train[i]? = some p → start i ≤ n → n < start (i + 1) →
        u.tx.busy = true ∧ u.tx.idx = i ∧ u.tx.rem.toNat = start (i + 1) - n ∧
        u.tx.duty = if p.level then s.params.markDuty else 0) ∧
      (start train.length ≤ n →
        u.tx.busy = false ∧ u.tx.idx = train.length ∧ u.tx.rem = 0 ∧ u.tx.duty = 0)

/-- 10_state.md R34, 43_transmitter.md R178, R185: only `SEND` writes the latched train, and only `SEND` and time change
the transmitter. -/
def Obligations.OnlySendAndTimeChangeTheTransmitter : Prop :=
  ∀ (i : Instr) (s t : State), exec i s = .next t → commandOf i ≠ some .send →
    t.tx.train = s.tx.train ∧ ((∀ n, i ≠ .usec n) → t.tx = s.tx)

/-- 10_state.md R26, R36, 20_memory.md R69: only the capture operations change the engine or emit: anything but `EDGE`,
`TICK`, `USEC`, `CONSTRUCT` and `DISPOSE` leaves both as they are. -/
def Obligations.OnlyCaptureOperationsChangeTheEngine : Prop :=
  ∀ (i : Instr) (s t : State), exec i s = .next t →
    (∀ l, i ≠ .edge l) → i ≠ .tick → (∀ n, i ≠ .usec n) →
    (∀ al, commandOf i ≠ some (.construct al)) → commandOf i ≠ some .dispose →
    t.capture = s.capture ∧ t.notifLog = s.notifLog

/-- 20_memory.md R69: the codec commands commute with the capture operations: always with the events and `DISPOSE`, and
with `CONSTRUCT` unless both raise a command error (`SNAP` with an empty set, `CONSTRUCT` refused), when the later one's
code is the one that stays. -/
def Obligations.CodecCommandsCommuteWithCapture : Prop :=
  ∀ (c e : Instr) (s : State),
    (c = .decode ∨ c = .isrepeat ∨ c = .encode ∨ c = .snap) →
    (e = .tick ∨ e = .dispose ∨ (∃ l, e = .edge l) ∨ (∃ n, e = .usec n) ∨
      (∃ al, e = .construct al) ∧ (c ≠ .snap ∨ s.codec.clen.val ≠ 0 ∨
        (s.capture.constructed = false ∧ s.params.hwAvailable = true))) →
    ∃ t, execAll [c, e] s = .next t ∧ execAll [e, c] s = .next t

/-- 43_transmitter.md R180, R181: `SNAP` with an empty set is refused; otherwise it replaces each duration of the work
train by the nearest member of the set, the smaller of two, keeps the levels, and changes nothing else. -/
def Obligations.SnapReplacesDurationsByTheNearest : Prop :=
  encodedAs .snap 0x13 0 ∧ ∀ s : State,
    (s.codec.clen.val = 0 → exec .snap s = .next { s with err := { s.err with cmdErr := true, errcode := 6 } }) ∧
    (s.codec.clen.val ≠ 0 → ∃ buf : Vector Word 128,
      exec .snap s = .next { s with codec := { s.codec with wbuf := buf } } ∧
      (∀ (i : Nat) (h : i < 128), s.codec.wlen.val ≤ i → buf[i] = s.codec.wbuf[i]) ∧
      ∀ (i : Nat) (h : i < 128), i < s.codec.wlen.val →
        let d := s.codec.wbuf[i].toNat % 2 ^ 31
        let n := buf[i].toNat % 2 ^ 31
        buf[i].getLsbD 31 = s.codec.wbuf[i].getLsbD 31 ∧
        (∃ (j : Nat) (hj : j < 16), j < s.codec.clen.val ∧ s.codec.cset[j].toNat = n) ∧
        ∀ (j : Nat) (hj : j < 16), j < s.codec.clen.val →
          absDiff n d ≤ absDiff s.codec.cset[j].toNat d ∧
          (absDiff n d = absDiff s.codec.cset[j].toNat d → n ≤ s.codec.cset[j].toNat))

/-- 43_transmitter.md R181: `nearest` is a member of the set at least distance, the smallest such; it depends on the set
alone, not on order or duplicates. -/
def Obligations.NearestDependsOnTheSetAlone : Prop :=
  ∀ (d c : Nat) (cs : List Nat),
    (nearest d c cs ∈ c :: cs ∧ ∀ x ∈ c :: cs, absDiff (nearest d c cs) d ≤ absDiff x d ∧
      (absDiff (nearest d c cs) d = absDiff x d → nearest d c cs ≤ x)) ∧
    ∀ (c' : Nat) (cs' : List Nat), (∀ x, x ∈ c :: cs ↔ x ∈ c' :: cs') → nearest d c cs = nearest d c' cs'

/-- 43_transmitter.md R183 (a), (b): `SNAP` is idempotent and keeps `WLEN`. -/
def Obligations.SnapIsIdempotent : Prop :=
  ∀ s t : State, exec .snap s = .next t → t.codec.wlen = s.codec.wlen ∧ exec .snap t = .next t

/-- 43_transmitter.md R183 (c), (d): snapping to the encoder's four durations restores an encoded train from any train of
the same levels whose durations are off by at most 562 µs; in particular it leaves the encoded train unchanged. -/
def Obligations.SnapRestoresAnEncodedTrain : Prop :=
  ∀ (p : Word) (t : Train), t.length = 67 →
    (∀ (i : Nat) (a b : Pulse), t[i]? = some a → (encodeTrain p)[i]? = some b →
      a.level = b.level ∧ absDiff a.us b.us ≤ 562) →
    t.map (snapPulse 9000 [4500, 562, 1687]) = encodeTrain p

/-! ### Host accesses and housekeeping -/

/-- 44_host_commands.md R190, R191: `NOP` changes nothing; `CLRERR` clears `cmd_err` and `ERRCODE` and nothing else;
either with a reserved bit set is refused with code 2. -/
def Obligations.NopAndClrerr : Prop :=
  encodedAs .nop 0x00 0 ∧ encodedAs .clrerr 0x0F 0 ∧ ∀ s : State,
    exec .nop s = .next s ∧
    exec .clrerr s = .next { s with err := { s.err with cmdErr := false, errcode := 0 } } ∧
    ∀ w : Word, field w 31 24 = 0x00 ∨ field w 31 24 = 0x0F → field w 23 0 ≠ 0 →
      exec (.wr 0x000 w) s = .next { s with err := { s.err with cmdErr := true, errcode := 2 } }

/-- 44_host_commands.md R193: reading a register appends its value to the read log and changes nothing else. -/
def Obligations.ReadLogsTheRegisterValue : Prop :=
  ∀ (r : Reg) (s : State),
    exec (.rd r.offset) s =
      .next { s with harness := { s.harness with rdLog := s.harness.rdLog ++ [readReg r s] } }

/-- 10_state.md R40 to R47: what each register reads as, in a state that meets the invariants. -/
def Obligations.RegistersReadTheirState : Prop :=
  ∀ s : State, s.Inv →
    readReg .cmd s = 0 ∧ (readReg .errcode s).toNat = s.err.errcode.toNat ∧
    ((readReg .reskind s).toNat = match s.codec.resKind with
      | .none => 0 | .payload => 1 | .noResult => 2 | .repeatYes => 3 | .repeatNo => 4) ∧
    readReg .payload s = s.codec.payload ∧ readReg .result s = s.codec.result ∧
    (readReg .wlen s).toNat = s.codec.wlen.val ∧ (readReg .clen s).toNat = s.codec.clen.val ∧
    (readReg .cbuflen s).toNat = s.capture.cbuf.length ∧
    readReg .ptimer s = s.capture.ptimer ∧ readReg .since s = s.capture.sinceEdge ∧
    readReg .tickcnt s = s.capture.tickCnt ∧
    (readReg .txlen s).toNat = s.tx.train.length ∧ (readReg .txidx s).toNat = s.tx.idx ∧
    (readReg .txrem s).toNat = s.tx.rem.toNat ∧ readReg .duty s = s.tx.duty ∧
    (∀ i : Fin 16, (readReg (.cset i) s).toNat = s.codec.cset[i].toNat) ∧
    (∀ i : Fin 128, readReg (.wbuf i) s = s.codec.wbuf[i]) ∧
    ∀ i : Fin 128, (∀ p, s.capture.cbuf[i.val]? = some p → (readReg (.cbuf i) s).getLsbD 31 = p.level ∧
        (readReg (.cbuf i) s).toNat % 2 ^ 31 = p.us) ∧
      (s.capture.cbuf.length ≤ i.val → readReg (.cbuf i) s = 0)

/-- 10_state.md R39: `STATUS` is read at 0x004, a write there changes nothing of the block, and its bits are live views
of the flags; `IN_ISR` reads 0 between operations (R48 (c)). -/
def Obligations.StatusBits : Prop :=
  ∀ s : State,
    let w := readReg .status s
    exec (.rd 0x004) s = .next { s with harness := { s.harness with rdLog := s.harness.rdLog ++ [w] } } ∧
    (∀ d, ∃ h, exec (.wr 0x004 d) s = .next { s with harness := h }) ∧ (s.Inv → w.getLsbD 1 = false) ∧
    w.getLsbD 0 = s.capture.constructed ∧ w.getLsbD 1 = s.capture.inIsr ∧
    w.getLsbD 2 = decide (s.capture.cbuf ≠ []) ∧ w.getLsbD 3 = s.tx.busy ∧ w.getLsbD 4 = s.err.fatal ∧
    w.getLsbD 5 = s.err.cmdErr ∧ w.getLsbD 6 = s.capture.activeLow ∧ ∀ k, 7 ≤ k → w.getLsbD k = false

/-- 10_state.md R46, 44_host_commands.md R192, R196, 20_memory.md R62: a write to `PAYLOAD`, `WBUF[i]` or `CSET[i]` stores
its word (a `CSET` entry without bit 31) at the four bytes from `off`, little-endian, every other byte of the window
reads as before, and nothing outside the codec registers changes. -/
def Obligations.WriteStoresExactlyItsFourBytes : Prop :=
  ∀ (off : Nat) (data : Word) (s : State), off % 4 = 0 →
    off = 0x010 ∨ (0x040 ≤ off ∧ off < 0x080) ∨ (0x200 ≤ off ∧ off < 0x400) →
    ∃ t, exec (.wr off data) s = .next t ∧
      (∀ k < 4, windowByte (off + k) t = some (BitVec.ofNat 8
        ((if 0x040 ≤ off ∧ off < 0x080 then data.toNat % 2 ^ 31 else data.toNat) / 2 ^ (8 * k)))) ∧
      (∀ a, a < off ∨ off + 4 ≤ a → windowByte a t = windowByte a s) ∧
      t.codec.resKind = s.codec.resKind ∧ t.capture = s.capture ∧ t.tx = s.tx ∧ t.err = s.err ∧
      t.notifLog = s.notifLog ∧ t.params = s.params ∧ t.harness = s.harness

/-- 44_host_commands.md R195: length writes, all 32 bits compared. -/
def Obligations.LengthWritesAreRangeChecked : Prop :=
  ∀ (data : Word) (s : State),
    (∀ n : Fin 129, data.toNat = n.val →
      exec (.wr 0x018 data) s = .next { s with codec := { s.codec with wlen := n } }) ∧
    (128 < data.toNat →
      exec (.wr 0x018 data) s = .next { s with err := { s.err with cmdErr := true, errcode := 7 } }) ∧
    (∀ n : Fin 17, data.toNat = n.val →
      exec (.wr 0x01C data) s = .next { s with codec := { s.codec with clen := n } }) ∧
    (16 < data.toNat →
      exec (.wr 0x01C data) s = .next { s with err := { s.err with cmdErr := true, errcode := 7 } })

/-- 30_encoding.md R87, R88, R96, 44_host_commands.md R194: a word written to `CMD` is refused with code 1 for its opcode,
else with code 2 for a reserved bit, else it performs the command whose word it is. -/
def Obligations.CommandWordsAreCheckedThenPerformed : Prop :=
  ∀ (w : Word) (s : State),
    let opc := field w 31 24
    let known := opc ∈ [0x00, 0x01, 0x02, 0x0F, 0x10, 0x11, 0x12, 0x13, 0x20]
    let reserved := (opc = 0x01 ∧ field w 23 1 ≠ 0) ∨ (opc ≠ 0x01 ∧ field w 23 0 ≠ 0)
    (¬ known → exec (.wr 0x000 w) s = .next { s with err := { s.err with cmdErr := true, errcode := 1 } }) ∧
    (known → reserved → exec (.wr 0x000 w) s = .next { s with err := { s.err with cmdErr := true, errcode := 2 } }) ∧
    (known → ¬ reserved → ∃ c : Command, encode c.toInstr = [w] ∧ exec (.wr 0x000 w) s = exec c.toInstr s)

/-- 20_memory.md R65, 44_host_commands.md R194 and each operation's rule: every byte of the window outside the registers
an operation writes reads as before; a write to `CMD` has the bytes of the command it performs, or the error report where
the word is refused (`ownBytes`). -/
def Obligations.OperationsChangeOnlyTheirOwnBytes : Prop :=
  ∀ (i : Instr) (s t : State), exec i s = .next t → SameBytesOutside (ownBytes i s) s t

/-! ### Pseudo-operations -/

/-- 30_encoding.md R94, R95: `WAIT n` is well formed and is `n` microseconds; `PULSEIN lvl, d` is `d` microseconds and then
the edge; the call form of `send` loads the train, sends it, and waits exactly as long as `TX_BUSY` is 1. For `n` beyond
the 24-bit field, `exec (.usec n)` as the way to say `n` microseconds at once is the model's choice (log 16). -/
def Obligations.WaitIsTimeForAnyCount : Prop :=
  ∀ (n : Nat) (lvl : Bool) (ps : List Word) (s : State),
    (∀ i ∈ waitItems n, i.WellFormed = true) ∧
    execAll (waitItems n) s = exec (.usec n) s ∧
    execAll (pulseInItems lvl n) s = execAll [.usec n, .edge lvl] s ∧
    (s.Inv → ∃ (m : Nat) (sent done : State),
      callSend ps s = loadTrainItems ps ++ [.send] ++ waitItems m ∧
      execAll (loadTrainItems ps ++ [.send]) s = .next sent ∧ execAll (callSend ps s) s = .next done ∧
      done.tx.busy = false ∧ ∀ k < m, ∃ u, exec (.usec k) sent = .next u ∧ u.tx.busy = true)
end

