-- ==== Sys2Proof/Laws/State.lean ====
section
/-! SUPPORT. One lemma per field per shared update, true by rfl. -/

namespace Sys2Proof.Machine

@[simp] theorem raiseCmdError_capture (e : CmdError) (s : State) : (raiseCmdError e s).capture = s.capture := rfl
@[simp] theorem raiseCmdError_codec (e : CmdError) (s : State) : (raiseCmdError e s).codec = s.codec := rfl
@[simp] theorem raiseCmdError_tx (e : CmdError) (s : State) : (raiseCmdError e s).tx = s.tx := rfl
@[simp] theorem raiseCmdError_err (e : CmdError) (s : State) :
    (raiseCmdError e s).err = { s.err with cmdErr := true, errcode := e.code } := rfl
@[simp] theorem raiseCmdError_notifLog (e : CmdError) (s : State) : (raiseCmdError e s).notifLog = s.notifLog := rfl
@[simp] theorem raiseCmdError_params (e : CmdError) (s : State) : (raiseCmdError e s).params = s.params := rfl
@[simp] theorem raiseCmdError_harness (e : CmdError) (s : State) : (raiseCmdError e s).harness = s.harness := rfl

@[simp] theorem raiseFatal_capture (e : CmdError) (s : State) : (raiseFatal e s).capture = s.capture := rfl
@[simp] theorem raiseFatal_codec (e : CmdError) (s : State) : (raiseFatal e s).codec = s.codec := rfl
@[simp] theorem raiseFatal_tx (e : CmdError) (s : State) : (raiseFatal e s).tx = s.tx := rfl
@[simp] theorem raiseFatal_err (e : CmdError) (s : State) :
    (raiseFatal e s).err = { fatal := true, cmdErr := true, errcode := e.code } := rfl
@[simp] theorem raiseFatal_notifLog (e : CmdError) (s : State) : (raiseFatal e s).notifLog = s.notifLog := rfl
@[simp] theorem raiseFatal_params (e : CmdError) (s : State) : (raiseFatal e s).params = s.params := rfl
@[simp] theorem raiseFatal_harness (e : CmdError) (s : State) : (raiseFatal e s).harness = s.harness := rfl

@[simp] theorem clearCmdError_capture (s : State) : (clearCmdError s).capture = s.capture := rfl
@[simp] theorem clearCmdError_codec (s : State) : (clearCmdError s).codec = s.codec := rfl
@[simp] theorem clearCmdError_tx (s : State) : (clearCmdError s).tx = s.tx := rfl
@[simp] theorem clearCmdError_err (s : State) :
    (clearCmdError s).err = { s.err with cmdErr := false, errcode := 0 } := rfl
@[simp] theorem clearCmdError_notifLog (s : State) : (clearCmdError s).notifLog = s.notifLog := rfl
@[simp] theorem clearCmdError_params (s : State) : (clearCmdError s).params = s.params := rfl
@[simp] theorem clearCmdError_harness (s : State) : (clearCmdError s).harness = s.harness := rfl

@[simp] theorem busError_capture (c : BusCause) (s : State) : (busError c s).capture = s.capture := rfl
@[simp] theorem busError_codec (c : BusCause) (s : State) : (busError c s).codec = s.codec := rfl
@[simp] theorem busError_tx (c : BusCause) (s : State) : (busError c s).tx = s.tx := rfl
@[simp] theorem busError_err (c : BusCause) (s : State) : (busError c s).err = s.err := rfl
@[simp] theorem busError_notifLog (c : BusCause) (s : State) : (busError c s).notifLog = s.notifLog := rfl
@[simp] theorem busError_params (c : BusCause) (s : State) : (busError c s).params = s.params := rfl
@[simp] theorem busError_harness (c : BusCause) (s : State) :
    (busError c s).harness = { s.harness with busErrors := s.harness.busErrors ++ [c] } := rfl

@[simp] theorem onEngine_capture (f : Engine → Engine) (s : State) :
    (onEngine f s).capture = (f ⟨s.capture, []⟩).cap := rfl
@[simp] theorem onEngine_codec (f : Engine → Engine) (s : State) : (onEngine f s).codec = s.codec := rfl
@[simp] theorem onEngine_tx (f : Engine → Engine) (s : State) : (onEngine f s).tx = s.tx := rfl
@[simp] theorem onEngine_err (f : Engine → Engine) (s : State) : (onEngine f s).err = s.err := rfl
@[simp] theorem onEngine_notifLog (f : Engine → Engine) (s : State) :
    (onEngine f s).notifLog = s.notifLog ++ (f ⟨s.capture, []⟩).out := rfl
@[simp] theorem onEngine_params (f : Engine → Engine) (s : State) : (onEngine f s).params = s.params := rfl
@[simp] theorem onEngine_harness (f : Engine → Engine) (s : State) : (onEngine f s).harness = s.harness := rfl

@[simp] theorem advance_capture (n : Nat) (s : State) : (advance n s).capture = s.capture := rfl
@[simp] theorem advance_codec (n : Nat) (s : State) : (advance n s).codec = s.codec := rfl
@[simp] theorem advance_tx (n : Nat) (s : State) : (advance n s).tx = s.tx := rfl
@[simp] theorem advance_err (n : Nat) (s : State) : (advance n s).err = s.err := rfl
@[simp] theorem advance_notifLog (n : Nat) (s : State) : (advance n s).notifLog = s.notifLog := rfl
@[simp] theorem advance_params (n : Nat) (s : State) : (advance n s).params = s.params := rfl
@[simp] theorem advance_harness (n : Nat) (s : State) :
    (advance n s).harness = { s.harness with pc := s.harness.pc + n } := rfl

@[simp] theorem logRead_capture (v : Word) (s : State) : (logRead v s).capture = s.capture := rfl
@[simp] theorem logRead_codec (v : Word) (s : State) : (logRead v s).codec = s.codec := rfl
@[simp] theorem logRead_tx (v : Word) (s : State) : (logRead v s).tx = s.tx := rfl
@[simp] theorem logRead_err (v : Word) (s : State) : (logRead v s).err = s.err := rfl
@[simp] theorem logRead_notifLog (v : Word) (s : State) : (logRead v s).notifLog = s.notifLog := rfl
@[simp] theorem logRead_params (v : Word) (s : State) : (logRead v s).params = s.params := rfl
@[simp] theorem logRead_harness (v : Word) (s : State) :
    (logRead v s).harness = { s.harness with rdLog := s.harness.rdLog ++ [v] } := rfl

@[simp] theorem usecTx_capture (s : State) : (usecTx s).capture = s.capture := rfl
@[simp] theorem usecTx_codec (s : State) : (usecTx s).codec = s.codec := rfl
@[simp] theorem usecTx_tx (s : State) : (usecTx s).tx = txUsec s.params s.tx := rfl
@[simp] theorem usecTx_err (s : State) : (usecTx s).err = s.err := rfl
@[simp] theorem usecTx_notifLog (s : State) : (usecTx s).notifLog = s.notifLog := rfl
@[simp] theorem usecTx_params (s : State) : (usecTx s).params = s.params := rfl
@[simp] theorem usecTx_harness (s : State) : (usecTx s).harness = s.harness := rfl

@[simp] theorem usecOne_capture (s : State) :
    (usecOne s).capture = (engineUsec s.params.tickPeriodUs ⟨s.capture, []⟩).cap := rfl
@[simp] theorem usecOne_codec (s : State) : (usecOne s).codec = s.codec := rfl
@[simp] theorem usecOne_tx (s : State) : (usecOne s).tx = txUsec s.params s.tx := rfl
@[simp] theorem usecOne_err (s : State) : (usecOne s).err = s.err := rfl
@[simp] theorem usecOne_notifLog (s : State) :
    (usecOne s).notifLog = s.notifLog ++ (engineUsec s.params.tickPeriodUs ⟨s.capture, []⟩).out := rfl
@[simp] theorem usecOne_params (s : State) : (usecOne s).params = s.params := rfl
@[simp] theorem usecOne_harness (s : State) : (usecOne s).harness = s.harness := rfl

@[simp] theorem assertReset_capture (s : State) : (assertReset s).capture = State.reset.capture := rfl
@[simp] theorem assertReset_codec (s : State) : (assertReset s).codec = State.reset.codec := rfl
@[simp] theorem assertReset_tx (s : State) : (assertReset s).tx = State.reset.tx := rfl
@[simp] theorem assertReset_err (s : State) : (assertReset s).err = State.reset.err := rfl
@[simp] theorem assertReset_notifLog (s : State) : (assertReset s).notifLog = [] := rfl
@[simp] theorem assertReset_params (s : State) : (assertReset s).params = s.params := rfl
@[simp] theorem assertReset_harness (s : State) : (assertReset s).harness = s.harness := rfl

@[simp] theorem buildEngine_capture (al : Bool) (s : State) :
    (buildEngine al s).capture =
      { constructed := true, activeLow := al, inIsr := false, cbuf := [], ptimer := 0, sinceEdge := 0, tickCnt := 0,
        rxPinCfg := PinCfg.constructed } := rfl
@[simp] theorem buildEngine_codec (al : Bool) (s : State) : (buildEngine al s).codec = s.codec := rfl
@[simp] theorem buildEngine_tx (al : Bool) (s : State) : (buildEngine al s).tx = s.tx := rfl
@[simp] theorem buildEngine_err (al : Bool) (s : State) : (buildEngine al s).err = s.err := rfl
@[simp] theorem buildEngine_notifLog (al : Bool) (s : State) : (buildEngine al s).notifLog = s.notifLog := rfl
@[simp] theorem buildEngine_params (al : Bool) (s : State) : (buildEngine al s).params = s.params := rfl
@[simp] theorem buildEngine_harness (al : Bool) (s : State) : (buildEngine al s).harness = s.harness := rfl

@[simp] theorem emit_cap (n : Notification) (e : Engine) : (emit n e).cap = e.cap := rfl
@[simp] theorem emit_out (n : Notification) (e : Engine) : (emit n e).out = e.out ++ [n] := rfl
@[simp] theorem storePulse_cap (p : Pulse) (e : Engine) :
    (storePulse p e).cap = { e.cap with cbuf := e.cap.cbuf ++ [p] } := rfl
@[simp] theorem storePulse_out (p : Pulse) (e : Engine) : (storePulse p e).out = e.out ++ [.pulse p] := rfl
@[simp] theorem flush_cap (r : FlushReason) (e : Engine) : (flush r e).cap = { e.cap with cbuf := [] } := rfl
@[simp] theorem flush_out (r : FlushReason) (e : Engine) : (flush r e).out = e.out ++ [.train e.cap.cbuf r] := rfl

/-! ### The parameters after reset -/

theorem markDuty_toNat : Config.markDuty.toNat = Config.markDutyChoice % 4294967295 + 1 := by
  have h0 : Config.markDutyChoice % 4294967295 < 4294967295 := Nat.mod_lt _ (by norm_num)
  show (BitVec.ofNat 32 (Config.markDutyChoice % 4294967295 + 1)).toNat = _
  rw [BitVec.toNat_ofNat, Nat.mod_eq_of_lt (by omega)]

theorem base_mod : Config.base % 0x1000 = 0 := by
  unfold Config.base
  generalize Config.basePage = x
  omega

/-- The parameters after reset are admissible (00_scope.md R7), whatever the free constants are. -/
theorem default_wf : Params.default.Wf := by
  have h1 : 1 ≤ Config.markDuty.toNat := by rw [markDuty_toNat]; exact Nat.succ_le_succ (Nat.zero_le _)
  have h2 : Config.markDuty.toNat < 2 ^ 32 := Config.markDuty.isLt
  have h3 := base_mod
  unfold Params.Wf Params.default
  simp only
  refine ⟨by norm_num, by norm_num, by norm_num, by norm_num, by norm_num, by norm_num, h1, h2, h3⟩

end Sys2Proof.Machine
end

