-- ==== Sys2Proof/Laws/Words.lean ====
section
/-! SUPPORT. The primitives: bit fields, pulses and pulse words, clamp, saturation, distances; and the decoder and
encoder, one lemma each. -/

namespace Sys2Proof

open Machine (CmdError)

/-! ### Fields and operation words -/

theorem field_opWord_opc {opc arg : Nat} (ho : opc < 2 ^ 8) (ha : arg < 2 ^ 24) :
    field (opWord opc arg) 31 24 = opc := by
  simp only [field, opWord, BitVec.toNat_ofNat]; omega

theorem field_opWord_arg {opc arg hi : Nat} (lo : Nat) (ho : opc < 2 ^ 8) (ha : arg < 2 ^ 24) (hh : hi ≤ 23)
    (hl : lo ≤ hi) : field (opWord opc arg) hi lo = arg / 2 ^ lo % 2 ^ (hi + 1 - lo) := by
  have h1 : (opWord opc arg).toNat = opc * 2 ^ 24 + arg := by
    simp only [opWord, BitVec.toNat_ofNat]; omega
  have h2 : 2 ^ lo * 2 ^ (24 - lo) = 2 ^ 24 := by rw [← pow_add]; congr 1; omega
  have h3 : 2 ^ (hi + 1 - lo) ∣ 2 ^ (24 - lo) := pow_dvd_pow 2 (by omega)
  obtain ⟨c, hc⟩ := h3
  rw [field, h1, ← h2, ← mul_assoc, mul_comm opc, mul_assoc, Nat.mul_add_div (by positivity), hc,
    mul_comm opc, mul_assoc, Nat.mul_add_mod]

/-- A word is its opcode and its argument. -/
theorem opWord_fields (w : Word) : opWord (field w 31 24) (field w 23 0) = w := by
  apply BitVec.eq_of_toNat_eq
  have := w.isLt
  simp only [field, opWord, BitVec.toNat_ofNat]; omega

theorem field_opc_lt (w : Word) : field w 31 24 < 256 := by
  simp only [field]; omega

theorem field_arg_lt (w : Word) : field w 23 0 < 2 ^ 24 := by
  simp only [field]; omega

/-- `ARG` split at bit 1 and at bit 12. -/
theorem field_arg_split1 (w : Word) : field w 23 0 = 2 * field w 23 1 + field w 0 0 := by
  simp only [field]; omega

theorem field_arg_split12 (w : Word) : field w 23 0 = 2 ^ 12 * field w 23 12 + field w 11 0 := by
  simp only [field]; omega

theorem field_bit_lt (w : Word) : field w 0 0 < 2 := by
  simp only [field]; omega

theorem field_off_lt (w : Word) : field w 11 0 < 2 ^ 12 := by
  simp only [field]; omega

/-- The command whose word `w` is. -/
theorem decodeCommand_opWord (c : Command) :
    ∃ w, encode c.toInstr = [w] ∧ decodeCommand w = .ok c ∧ field w 31 24 < 0x80 := by
  cases c with
  | construct al => cases al <;> exact ⟨_, rfl, by rfl, by decide⟩
  | _ => exact ⟨_, rfl, by rfl, by decide⟩

/-- What the command decoder can answer about `w`: an unknown opcode, a reserved bit, or the command whose word is `w`. -/
def CommandCases (w : Word) : Prop :=
  (field w 31 24 ∉ [0x00, 0x01, 0x02, 0x0F, 0x10, 0x11, 0x12, 0x13, 0x20] ∧ decodeCommand w = .error .illegalOpc) ∨
  (field w 31 24 ∈ [0x00, 0x01, 0x02, 0x0F, 0x10, 0x11, 0x12, 0x13, 0x20] ∧
    ((field w 31 24 = 0x01 ∧ field w 23 1 ≠ 0) ∨ (field w 31 24 ≠ 0x01 ∧ field w 23 0 ≠ 0)) ∧
    decodeCommand w = .error .reservedArg) ∨
  (field w 31 24 ∈ [0x00, 0x01, 0x02, 0x0F, 0x10, 0x11, 0x12, 0x13, 0x20] ∧
    ((field w 31 24 = 0x01 ∧ field w 23 1 = 0) ∨ (field w 31 24 ≠ 0x01 ∧ field w 23 0 = 0)) ∧
    ∃ c, decodeCommand w = .ok c ∧ encode c.toInstr = [w])

theorem commandCases_noArg {w : Word} {o : Nat} {c : Command} (ho : field w 31 24 = o)
    (hk : o ∈ [0x00, 0x01, 0x02, 0x0F, 0x10, 0x11, 0x12, 0x13, 0x20]) (h1 : o ≠ 0x01)
    (he : encode c.toInstr = [opWord o 0]) (hd : decodeCommand w = noArg w c) : CommandCases w := by
  subst ho
  by_cases ha : field w 23 0 = 0
  · have hw := opWord_fields w
    rw [ha] at hw
    exact .inr (.inr ⟨hk, .inr ⟨h1, ha⟩, c, by simp [hd, noArg, ha], by rw [he, hw]⟩)
  · exact .inr (.inl ⟨hk, .inr ⟨h1, ha⟩, by simp [hd, noArg, ha]⟩)

theorem commandCases_construct {w : Word} (ho : field w 31 24 = 0x01) : CommandCases w := by
  have hk : field w 31 24 ∈ [0x00, 0x01, 0x02, 0x0F, 0x10, 0x11, 0x12, 0x13, 0x20] := by simp [ho]
  have hw := opWord_fields w
  have hs := field_arg_split1 w
  have hb := field_bit_lt w
  by_cases ha : field w 23 1 = 0
  · refine .inr (.inr ⟨hk, .inl ⟨ho, ha⟩, .construct (field w 0 0 == 1), by simp [decodeCommand, ho, ha], ?_⟩)
    rw [ha] at hs
    rw [ho, hs] at hw
    have h01 : field w 0 0 = 0 ∨ field w 0 0 = 1 := by omega
    rcases h01 with h | h <;> rw [h] at hw ⊢ <;> simpa [Command.toInstr, encode] using hw
  · exact .inr (.inl ⟨hk, .inl ⟨ho, ha⟩, by simp [decodeCommand, ho, ha]⟩)

/-- Everything the command decoder answers. -/
theorem decodeCommand_cases (w : Word) : CommandCases w := by
  by_cases hk : field w 31 24 ∈ [0x00, 0x01, 0x02, 0x0F, 0x10, 0x11, 0x12, 0x13, 0x20]
  · have hk' := hk
    simp only [List.mem_cons, List.not_mem_nil, or_false] at hk'
    rcases hk' with h | h | h | h | h | h | h | h | h
    · exact commandCases_noArg (c := .nop) h (by decide) (by decide) rfl (by simp [decodeCommand, h])
    · exact commandCases_construct h
    · exact commandCases_noArg (c := .dispose) h (by decide) (by decide) rfl (by simp [decodeCommand, h])
    · exact commandCases_noArg (c := .clrerr) h (by decide) (by decide) rfl (by simp [decodeCommand, h])
    · exact commandCases_noArg (c := .decode) h (by decide) (by decide) rfl (by simp [decodeCommand, h])
    · exact commandCases_noArg (c := .isrepeat) h (by decide) (by decide) rfl (by simp [decodeCommand, h])
    · exact commandCases_noArg (c := .encode) h (by decide) (by decide) rfl (by simp [decodeCommand, h])
    · exact commandCases_noArg (c := .snap) h (by decide) (by decide) rfl (by simp [decodeCommand, h])
    · exact commandCases_noArg (c := .send) h (by decide) (by decide) rfl (by simp [decodeCommand, h])
  · refine .inl ⟨hk, ?_⟩
    simp only [List.mem_cons, List.not_mem_nil, or_false, not_or] at hk
    unfold decodeCommand
    split <;> first | rfl | (exfalso; omega)

theorem commandItem_ok {w : Word} {c : Command} (h : decodeCommand w = .ok c) : commandItem w = c.toInstr := by
  simp [commandItem, h]

theorem commandItem_error {w : Word} {e : CmdError} (h : decodeCommand w = .error e) : commandItem w = .wr 0x000 w := by
  simp [commandItem, h]

theorem decodeItem_command {w : Word} (h : field w 31 24 < 0x80) (rest : List Word) :
    decodeItem (w :: rest) = .item (commandItem w) 1 := by
  simp [decodeItem, h]

theorem decodeItem_encode_command (c : Command) (rest : List Word) :
    decodeItem (encode c.toInstr ++ rest) = .item c.toInstr (encode c.toInstr).length := by
  obtain ⟨w, hw, hd, ho⟩ := decodeCommand_opWord c
  rw [hw]
  simp [decodeItem_command ho, commandItem_ok hd]

end Sys2Proof

namespace Sys2Proof.Machine

/-! ### Clamp, windows, saturation, distance -/

theorem clamp_eq (v : Nat) : clamp v minPulseUs maxPulseUs = max 50 (min v 250000) := by
  unfold clamp minPulseUs maxPulseUs
  split
  · omega
  · split <;> omega

theorem inWin_iff (d : Nat) (w : Window) : inWin d w = true ↔ w.lo ≤ d ∧ d ≤ w.hi := by simp [inWin]

theorem satInc_toNat (v : Word) : (satInc v).toNat = min (v.toNat + 1) (2 ^ 32 - 1) := by
  have := v.isLt
  simp only [satInc]; split_ifs <;> simp only [BitVec.toNat_ofNat] <;> omega

theorem absDiff_self (a : Nat) : absDiff a a = 0 := by simp [absDiff]

theorem absDiff_comm (a b : Nat) : absDiff a b = absDiff b a := by simp [absDiff, Nat.add_comm]

/-! ### Pulses -/

@[simp] theorem pulseOf_level (l : Bool) (d : Nat) : (pulseOf l d).level = l := rfl

theorem pulseOf_us {l : Bool} {d : Nat} (h : d < 2 ^ 31) : (pulseOf l d).us = d := by
  simp only [pulseOf, Pulse.us, BitVec.toNat_ofNat]; omega

theorem Pulse.us_lt (p : Pulse) : p.us < 2 ^ 31 := p.dur.isLt

theorem Pulse.ext_us {p q : Pulse} (hl : p.level = q.level) (hu : p.us = q.us) : p = q := by
  cases p; cases q; simp only [Pulse.us] at hu; simp only [Pulse.mk.injEq]
  exact ⟨hl, BitVec.eq_of_toNat_eq hu⟩

theorem eq_pulseOf {p : Pulse} {l : Bool} {d : Nat} (hl : p.level = l) (hu : p.us = d) (hd : d < 2 ^ 31) :
    p = pulseOf l d := Pulse.ext_us hl (by rw [pulseOf_us hd, hu])

theorem Pulse.toWord_toNat (p : Pulse) : p.toWord.toNat = p.level.toNat * 2 ^ 31 + p.us := by
  have := p.dur.isLt
  simp only [Pulse.toWord, Pulse.us, BitVec.toNat_cast, BitVec.toNat_append, BitVec.toNat_ofBool]
  rw [Nat.shiftLeft_eq, Nat.mul_comm, ← Nat.two_pow_add_eq_or_of_lt this, Nat.mul_comm]

theorem Pulse.ofWord_us (w : Word) : (Pulse.ofWord w).us = w.toNat % 2 ^ 31 := by
  simp [Pulse.ofWord, Pulse.us, BitVec.toNat_setWidth]

theorem Pulse.ofWord_level (w : Word) : (Pulse.ofWord w).level = w.getLsbD 31 := rfl

/-- Bit 31 of a word as arithmetic. -/
theorem getLsbD_31 (w : Word) : w.getLsbD 31 = decide (2 ^ 31 ≤ w.toNat) := by
  have := w.isLt
  rw [BitVec.getLsbD, Nat.testBit_eq_decide_div_mod_eq]
  apply decide_eq_decide.mpr; omega

theorem Pulse.toWord_level (p : Pulse) : p.toWord.getLsbD 31 = p.level := by
  have h := p.us_lt
  rw [getLsbD_31, p.toWord_toNat]
  cases p.level <;> simp; omega

theorem Pulse.toWord_us (p : Pulse) : p.toWord.toNat % 2 ^ 31 = p.us := by
  have h := p.us_lt
  rw [p.toWord_toNat]; omega

/-- Every word is the pulse word of exactly one pulse (10_state.md R21). -/
@[simp] theorem Pulse.ofWord_toWord (p : Pulse) : Pulse.ofWord p.toWord = p :=
  Pulse.ext_us (by rw [Pulse.ofWord_level, p.toWord_level]) (by rw [Pulse.ofWord_us, p.toWord_us])

@[simp] theorem Pulse.toWord_ofWord (w : Word) : (Pulse.ofWord w).toWord = w := by
  apply BitVec.eq_of_toNat_eq
  have := w.isLt
  rw [Pulse.toWord_toNat, Pulse.ofWord_us, Pulse.ofWord_level, getLsbD_31]
  by_cases h : 2 ^ 31 ≤ w.toNat
  · rw [decide_eq_true h]; simp only [Bool.toNat_true]; omega
  · rw [decide_eq_false h]; simp only [Bool.toNat_false]; omega

end Sys2Proof.Machine
end

