-- ==== Sys2Proof/Laws/Access.lean ====
section
/-! SUPPORT. The register window: offsets and registers correspond one to one, and what an access can do. -/

namespace Sys2Proof.Machine

theorem regOfIndex_offset (r : Reg) : regOfIndex (r.offset / 4) = some r := by
  cases r with
  | cset i =>
    have hi := i.isLt
    simp only [Reg.offset]
    unfold regOfIndex
    rw [dif_pos (by omega)]
    exact congrArg (some ∘ Reg.cset) (Fin.ext (by simp only []; omega))
  | wbuf i =>
    have hi := i.isLt
    simp only [Reg.offset]
    unfold regOfIndex
    rw [dif_neg (by omega), dif_pos (by omega)]
    exact congrArg (some ∘ Reg.wbuf) (Fin.ext (by simp only []; omega))
  | cbuf i =>
    have hi := i.isLt
    simp only [Reg.offset]
    unfold regOfIndex
    rw [dif_neg (by omega), dif_neg (by omega), dif_pos (by omega)]
    exact congrArg (some ∘ Reg.cbuf) (Fin.ext (by simp only []; omega))
  | _ => rfl

theorem offset_mod (r : Reg) : r.offset % 4 = 0 := by cases r <;> simp only [Reg.offset] <;> omega

/-- The register at a register's offset. -/
theorem regAt_offset (r : Reg) : regAt r.offset = .ok r := by
  simp [regAt, offset_mod, regOfIndex_offset]

theorem regOfIndex_some {k : Nat} {r : Reg} (h : regOfIndex k = some r) : r.offset = 4 * k := by
  unfold regOfIndex at h
  split at h
  · cases h; simp only [Reg.offset]; omega
  · split at h
    · cases h; simp only [Reg.offset]; omega
    · split at h
      · cases h; simp only [Reg.offset]; omega
      · have hk : k < 16 := (List.getElem?_eq_some_iff.mp h).1
        interval_cases k <;> cases h <;> rfl

/-- A register is at no other offset than its own. -/
theorem offset_of_regAt {off : Nat} {r : Reg} (h : regAt off = .ok r) : r.offset = off := by
  unfold regAt at h
  split at h
  · cases h
  · split at h
    · rename_i r' hr
      cases h
      have := regOfIndex_some hr
      omega
    · cases h

theorem regAt_ok_iff {off : Nat} {r : Reg} : regAt off = .ok r ↔ r.offset = off :=
  ⟨offset_of_regAt, fun h => h ▸ regAt_offset r⟩

theorem regAt_misaligned {off : Nat} (h : off % 4 ≠ 0) : regAt off = .error .misaligned := by simp [regAt, h]

theorem regAt_unmapped {off : Nat} (h : off % 4 = 0) (hu : (0x080 ≤ off ∧ off < 0x200) ∨ 0x600 ≤ off) :
    regAt off = .error .unmapped := by
  have hk : regOfIndex (off / 4) = none := by
    unfold regOfIndex
    rw [dif_neg (by omega), dif_neg (by omega), dif_neg (by omega), List.getElem?_eq_none_iff]
    simp only [fixedRegs, List.length_cons, List.length_nil]; omega
  simp [regAt, h, hk]

/-- The register at a mapped aligned offset, by range. -/
theorem regAt_fixed {off : Nat} (h : off % 4 = 0) (hf : off < 0x040) :
    ∃ r, regAt off = .ok r ∧ fixedRegs[off / 4]? = some r := by
  have hk : off / 4 < fixedRegs.length := by simp only [fixedRegs, List.length_cons, List.length_nil]; omega
  refine ⟨fixedRegs[off / 4], ?_, List.getElem?_eq_getElem hk⟩
  have : regOfIndex (off / 4) = some fixedRegs[off / 4] := by
    unfold regOfIndex
    rw [dif_neg (by omega), dif_neg (by omega), dif_neg (by omega)]
    exact List.getElem?_eq_getElem hk
  simp [regAt, h, this]

theorem regAt_cset {off : Nat} (h : off % 4 = 0) (h1 : 0x040 ≤ off) (h2 : off < 0x080) :
    ∃ i : Fin 16, off = 0x040 + 4 * i ∧ regAt off = .ok (.cset i) :=
  ⟨⟨(off - 0x040) / 4, by omega⟩, by simp only []; omega, by
    rw [regAt_ok_iff]; simp only [Reg.offset]; omega⟩

theorem regAt_wbuf {off : Nat} (h : off % 4 = 0) (h1 : 0x200 ≤ off) (h2 : off < 0x400) :
    ∃ i : Fin 128, off = 0x200 + 4 * i ∧ regAt off = .ok (.wbuf i) :=
  ⟨⟨(off - 0x200) / 4, by omega⟩, by simp only []; omega, by
    rw [regAt_ok_iff]; simp only [Reg.offset]; omega⟩

theorem regAt_cbuf {off : Nat} (h : off % 4 = 0) (h1 : 0x400 ≤ off) (h2 : off < 0x600) :
    ∃ i : Fin 128, off = 0x400 + 4 * i ∧ regAt off = .ok (.cbuf i) :=
  ⟨⟨(off - 0x400) / 4, by omega⟩, by simp only []; omega, by
    rw [regAt_ok_iff]; simp only [Reg.offset]; omega⟩

/-- A mapped byte of the window is a byte of the register whose word holds it. -/
theorem windowByte_reg (r : Reg) (k : Nat) (hk : k < 4) (s : State) :
    windowByte (r.offset + k) s = some (byteOf (readReg r s) k) := by
  have hm := offset_mod r
  have h1 : (r.offset + k) / 4 * 4 = r.offset := by omega
  have h2 : (r.offset + k) % 4 = k := by omega
  simp [windowByte, h1, h2, regAt_offset]

/-- A window byte reads the same in two states where the register that holds it does. -/
theorem windowByte_congr {a : Nat} {s t : State}
    (h : ∀ r : Reg, r.offset ≤ a → a < r.offset + 4 → readReg r t = readReg r s) :
    windowByte a t = windowByte a s := by
  unfold windowByte
  cases hr : regAt (a / 4 * 4) with
  | error c => rfl
  | ok r =>
    have := offset_of_regAt hr
    simp only []
    rw [h r (by omega) (by omega)]

theorem byteOf_eq (w : Word) (k : Nat) : byteOf w k = BitVec.ofNat 8 (w.toNat / 2 ^ (8 * k)) := by
  apply BitVec.eq_of_toNat_eq
  simp [byteOf, BitVec.extractLsb'_toNat, Nat.shiftRight_eq_div_pow]

/-! ### What a host access can do -/

theorem execWr_ok {off : Nat} {r : Reg} (h : regAt off = .ok r) (data : Word) (s : State) :
    execWr off data s = writeReg r data s := by simp [execWr, h]

theorem execWr_error {off : Nat} {c : BusCause} (h : regAt off = .error c) (data : Word) (s : State) :
    execWr off data s = .next (busError c s) := by simp [execWr, h]

theorem execRd_ok {off : Nat} {r : Reg} (h : regAt off = .ok r) (s : State) :
    execRd off s = .next (logRead (readReg r s) s) := by simp [execRd, h]

theorem execRd_error {off : Nat} {c : BusCause} (h : regAt off = .error c) (s : State) :
    execRd off s = .next (busError c s) := by simp [execRd, h]

/-- Every command completes. -/
theorem runCommand_next (c : Command) (s : State) : ∃ t, runCommand c s = .next t := by
  cases c <;> simp only [runCommand, execNop, execConstruct, execDispose, execClrerr, execIsrepeat, execEncode,
    execSend, Host.Outcome.next.injEq, exists_eq']
  · unfold execDecode; split <;> exact ⟨_, rfl⟩
  · unfold execSnap; split <;> exact ⟨_, rfl⟩

theorem execCmd_next (w : Word) (s : State) : ∃ t, execCmd w s = .next t := by
  unfold execCmd
  split
  · exact ⟨_, rfl⟩
  · exact runCommand_next _ s

/-- Every write to a register completes, -/
theorem writeReg_next (r : Reg) (data : Word) (s : State) : ∃ t, writeReg r data s = .next t := by
  cases r <;> simp only [writeReg] <;> first | exact execCmd_next _ _ | exact ⟨_, rfl⟩

/-- one to a register the host may not write as a bus error. -/
theorem writeReg_readOnly {r : Reg} (h : r.writable = false) (data : Word) (s : State) :
    writeReg r data s = .next (busError .readOnly s) := by
  cases r <;> simp only [Reg.writable, Bool.true_eq_false] at h <;> rfl

end Sys2Proof.Machine
end

