-- ==== Sys2Proof/Laws/Codec.lean ====
section
/-! SUPPORT. The codec's functions: scanning, collecting, packing, the encoded train; the work buffer; the nearest
duration. -/

namespace Sys2Proof.Machine

/-! ### Scanning -/

/-- What a forward scan finds: the first pulse that satisfies `p`, and everything after it. -/
theorem afterFirst_some {p : Pulse → Bool} {t rest : Train} :
    afterFirst p t = some rest ↔
      ∃ a x, t[a]? = some x ∧ p x = true ∧ (∀ i < a, ∀ y, t[i]? = some y → p y = false) ∧ rest = t.drop (a + 1) := by
  induction t with
  | nil => simp [afterFirst]
  | cons y t ih =>
    unfold afterFirst
    by_cases hy : p y = true
    · rw [if_pos hy]
      constructor
      · intro h; cases h
        exact ⟨0, y, rfl, hy, fun i hi => absurd hi (by omega), rfl⟩
      · rintro ⟨a, x, hx, hp, hmin, rfl⟩
        cases a with
        | zero => rfl
        | succ a =>
          have := hmin 0 (by omega) y rfl
          rw [this] at hy; cases hy
    · rw [if_neg hy, ih]
      constructor
      · rintro ⟨a, x, hx, hp, hmin, rfl⟩
        refine ⟨a + 1, x, hx, hp, fun i hi z hz => ?_, rfl⟩
        cases i with
        | zero =>
          have : y = z := by simpa using hz
          subst this; simpa using hy
        | succ i => exact hmin i (by omega) z hz
      · rintro ⟨a, x, hx, hp, hmin, rfl⟩
        cases a with
        | zero =>
          have : y = x := by simpa using hx
          subst this; exact absurd hp hy
        | succ a => exact ⟨a, x, hx, hp, fun i hi z hz => hmin (i + 1) (by omega) z hz, rfl⟩

theorem isMarkIn_iff (p : Pulse) (w : Window) :
    p.isMarkIn w = true ↔ p.level = true ∧ w.lo ≤ p.us ∧ p.us ≤ w.hi := by
  simp [Pulse.isMarkIn, inWin]

theorem isSpaceIn_iff (p : Pulse) (w : Window) :
    p.isSpaceIn w = true ↔ p.level = false ∧ w.lo ≤ p.us ∧ p.us ≤ w.hi := by
  simp [Pulse.isSpaceIn, inWin]

/-! ### Collecting bits -/

/-- A pair that is a bit. -/
theorem pairBit_some {long : Window} {m s : Pulse} {b : Bool} :
    pairBit long m s = some b ↔
      m.isMarkIn shortWin = true ∧
        ((s.isSpaceIn long = true ∧ b = true) ∨
          (s.isSpaceIn long = false ∧ s.isSpaceIn shortWin = true ∧ b = false)) := by
  unfold pairBit
  cases m.isMarkIn shortWin <;> cases s.isSpaceIn long <;> cases s.isSpaceIn shortWin <;> simp [eq_comm]

/-- Collecting `n` bits reads `n` whole pairs. -/
theorem collectBits_some {long : Window} {n : Nat} {t : Train} {bits : List Bool} :
    (collectBits long n t = some bits ∧ bits.length = n) ↔
      (bits.length = n ∧ ∀ k < n, ∃ m s b, t[2 * k]? = some m ∧ t[2 * k + 1]? = some s ∧ bits[k]? = some b ∧
        pairBit long m s = some b) := by
  induction n generalizing t bits with
  | zero =>
    constructor
    · rintro ⟨_, h⟩; exact ⟨h, fun k hk => absurd hk (by omega)⟩
    · rintro ⟨h, _⟩; exact ⟨by rw [List.length_eq_zero_iff.mp h]; rfl, h⟩
  | succ n ih =>
    rcases t with _ | ⟨m, _ | ⟨s, rest⟩⟩
    · simp only [collectBits]
      constructor
      · rintro ⟨h, hl⟩; cases h; cases hl
      · rintro ⟨_, h⟩; obtain ⟨m, s, b, hm, _⟩ := h 0 (by omega); simp at hm
    · simp only [collectBits]
      constructor
      · rintro ⟨h, hl⟩; cases h; cases hl
      · rintro ⟨_, h⟩; obtain ⟨m', s, b, hm, hs, _⟩ := h 0 (by omega); simp at hs
    · simp only [collectBits]
      constructor
      · rintro ⟨h, hl⟩
        split at h
        · cases h
        · rename_i b hb
          obtain ⟨bs, hbs, rfl⟩ := Option.map_eq_some_iff.mp h
          have hl' : bs.length = n := by simpa using hl
          have := (ih (t := rest) (bits := bs)).mp ⟨hbs, hl'⟩
          refine ⟨hl, fun k hk => ?_⟩
          cases k with
          | zero => exact ⟨m, s, b, rfl, rfl, rfl, hb⟩
          | succ k =>
            obtain ⟨m', s', b', h1, h2, h3, h4⟩ := this.2 k (by omega)
            refine ⟨m', s', b', ?_, ?_, ?_, h4⟩
            · rw [show 2 * (k + 1) = 2 * k + 1 + 1 by omega]; simpa using h1
            · rw [show 2 * (k + 1) + 1 = 2 * k + 1 + 1 + 1 by omega]; simpa using h2
            · simpa using h3
      · rintro ⟨hl, h⟩
        obtain ⟨m', s', b, h1, h2, h3, h4⟩ := h 0 (by omega)
        rw [Nat.mul_zero] at h1 h2
        cases h1; cases h2
        rw [h4]
        rcases bits with _ | ⟨b', bs⟩
        · cases hl
        · cases h3
          refine ⟨?_, hl⟩
          have := (ih (t := rest) (bits := bs)).mpr ⟨by simpa using hl, fun k hk => ?_⟩
          · simp [this.1]
          · obtain ⟨m', s', b', h1, h2, h3, h4⟩ := h (k + 1) (by omega)
            refine ⟨m', s', b', ?_, ?_, ?_, h4⟩
            · rw [show 2 * (k + 1) = 2 * k + 1 + 1 by omega] at h1; simpa using h1
            · rw [show 2 * (k + 1) + 1 = 2 * k + 1 + 1 + 1 by omega] at h2; simpa using h2
            · simpa using h3

/-! ### Packing -/

/-- The number a list of bits spells, first bit most significant. -/
def bitsNat (bits : List Bool) : Nat := bits.foldl (fun acc b => 2 * acc + b.toNat) 0

theorem bitsNat_append (bits : List Bool) (b : Bool) : bitsNat (bits ++ [b]) = 2 * bitsNat bits + b.toNat := by
  simp [bitsNat]

theorem bitsNat_testBit (bits : List Bool) (j : Nat) :
    (bitsNat bits).testBit j = if j < bits.length then bits[bits.length - 1 - j]?.getD false else false := by
  induction bits using List.reverseRecOn generalizing j with
  | nil => simp [bitsNat]
  | append_singleton bits b ih =>
    rw [bitsNat_append]
    cases j with
    | zero => cases b <;> simp [Nat.testBit_zero]
    | succ j =>
      have hdiv : (2 * bitsNat bits + b.toNat) / 2 = bitsNat bits := by
        cases b <;> simp only [Bool.toNat_true, Bool.toNat_false] <;> omega
      rw [Nat.testBit_succ, hdiv, ih]
      by_cases hj : j < bits.length
      · have h1 : bits.length + 1 - 1 - (j + 1) = bits.length - 1 - j := by omega
        have h2 : bits.length - 1 - j < bits.length := by omega
        have h3 : j + 1 < (bits ++ [b]).length := by simp; omega
        rw [if_pos hj, if_pos h3, List.length_append, List.length_singleton, h1, List.getElem?_append_left h2]
      · simp [hj]

theorem packBits_getLsbD {bits : List Bool} (h : bits.length = 32) {k : Nat} (hk : k < 32) :
    (packBits bits).getLsbD (31 - k) = bits[k]?.getD false := by
  have hp : packBits bits = BitVec.ofNat 32 (bitsNat bits) := rfl
  rw [hp, BitVec.getLsbD_ofNat, bitsNat_testBit, h]
  have h1 : 31 - k < 32 := by omega
  have h2 : 32 - 1 - (31 - k) = k := by omega
  simp [h1, h2]

/-- Two words with the same bits from 31 down are equal. -/
theorem word_ext {a b : Word} (h : ∀ k < 32, a.getLsbD (31 - k) = b.getLsbD (31 - k)) : a = b := by
  apply BitVec.eq_of_getLsbD_eq
  intro i hi
  have := h (31 - i) (by omega)
  rwa [show 31 - (31 - i) = i by omega] at this

/-! ### The encoded train -/

theorem payloadBitsOf_length (p : Word) : (payloadBitsOf p).length = 32 := by simp [payloadBitsOf, payloadBits]

theorem payloadBitsOf_get (p : Word) {k : Nat} (hk : k < 32) : (payloadBitsOf p)[k]? = some (p.getLsbD (31 - k)) := by
  simp [payloadBitsOf, payloadBits, hk]

theorem packBits_payloadBitsOf (p : Word) : packBits (payloadBitsOf p) = p :=
  word_ext fun k hk => by rw [packBits_getLsbD (payloadBitsOf_length p) hk, payloadBitsOf_get p hk]; rfl

/-- The space of a bit. -/
def bitSpace (b : Bool) : Pulse := pulseOf false (if b then encLongUs else encShortUs)

/-- The mark of a bit, and the stop mark. -/
def shortMark : Pulse := pulseOf true encShortUs

theorem bitPulses_eq (b : Bool) : bitPulses b = [shortMark, bitSpace b] := rfl

/-- The encoded train as a list: leader, header, the pairs, the stop mark. -/
theorem encodeTrain_eq (p : Word) :
    encodeTrain p = pulseOf true 9000 :: pulseOf false 4500 :: ((payloadBitsOf p).flatMap bitPulses ++ [shortMark]) := rfl

theorem flatMap_bitPulses_length (bits : List Bool) : (bits.flatMap bitPulses).length = 2 * bits.length := by
  induction bits with
  | nil => rfl
  | cons b bits ih => rw [List.flatMap_cons, List.length_append, ih, bitPulses_eq]; simp; omega

/-- The pair of bit `k` in the pairs. -/
theorem flatMap_bitPulses_get {bits : List Bool} {k : Nat} {b : Bool} (h : bits[k]? = some b) (tail : Train) :
    (bits.flatMap bitPulses ++ tail)[2 * k]? = some shortMark ∧
    (bits.flatMap bitPulses ++ tail)[2 * k + 1]? = some (bitSpace b) := by
  induction bits generalizing k with
  | nil => simp at h
  | cons b' bits ih =>
    rw [List.flatMap_cons, bitPulses_eq]
    cases k with
    | zero => cases h; exact ⟨rfl, rfl⟩
    | succ k =>
      have := ih (k := k) (by simpa using h)
      rw [show 2 * (k + 1) = 2 * k + 1 + 1 by omega]
      exact ⟨by simpa using this.1, by simpa using this.2⟩

theorem encodeTrain_length (p : Word) : (encodeTrain p).length = 67 := by
  rw [encodeTrain_eq, List.length_cons, List.length_cons, List.length_append, flatMap_bitPulses_length,
    payloadBitsOf_length]
  rfl

/-- The pulses of an encoded train by index (42_nec_encoder.md R162). -/
theorem encodeTrain_get (p : Word) :
    (encodeTrain p)[0]? = some (pulseOf true 9000) ∧ (encodeTrain p)[1]? = some (pulseOf false 4500) ∧
    (encodeTrain p)[66]? = some shortMark ∧
    ∀ k < 32, (encodeTrain p)[2 + 2 * k]? = some shortMark ∧
      (encodeTrain p)[3 + 2 * k]? = some (bitSpace (p.getLsbD (31 - k))) := by
  refine ⟨rfl, rfl, ?_, fun k hk => ?_⟩
  · rw [encodeTrain_eq]
    have hl : ((payloadBitsOf p).flatMap bitPulses).length = 64 := by
      rw [flatMap_bitPulses_length, payloadBitsOf_length]
    rw [List.getElem?_cons_succ, List.getElem?_cons_succ, ← hl, List.getElem?_concat_length]
  · have := flatMap_bitPulses_get (payloadBitsOf_get p hk) [shortMark]
    rw [encodeTrain_eq, show 2 + 2 * k = 2 * k + 1 + 1 by omega, show 3 + 2 * k = 2 * k + 1 + 1 + 1 by omega]
    exact ⟨by simpa using this.1, by simpa using this.2⟩

theorem encodeTrain_getLast (p : Word) : (encodeTrain p).getLast? = some shortMark := by
  rw [encodeTrain_eq]; simp [List.getLast?_cons]

/-! ### Decoding -/

/-- What `decode` answers, in terms of its steps. -/
theorem decodeTrain_some {long : Window} {t : Train} {r : Word} :
    decodeTrain long t = some r ↔
      ∃ u v bits, afterLeader t = some u ∧ afterHeader u = some v ∧ stopBitOk t = true ∧
        collectBits long 32 v = some bits ∧ bits.length = 32 ∧ packBits bits = r := by
  unfold decodeTrain
  constructor
  · intro h
    split at h
    · cases h
    · rename_i v hv
      obtain ⟨u, hu, hv⟩ := Option.bind_eq_some_iff.mp hv
      split at h
      · cases h
      · rename_i hs
        split at h
        · cases h
        · rename_i bits hb
          split at h
          · rename_i hl
            exact ⟨u, v, bits, hu, hv, by simpa using hs, hb, hl, by simpa using h⟩
          · cases h
  · rintro ⟨u, v, bits, hu, hv, hs, hb, hl, rfl⟩
    rw [hu, Option.bind_some, hv]
    simp [hs, payloadBits, hb, hl]

/-! ### The work buffer -/

/-- An overlaid register file: the new values, then the old ones. -/
theorem overlay_get {α : Type} {n : Nat} (v : Vector α n) (xs : List α) (i : Nat) (h : i < n) :
    (overlay v xs)[i] = if hx : i < xs.length then xs[i] else v[i] := by
  have hv : v.toList.length = n := by simp
  simp only [overlay]
  rw [Vector.getElem_mk, List.getElem_toArray, List.getElem_take]
  split
  · rename_i hx; rw [List.getElem_append_left hx]
  · rename_i hx
    rw [List.getElem_append_right (by omega), List.getElem_drop]
    simp only [show xs.length + (i - xs.length) = i by omega]
    simp

theorem overlay_toList {α : Type} {n : Nat} (v : Vector α n) (xs : List α) (h : xs.length ≤ n) :
    (overlay v xs).toList = xs ++ v.toList.drop xs.length := by
  have : (overlay v xs).toList = (xs ++ v.toList.drop xs.length).take n := rfl
  rw [this, List.take_of_length_le]
  simp; omega

theorem workTrain_length (s : State) : s.workTrain.length = s.codec.wlen.val := by
  have := s.codec.wlen.isLt
  simp [State.workTrain]; omega

theorem workTrain_get (s : State) {i : Nat} (h : i < 128) (hw : i < s.codec.wlen.val) :
    s.workTrain[i]? = some (Pulse.ofWord s.codec.wbuf[i]) := by
  simp [State.workTrain, hw, h]

theorem canonSet_length (s : State) : s.canonSet.length = s.codec.clen.val := by
  have := s.codec.clen.isLt
  simp [State.canonSet]; omega

theorem mem_canonSet {s : State} {x : Nat} :
    x ∈ s.canonSet ↔ ∃ (j : Nat) (hj : j < 16), j < s.codec.clen.val ∧ s.codec.cset[j].toNat = x := by
  have hl : s.codec.cset.toList.length = 16 := by simp
  have ht : ∀ (j : Nat) (h : j < (s.codec.cset.toList.take s.codec.clen.val).length) (hj : j < 16),
      (s.codec.cset.toList.take s.codec.clen.val)[j] = s.codec.cset[j] := fun j h hj => by
    rw [List.getElem_take]; simp
  rw [State.canonSet, List.mem_map]
  constructor
  · rintro ⟨d, hd, rfl⟩
    obtain ⟨j, hj, rfl⟩ := List.mem_iff_getElem.mp hd
    have hj' := hj
    rw [List.length_take, hl] at hj'
    exact ⟨j, by omega, by omega, by rw [ht j hj (by omega)]⟩
  · rintro ⟨j, hj, hc, rfl⟩
    have hj' : j < (s.codec.cset.toList.take s.codec.clen.val).length := by rw [List.length_take, hl]; omega
    exact ⟨_, List.getElem_mem hj', by rw [ht j hj' hj]⟩

/-! ### The nearest duration -/

/-- `x` is at least as good a choice for `d` as `y`. -/
def Better (d x y : Nat) : Prop := absDiff x d ≤ absDiff y d ∧ (absDiff x d = absDiff y d → x ≤ y)

theorem Better.refl (d x : Nat) : Better d x x := ⟨le_refl _, fun _ => le_refl _⟩

theorem Better.trans {d x y z : Nat} (h : Better d x y) (h' : Better d y z) : Better d x z :=
  ⟨h.1.trans h'.1, fun he => (h.2 (by have := h.1; have := h'.1; omega)).trans
    (h'.2 (by have := h.1; have := h'.1; omega))⟩

theorem Better.antisymm {d x y : Nat} (h : Better d x y) (h' : Better d y x) : x = y := by
  have he := le_antisymm h.1 h'.1
  exact le_antisymm (h.2 he) (h'.2 he.symm)

theorem nearer_spec (d b c : Nat) :
    (nearer d b c = b ∨ nearer d b c = c) ∧ Better d (nearer d b c) b ∧ Better d (nearer d b c) c := by
  unfold nearer Better
  split_ifs <;> refine ⟨by simp, ⟨?_, ?_⟩, ⟨?_, ?_⟩⟩ <;> omega

/-- The nearest member: in the set, and at least as good as every other. -/
theorem nearest_spec (d c : Nat) (cs : List Nat) :
    nearest d c cs ∈ c :: cs ∧ ∀ x ∈ c :: cs, Better d (nearest d c cs) x := by
  unfold nearest
  induction cs generalizing c with
  | nil => exact ⟨by simp, fun x hx => by rw [List.mem_singleton.mp hx]; exact Better.refl _ _⟩
  | cons y ys ih =>
    rw [List.foldl_cons]
    obtain ⟨hm, hb⟩ := ih (nearer d c y)
    obtain ⟨he, h1, h2⟩ := nearer_spec d c y
    have h0 := hb _ (List.mem_cons_self ..)
    refine ⟨?_, fun x hx => ?_⟩
    · rcases List.mem_cons.mp hm with h | h
      · rw [h]; rcases he with h' | h' <;> rw [h'] <;> simp
      · simp [h]
    · rcases List.mem_cons.mp hx with rfl | hx
      · exact h0.trans h1
      · rcases List.mem_cons.mp hx with rfl | hx
        · exact h0.trans h2
        · exact hb x (List.mem_cons_of_mem _ hx)

/-- The nearest member is the only member as good as every other. -/
theorem nearest_unique {d c n : Nat} {cs : List Nat} (hn : n ∈ c :: cs) (hb : ∀ x ∈ c :: cs, Better d n x) :
    nearest d c cs = n :=
  ((nearest_spec d c cs).2 n hn).antisymm (hb _ (nearest_spec d c cs).1)

/-- A member is its own nearest. -/
theorem nearest_of_mem {d c : Nat} {cs : List Nat} (h : d ∈ c :: cs) : nearest d c cs = d :=
  nearest_unique h fun x _ => ⟨by rw [absDiff_self]; omega, fun he => by
    rw [absDiff_self] at he; unfold absDiff at he; omega⟩

end Sys2Proof.Machine
end

