-- ==== Sys2Proof/Laws/Engine.lean ====
section
/-! SUPPORT. The capture engine: what each of its operations can do, its invariant, the legality of what it emits and
the account of every pulse. -/

namespace Sys2Proof.Machine

/-- The condition of an idle flush (40_capture.md R116). -/
def Capture.FlushDue (c : Capture) : Prop :=
  c.constructed = true ∧ c.inIsr = false ∧ c.cbuf ≠ [] ∧ 5000 ≤ c.sinceEdge.toNat

/-- Everything the idle check can do. -/
theorem idleCheck_cases (e : Engine) :
    (e.cap.FlushDue ∧ idleCheck e = flush .idle e) ∨ (¬ e.cap.FlushDue ∧ idleCheck e = e) := by
  unfold idleCheck Capture.FlushDue idleGapUs
  cases hc : e.cap.constructed <;> cases hi : e.cap.inIsr <;> cases hb : e.cap.cbuf <;> simp
  by_cases h : 5000 ≤ e.cap.sinceEdge.toNat
  · simp [h]
  · simp [h]; omega

/-- Everything one microsecond does to a constructed engine: both timers advance, then the divider stands still, fires an
idle check, or counts. -/
theorem engineUsec_constructed {period : Nat} {e : Engine} (hc : e.cap.constructed = true) :
    ∃ e₁ : Engine,
      e₁ = { e with cap := { e.cap with ptimer := satInc e.cap.ptimer, sinceEdge := satInc e.cap.sinceEdge } } ∧
      ((period = 0 ∧ engineUsec period e = e₁) ∨
       (period ≠ 0 ∧ e.cap.tickCnt.toNat + 1 = period ∧
          engineUsec period e = idleCheck { e₁ with cap := { e₁.cap with tickCnt := 0 } }) ∨
       (period ≠ 0 ∧ e.cap.tickCnt.toNat + 1 ≠ period ∧
          engineUsec period e =
            { e₁ with cap := { e₁.cap with tickCnt := BitVec.ofNat 32 (e.cap.tickCnt.toNat + 1) } })) := by
  refine ⟨_, rfl, ?_⟩
  unfold engineUsec tickDivider
  rw [if_pos hc]
  by_cases hp : period = 0
  · exact .inl ⟨hp, by rw [if_pos hp]⟩
  · rw [if_neg hp]
    by_cases hf : e.cap.tickCnt.toNat + 1 = period
    · exact .inr (.inl ⟨hp, hf, by rw [if_pos hf]⟩)
    · exact .inr (.inr ⟨hp, hf, by rw [if_neg hf]⟩)

theorem engineUsec_unbuilt {period : Nat} {e : Engine} (hc : e.cap.constructed = false) :
    engineUsec period e = e := by simp [engineUsec, hc]

theorem edgeEvent_unbuilt {l : Bool} {e : Engine} (hc : e.cap.constructed = false) : edgeEvent l e = e := by
  simp [edgeEvent, hc]

theorem idleCheck_unbuilt {e : Engine} (hc : e.cap.constructed = false) : idleCheck e = e := by
  simp [idleCheck, hc]

/-- An engine step that changes nothing. -/
theorem onEngine_id {f : Engine → Engine} {s : State} (h : f ⟨s.capture, []⟩ = ⟨s.capture, []⟩) :
    onEngine f s = s := by
  simp [onEngine, h]

/-- The engine an edge leaves, whatever it stores. -/
def Capture.afterEdge (c : Capture) (buf : Train) : Capture :=
  { c with inIsr := false, ptimer := 0, sinceEdge := 0, cbuf := buf }

/-- The pulse an edge forms (40_capture.md R102, R104). -/
def Capture.endedPulse (c : Capture) (newLevel : Bool) : Pulse :=
  pulseOf ((!newLevel) ^^ c.activeLow) (max 50 (min c.ptimer.toNat 250000))

theorem Capture.endedPulse_us (c : Capture) (l : Bool) :
    (c.endedPulse l).us = max 50 (min c.ptimer.toNat 250000) := by
  unfold Capture.endedPulse
  exact pulseOf_us (by omega)

theorem Capture.endedPulse_eq {c : Capture} {l : Bool} {p : Pulse} (hl : p.level = ((!l) ^^ c.activeLow))
    (hu : p.us = max 50 (min c.ptimer.toNat 250000)) : p = c.endedPulse l :=
  Pulse.ext_us hl (by rw [hu, c.endedPulse_us])

/-- Everything an edge does to a constructed engine: store or not, flush at capacity or not. -/
theorem edgeEvent_constructed {l : Bool} {e : Engine} (hc : e.cap.constructed = true) :
    ∃ buf out, ((250000 ≤ e.cap.ptimer.toNat ∧ buf = e.cap.cbuf ∧ out = e.out) ∨
        (e.cap.ptimer.toNat < 250000 ∧ buf = e.cap.cbuf ++ [e.cap.endedPulse l] ∧
          out = e.out ++ [.pulse (e.cap.endedPulse l)])) ∧
      ((buf.length < 128 ∧ edgeEvent l e = ⟨e.cap.afterEdge buf, out⟩) ∨
       (128 ≤ buf.length ∧ edgeEvent l e = ⟨e.cap.afterEdge [], out ++ [.train buf .overflow]⟩)) := by
  have hd : clamp e.cap.ptimer.toNat minPulseUs maxPulseUs < maxPulseUs ↔ e.cap.ptimer.toNat < 250000 := by
    rw [clamp_eq]; unfold maxPulseUs; omega
  have hp : pulseOf (endedLevel l e.cap.activeLow) (clamp e.cap.ptimer.toNat minPulseUs maxPulseUs)
      = e.cap.endedPulse l := by rw [clamp_eq]; rfl
  have hcap : ∀ n, cbufCap ≤ n ↔ 128 ≤ n := fun _ => Iff.rfl
  unfold edgeEvent
  rw [if_pos hc]
  simp only [edgeHandler, hp, hd, hcap]
  by_cases hs : e.cap.ptimer.toNat < 250000
  · refine ⟨_, _, .inr ⟨hs, rfl, rfl⟩, ?_⟩
    simp only [hs, if_true]
    by_cases hb : 128 ≤ (e.cap.cbuf ++ [e.cap.endedPulse l]).length
    · exact .inr ⟨hb, by simp only [storePulse_cap, hb, if_true]; rfl⟩
    · exact .inl ⟨by omega, by simp only [storePulse_cap, hb, if_false]; rfl⟩
  · refine ⟨_, _, .inl ⟨by omega, rfl, rfl⟩, ?_⟩
    simp only [hs, if_false]
    by_cases hb : 128 ≤ e.cap.cbuf.length
    · exact .inr ⟨hb, by simp only [hb, if_true]; rfl⟩
    · exact .inl ⟨by omega, by simp only [hb, if_false]; rfl⟩

/-! ### The engine's invariant -/

/-- The clauses of `State.Inv` about the engine. -/
structure Capture.Inv (period : Nat) (c : Capture) : Prop where
  cbufLen : c.cbuf.length ≤ 127
  captured : ∀ p ∈ c.cbuf, p.captured = true
  inIsr : c.inIsr = false
  unbuilt : c.constructed = false → c.cbuf = []
  timers : c.constructed = true → c.ptimer = c.sinceEdge
  tickCnt : c.tickCnt.toNat < max period 1

theorem captured_iff (p : Pulse) : p.captured = true ↔ 50 ≤ p.us ∧ p.us ≤ 249999 := by
  simp [Pulse.captured]

theorem State.Inv.engine {s : State} (h : s.Inv) : s.capture.Inv s.params.tickPeriodUs where
  cbufLen := h.cbufLen
  captured := fun p hp => (captured_iff p).mpr (h.cbufCaptured p hp)
  inIsr := h.inIsr
  unbuilt := h.notConstructed
  timers := h.timersEqual
  tickCnt := h.tickCnt

/-- A legal outcome of an engine step: the invariant holds after, and everything emitted is legal. -/
def Engine.Good (period : Nat) (e : Engine) : Prop := e.cap.Inv period ∧ ∀ n ∈ e.out, n.legal = true

theorem idleCheck_good {period : Nat} {e : Engine} (h : e.Good period) : (idleCheck e).Good period := by
  rcases idleCheck_cases e with ⟨⟨hc, hi, hb, hs⟩, he⟩ | ⟨_, he⟩ <;> rw [he]
  · refine ⟨⟨by simp, by simp, hi, by simp, h.1.timers, h.1.tickCnt⟩, fun n hn => ?_⟩
    rw [flush_out, List.mem_append, List.mem_singleton] at hn
    rcases hn with hn | rfl
    · exact h.2 n hn
    · have h1 : 1 ≤ e.cap.cbuf.length := List.length_pos_iff.mpr hb
      simp only [Notification.legal, Bool.and_eq_true, decide_eq_true_eq, List.all_eq_true]
      exact ⟨⟨h1, h.1.cbufLen⟩, h.1.captured⟩
  · exact h

theorem edgeEvent_good {period : Nat} {l : Bool} {e : Engine} (h : e.Good period) : (edgeEvent l e).Good period := by
  cases hc : e.cap.constructed with
  | false => rw [edgeEvent_unbuilt hc]; exact h
  | true =>
    obtain ⟨buf, out, hbuf, hres⟩ := edgeEvent_constructed (l := l) hc
    have hlen : buf.length ≤ 128 ∧ (∀ p ∈ buf, p.captured = true) ∧ ∀ n ∈ out, n.legal = true := by
      have hl := h.1.cbufLen
      rcases hbuf with ⟨_, rfl, rfl⟩ | ⟨hp, rfl, rfl⟩
      · exact ⟨by omega, h.1.captured, h.2⟩
      · have hcap : (e.cap.endedPulse l).captured = true := by
          rw [captured_iff, Capture.endedPulse_us]; omega
        refine ⟨by simp; omega, fun p hp => ?_, fun n hn => ?_⟩
        · rcases List.mem_append.mp hp with hp | hp
          · exact h.1.captured p hp
          · rw [List.mem_singleton] at hp; rw [hp]; exact hcap
        · rcases List.mem_append.mp hn with hn | hn
          · exact h.2 n hn
          · rw [List.mem_singleton] at hn; rw [hn]; exact hcap
    rcases hres with ⟨hb, he⟩ | ⟨hb, he⟩ <;> rw [he]
    · exact ⟨⟨by simp only [Capture.afterEdge]; omega, hlen.2.1, rfl, fun hc' => absurd (hc'.symm.trans hc) (by simp),
        fun _ => rfl, h.1.tickCnt⟩, hlen.2.2⟩
    · refine ⟨⟨by simp [Capture.afterEdge], by simp [Capture.afterEdge], rfl, fun _ => rfl, fun _ => rfl,
        h.1.tickCnt⟩, fun n hn => ?_⟩
      rcases List.mem_append.mp hn with hn | hn
      · exact hlen.2.2 n hn
      · rw [List.mem_singleton] at hn; subst hn
        have : buf.length = 128 := by omega
        simpa [Notification.legal, this] using hlen.2.1

theorem engineUsec_good {period : Nat} {e : Engine} (hp : period ≤ 2 ^ 32) (h : e.Good period) :
    (engineUsec period e).Good period := by
  cases hc : e.cap.constructed with
  | false => rw [engineUsec_unbuilt hc]; exact h
  | true =>
    obtain ⟨e₁, he₁, hcases⟩ := engineUsec_constructed (period := period) hc
    have ht := h.1.timers hc
    have h₁ : e₁.Good period := by
      subst he₁
      exact ⟨⟨h.1.cbufLen, h.1.captured, h.1.inIsr, h.1.unbuilt, fun _ => by simp [ht], h.1.tickCnt⟩, h.2⟩
    rcases hcases with ⟨_, he⟩ | ⟨hp0, hf, he⟩ | ⟨hp0, hf, he⟩ <;> rw [he]
    · exact h₁
    · apply idleCheck_good
      exact ⟨⟨h₁.1.cbufLen, h₁.1.captured, h₁.1.inIsr, h₁.1.unbuilt, h₁.1.timers, by simp⟩, h₁.2⟩
    · refine ⟨⟨h₁.1.cbufLen, h₁.1.captured, h₁.1.inIsr, h₁.1.unbuilt, h₁.1.timers, ?_⟩, h₁.2⟩
      have := h.1.tickCnt
      simp only [BitVec.toNat_ofNat]; omega

/-! ### The account of every pulse (40_capture.md R114) -/

/-- The pulses before and newly notified are those newly sent in trains and those left. -/
def Accounts (before : Train) (e : Engine) : Prop :=
  before ++ notifiedPulses e.out = trainPulses e.out ++ e.cap.cbuf

theorem notifiedPulses_append (a b : List Notification) :
    notifiedPulses (a ++ b) = notifiedPulses a ++ notifiedPulses b := by simp [notifiedPulses]

theorem trainPulses_append (a b : List Notification) : trainPulses (a ++ b) = trainPulses a ++ trainPulses b := by
  simp [trainPulses]

theorem Accounts.start (c : Capture) : Accounts c.cbuf ⟨c, []⟩ := by simp [Accounts, notifiedPulses, trainPulses]

theorem Accounts.storePulse {b : Train} {e : Engine} (p : Pulse) (h : Accounts b e) :
    Accounts b (storePulse p e) := by
  unfold Accounts at *
  rw [storePulse_out, notifiedPulses_append, trainPulses_append, ← List.append_assoc, h]
  simp [notifiedPulses, trainPulses]

theorem Accounts.flush {b : Train} {e : Engine} (r : FlushReason) (h : Accounts b e) : Accounts b (flush r e) := by
  unfold Accounts at *
  rw [flush_out, notifiedPulses_append, trainPulses_append, ← List.append_assoc, h]
  simp [notifiedPulses, trainPulses]

/-- An account looks only at the buffer and what was emitted. -/
theorem Accounts.congr {b : Train} {e e' : Engine} (hb : e'.cap.cbuf = e.cap.cbuf) (ho : e'.out = e.out)
    (h : Accounts b e) : Accounts b e' := by unfold Accounts at *; rw [hb, ho]; exact h

theorem idleCheck_accounts {b : Train} {e : Engine} (h : Accounts b e) : Accounts b (idleCheck e) := by
  rcases idleCheck_cases e with ⟨_, he⟩ | ⟨_, he⟩ <;> rw [he]
  · exact h.flush _
  · exact h

theorem edgeEvent_accounts {b : Train} {l : Bool} {e : Engine} (h : Accounts b e) : Accounts b (edgeEvent l e) := by
  cases hc : e.cap.constructed with
  | false => rw [edgeEvent_unbuilt hc]; exact h
  | true =>
    obtain ⟨buf, out, hbuf, hres⟩ := edgeEvent_constructed (l := l) hc
    have h₁ : Accounts b ⟨e.cap.afterEdge buf, out⟩ := by
      rcases hbuf with ⟨_, rfl, rfl⟩ | ⟨_, rfl, rfl⟩
      · exact h.congr rfl rfl
      · exact (h.storePulse (e.cap.endedPulse l)).congr rfl rfl
    rcases hres with ⟨_, he⟩ | ⟨_, he⟩ <;> rw [he]
    · exact h₁
    · exact (h₁.flush .overflow).congr rfl rfl

theorem engineUsec_accounts {b : Train} {period : Nat} {e : Engine} (h : Accounts b e) :
    Accounts b (engineUsec period e) := by
  cases hc : e.cap.constructed with
  | false => rw [engineUsec_unbuilt hc]; exact h
  | true =>
    obtain ⟨e₁, rfl, hcases⟩ := engineUsec_constructed (period := period) hc
    rcases hcases with ⟨_, he⟩ | ⟨_, _, he⟩ | ⟨_, _, he⟩ <;> rw [he]
    · exact h.congr rfl rfl
    · exact idleCheck_accounts (h.congr rfl rfl)
    · exact h.congr rfl rfl

end Sys2Proof.Machine
end

