-- ==== Sys2Proof/Laws/Time.lean ====
section
/-! SUPPORT. Time: `USEC n` as `n` microseconds, what it leaves alone, and sequences of operations. -/

namespace Sys2Proof.Machine

theorem usecMany_add (a b : Nat) (s : State) : usecMany (a + b) s = usecMany b (usecMany a s) := by
  induction a generalizing s with
  | zero => simp [usecMany]
  | succ a ih => rw [Nat.succ_add]; exact ih (usecOne s)

/-- One microsecond changes nothing in a timeless state. -/
theorem usecOne_of_timeless {s : State} (h : s.timeless = true) : usecOne s = s := by
  simp only [State.timeless, Bool.and_eq_true, Bool.not_eq_true'] at h
  simp [usecOne, usecCapture, onEngine, engineUsec, usecTx, txUsec, h.1, h.2]

theorem usecMany_of_timeless {s : State} (h : s.timeless = true) (n : Nat) : usecMany n s = s := by
  induction n with
  | zero => rfl
  | succ n ih => rw [usecMany, usecOne_of_timeless h, ih]

/-- `USEC n` is `n` microseconds, in every state. -/
theorem execUsec_eq (n : Nat) (s : State) : execUsec n s = .next (usecMany n s) := by
  unfold execUsec
  split
  · rename_i h; rw [usecMany_of_timeless h]
  · rfl

theorem exec_usec (n : Nat) (s : State) : exec (.usec n) s = .next (usecMany n s) := execUsec_eq n s

@[simp] theorem usecMany_codec (n : Nat) (s : State) : (usecMany n s).codec = s.codec := by
  induction n generalizing s with
  | zero => rfl
  | succ n ih => rw [usecMany, ih, usecOne_codec]

@[simp] theorem usecMany_err (n : Nat) (s : State) : (usecMany n s).err = s.err := by
  induction n generalizing s with
  | zero => rfl
  | succ n ih => rw [usecMany, ih, usecOne_err]

@[simp] theorem usecMany_params (n : Nat) (s : State) : (usecMany n s).params = s.params := by
  induction n generalizing s with
  | zero => rfl
  | succ n ih => rw [usecMany, ih, usecOne_params]

@[simp] theorem usecMany_harness (n : Nat) (s : State) : (usecMany n s).harness = s.harness := by
  induction n generalizing s with
  | zero => rfl
  | succ n ih => rw [usecMany, ih, usecOne_harness]

/-- A property of the engine that each microsecond keeps holds after any time. -/
theorem usecMany_engine_induct {s : State} (P : Capture → List Notification → Prop)
    (h0 : P s.capture s.notifLog)
    (hs : ∀ c log, P c log → P (engineUsec s.params.tickPeriodUs ⟨c, []⟩).cap
      (log ++ (engineUsec s.params.tickPeriodUs ⟨c, []⟩).out)) (n : Nat) :
    P (usecMany n s).capture (usecMany n s).notifLog := by
  induction n generalizing s with
  | zero => exact h0
  | succ n ih => exact ih (s := usecOne s) (hs _ _ h0) hs

/-- A property of the transmitter that each microsecond keeps holds after any time. -/
theorem usecMany_tx_induct {s : State} (P : Transmitter → Prop) (h0 : P s.tx)
    (hs : ∀ t, P t → P (txUsec s.params t)) (n : Nat) : P (usecMany n s).tx := by
  induction n generalizing s with
  | zero => exact h0
  | succ n ih => exact ih (s := usecOne s) (hs _ h0) hs

/-- The engine's course depends on the engine, its history and the period alone. -/
theorem usecMany_engine_congr {s t : State} (hc : t.capture = s.capture) (hl : t.notifLog = s.notifLog)
    (hp : t.params = s.params) (n : Nat) :
    (usecMany n t).capture = (usecMany n s).capture ∧ (usecMany n t).notifLog = (usecMany n s).notifLog := by
  induction n generalizing s t with
  | zero => exact ⟨hc, hl⟩
  | succ n ih =>
    exact ih (s := usecOne s) (t := usecOne t) (by simp [hc, hp]) (by simp [hc, hl, hp]) (by simp [hp])

/-- The transmitter's course depends on the transmitter and the parameters alone. -/
theorem usecMany_tx_congr {s t : State} (ht : t.tx = s.tx) (hp : t.params = s.params) (n : Nat) :
    (usecMany n t).tx = (usecMany n s).tx := by
  induction n generalizing s t with
  | zero => exact ht
  | succ n ih => exact ih (s := usecOne s) (t := usecOne t) (by simp [ht, hp]) (by simp [hp])

/-- Sequences in two parts. -/
theorem execAll_append_next {as bs : List Instr} {s t : State} (h : execAll as s = .next t) :
    execAll (as ++ bs) s = execAll bs t := by
  induction as generalizing s with
  | nil => cases h; rfl
  | cons a as ih =>
    simp only [execAll, List.cons_append] at h ⊢
    split at h
    · exact ih h
    · cases h
    · cases h

theorem execAll_cons_next {i : Instr} {is : List Instr} {s t : State} (h : exec i s = .next t) :
    execAll (i :: is) s = execAll is t := by simp [execAll, h]

end Sys2Proof.Machine
end

