-- ==== Sys2Proof/Laws/Exec.lean ====
section
/-! SUPPORT. What an operation can do as a whole: the command forms, what every operation leaves alone, and the step of
the harness around it. -/

namespace Sys2Proof.Machine

/-! ### Commands and writes to `CMD` -/

theorem exec_toInstr (c : Command) (s : State) : exec c.toInstr s = runCommand c s := by cases c <;> rfl

theorem exec_wr_ok {off : Nat} {r : Reg} (h : regAt off = .ok r) (data : Word) (s : State) :
    exec (.wr off data) s = writeReg r data s := execWr_ok h data s

theorem exec_wr_reg (r : Reg) (data : Word) (s : State) : exec (.wr r.offset data) s = writeReg r data s :=
  exec_wr_ok (regAt_offset r) data s

theorem exec_wr_cmd (w : Word) (s : State) : exec (.wr 0x000 w) s = execCmd w s := exec_wr_reg .cmd w s

theorem exec_rd_reg (r : Reg) (s : State) : exec (.rd r.offset) s = .next (logRead (readReg r s) s) :=
  execRd_ok (regAt_offset r) s

theorem execCmd_ok {w : Word} {c : Command} (h : decodeCommand w = .ok c) (s : State) :
    execCmd w s = runCommand c s := by simp [execCmd, h]

theorem execCmd_error {w : Word} {e : CmdError} (h : decodeCommand w = .error e) (s : State) :
    execCmd w s = .next (raiseCmdError e s) := by simp [execCmd, h]

/-! ### What operations leave alone -/

/-- Two states with the same parameters and the same harness. -/
structure SameSetting (s t : State) : Prop where
  params : t.params = s.params
  harness : t.harness = s.harness

theorem runCommand_setting {c : Command} {s t : State} (h : runCommand c s = .next t) :
    SameSetting s t ∧ t.notifLog = s.notifLog := by
  cases c <;> simp only [runCommand, execNop, execConstruct, execDispose, execClrerr, execDecode, execIsrepeat,
    execEncode, execSnap, execSend] at h <;> (try split_ifs at h) <;> (try split at h) <;> cases h <;>
    exact ⟨⟨rfl, rfl⟩, rfl⟩

theorem execCmd_setting {w : Word} {s t : State} (h : execCmd w s = .next t) :
    SameSetting s t ∧ t.notifLog = s.notifLog := by
  unfold execCmd at h
  split at h
  · cases h; exact ⟨⟨rfl, rfl⟩, rfl⟩
  · exact runCommand_setting h

/-- Everything a write can do: perform a command, change one operand register, report a bad length, or be answered with
a bus error. -/
theorem writeReg_cases {r : Reg} {data : Word} {s t : State} (h : writeReg r data s = .next t) :
    (r = .cmd ∧ execCmd data s = .next t) ∨
    (r = .payload ∧ t = { s with codec := { s.codec with payload := data } }) ∨
    (r = .wlen ∧ ∃ n : Fin 129, data.toNat = n.val ∧ t = { s with codec := { s.codec with wlen := n } }) ∨
    (r = .clen ∧ ∃ n : Fin 17, data.toNat = n.val ∧ t = { s with codec := { s.codec with clen := n } }) ∨
    (((r = .wlen ∧ 129 ≤ data.toNat) ∨ (r = .clen ∧ 17 ≤ data.toNat)) ∧ t = raiseCmdError .badLen s) ∨
    (∃ i, r = .cset i ∧
      t = { s with codec := { s.codec with cset := s.codec.cset.set i (data.setWidth 31) } }) ∨
    (∃ i, r = .wbuf i ∧ t = { s with codec := { s.codec with wbuf := s.codec.wbuf.set i data } }) ∨
    (r.writable = false ∧ t = busError .readOnly s) := by
  cases hw : r.writable with
  | false =>
    rw [writeReg_readOnly hw] at h
    cases h
    exact .inr (.inr (.inr (.inr (.inr (.inr (.inr ⟨rfl, rfl⟩))))))
  | true =>
    cases r <;> simp only [Reg.writable, Bool.false_eq_true] at hw <;>
      simp only [writeReg, Host.Outcome.next.injEq] at h
    · exact .inl ⟨rfl, h⟩
    · exact .inr (.inl ⟨rfl, h.symm⟩)
    · unfold writeWlen at h
      split at h
      · exact .inr (.inr (.inl ⟨rfl, _, rfl, h.symm⟩))
      · exact .inr (.inr (.inr (.inr (.inl ⟨.inl ⟨rfl, by omega⟩, h.symm⟩))))
    · unfold writeClen at h
      split at h
      · exact .inr (.inr (.inr (.inl ⟨rfl, _, rfl, h.symm⟩)))
      · exact .inr (.inr (.inr (.inr (.inl ⟨.inr ⟨rfl, by omega⟩, h.symm⟩))))
    · exact .inr (.inr (.inr (.inr (.inr (.inl ⟨_, rfl, h.symm⟩)))))
    · exact .inr (.inr (.inr (.inr (.inr (.inr (.inl ⟨_, rfl, h.symm⟩))))))

/-- A write to an operand register touches the operand registers and the error report only, and never `fatal`. -/
theorem writeReg_keeps {r : Reg} {data : Word} {s t : State} (hw : r.writable = true) (hr : r ≠ .cmd)
    (h : writeReg r data s = .next t) :
    t.capture = s.capture ∧ t.tx = s.tx ∧ t.notifLog = s.notifLog ∧ t.err.fatal = s.err.fatal ∧ SameSetting s t := by
  rcases writeReg_cases h with ⟨rfl, -⟩ | ⟨-, rfl⟩ | ⟨-, n, -, rfl⟩ | ⟨-, n, -, rfl⟩ | ⟨-, rfl⟩ | ⟨i, -, rfl⟩ |
    ⟨i, -, rfl⟩ | ⟨hf, -⟩
  · exact absurd rfl hr
  · exact ⟨rfl, rfl, rfl, rfl, rfl, rfl⟩
  · exact ⟨rfl, rfl, rfl, rfl, rfl, rfl⟩
  · exact ⟨rfl, rfl, rfl, rfl, rfl, rfl⟩
  · exact ⟨rfl, rfl, rfl, rfl, rfl, rfl⟩
  · exact ⟨rfl, rfl, rfl, rfl, rfl, rfl⟩
  · exact ⟨rfl, rfl, rfl, rfl, rfl, rfl⟩
  · exact absurd (hf.symm.trans hw) (by decide)

/-! ### What an operation can do -/

theorem exec_commandOf {i : Instr} {c : Command} (h : commandOf i = some c) (s : State) : exec i s = runCommand c s := by
  cases i with
  | wr off data =>
    simp only [commandOf] at h
    split at h
    · rename_i ho
      split at h
      · rename_i hc
        cases h
        rw [ho, exec_wr_cmd, execCmd_ok hc]
      · cases h
    · cases h
  | _ => cases h <;> rfl

/-- An operation the bus does not admit leaves the block as it is. -/
theorem exec_busError {i : Instr} {c : BusCause} (h : busErrorOf i = some c) (s : State) :
    exec i s = .next (busError c s) := by
  cases i <;> simp only [busErrorOf, reduceCtorEq] at h <;> split at h
  · rename_i r hr
    split at h
    · cases h
    · rename_i hw
      cases h
      rw [exec_wr_ok hr, writeReg_readOnly (by simpa using hw)]
  · rename_i hr
    cases h
    exact execWr_error hr _ _
  · cases h
  · rename_i hr
    cases h
    exact execRd_error hr _

/-- Every operation completes (60_exceptions.md R200). -/
theorem exec_total (i : Instr) (s : State) : ∃ t, exec i s = .next t := by
  cases i with
  | wr off data =>
    simp only [exec, execWr]
    split
    · exact ⟨_, rfl⟩
    · exact writeReg_next _ _ _
  | rd off => simp only [exec, execRd]; split <;> exact ⟨_, rfl⟩
  | decode => exact runCommand_next .decode s
  | snap => exact runCommand_next .snap s
  | _ => exact ⟨_, rfl⟩

/-- What executing `i` in `s` can lead to: everything an operation can do, once and for all. -/
inductive Effect (s : State) : Instr → State → Prop where
  /-- A command, in either spelling. -/
  | command {i : Instr} {c : Command} {t : State} (hc : commandOf i = some c) (h : runCommand c s = .next t) : Effect s i t
  /-- A word that `CMD` refuses. -/
  | badWord {w : Word} {e : CmdError} (h : decodeCommand w = .error e) : Effect s (.wr 0x000 w) (raiseCmdError e s)
  /-- A write to an operand register. -/
  | store {r : Reg} {data : Word} {t : State} (hw : r.writable = true) (hr : r ≠ .cmd)
      (h : writeReg r data s = .next t) : Effect s (.wr r.offset data) t
  /-- A read of a register. -/
  | read (r : Reg) : Effect s (.rd r.offset) (logRead (readReg r s) s)
  /-- Time. -/
  | time (n : Nat) : Effect s (.usec n) (usecMany n s)
  /-- An edge. -/
  | edge (l : Bool) : Effect s (.edge l) (onEngine (edgeEvent l) s)
  /-- The idle check. -/
  | tick : Effect s .tick (onEngine idleCheck s)
  /-- A host access the bus does not admit. -/
  | busError {i : Instr} {c : BusCause} (h : busErrorOf i = some c) : Effect s i (busError c s)

theorem exec_effect {i : Instr} {s t : State} (h : exec i s = .next t) : Effect s i t := by
  cases i with
  | usec n => rw [exec_usec] at h; cases h; exact .time n
  | edge l => cases h; exact .edge l
  | tick => cases h; exact .tick
  | rd off =>
    cases hr : regAt off with
    | error c =>
      have hb : busErrorOf (.rd off) = some c := by simp [busErrorOf, hr]
      rw [exec_busError hb] at h
      cases h
      exact .busError hb
    | ok r =>
      obtain rfl := offset_of_regAt hr
      rw [exec_rd_reg] at h
      cases h
      exact .read r
  | wr off data =>
    cases hr : regAt off with
    | error c =>
      have hb : busErrorOf (.wr off data) = some c := by simp [busErrorOf, hr]
      rw [exec_busError hb] at h
      cases h
      exact .busError hb
    | ok r =>
      obtain rfl := offset_of_regAt hr
      cases hw : r.writable with
      | false =>
        have hb : busErrorOf (.wr r.offset data) = some .readOnly := by simp [busErrorOf, hr, hw]
        rw [exec_busError hb] at h
        cases h
        exact .busError hb
      | true =>
        rw [exec_wr_reg] at h
        by_cases hc : r = .cmd
        · subst hc
          cases hd : decodeCommand data with
          | error e => rw [writeReg, execCmd_error hd] at h; cases h; exact .badWord hd
          | ok c => rw [writeReg, execCmd_ok hd] at h; exact .command (by simp [commandOf, Reg.offset, hd]) h
        · exact .store hw hc h
  | nop => exact .command (c := .nop) rfl h
  | construct al => exact .command (c := .construct al) rfl h
  | dispose => exact .command (c := .dispose) rfl h
  | clrerr => exact .command (c := .clrerr) rfl h
  | decode => exact .command (c := .decode) rfl h
  | isrepeat => exact .command (c := .isrepeat) rfl h
  | encode => exact .command (c := .encode) rfl h
  | snap => exact .command (c := .snap) rfl h
  | send => exact .command (c := .send) rfl h

/-- No operation but a host access changes the harness, and none changes the parameters. -/
theorem exec_setting {i : Instr} {s t : State} (h : exec i s = .next t) :
    SameSetting s t ∨ (∃ r : Reg, i = .rd r.offset ∧ t = logRead (readReg r s) s) ∨
      ∃ c, busErrorOf i = some c ∧ t = busError c s := by
  cases exec_effect h with
  | command _ h => exact .inl (runCommand_setting h).1
  | badWord _ => exact .inl ⟨rfl, rfl⟩
  | store hw hr h => exact .inl (writeReg_keeps hw hr h).2.2.2.2
  | read r => exact .inr (.inl ⟨r, rfl, rfl⟩)
  | time n => exact .inl ⟨usecMany_params n s, usecMany_harness n s⟩
  | edge l => exact .inl ⟨rfl, rfl⟩
  | tick => exact .inl ⟨rfl, rfl⟩
  | busError hb => exact .inr (.inr ⟨_, hb, rfl⟩)

theorem exec_params {i : Instr} {s t : State} (h : exec i s = .next t) : t.params = s.params := by
  rcases exec_setting h with h | ⟨r, -, rfl⟩ | ⟨c, -, rfl⟩
  · exact h.params
  · rfl
  · rfl

theorem exec_trace {i : Instr} {s t : State} (h : exec i s = .next t) : t.harness.trace = s.harness.trace := by
  rcases exec_setting h with h | ⟨r, -, rfl⟩ | ⟨c, -, rfl⟩
  · rw [h.harness]
  · rfl
  · rfl

theorem exec_pc {i : Instr} {s t : State} (h : exec i s = .next t) : t.harness.pc = s.harness.pc := by
  rcases exec_setting h with h | ⟨r, -, rfl⟩ | ⟨c, -, rfl⟩
  · rw [h.harness]
  · rfl
  · rfl

theorem exec_rdLog {i : Instr} {s t : State} (h : exec i s = .next t) :
    t.harness.rdLog = s.harness.rdLog ∨ ∃ v, t.harness.rdLog = s.harness.rdLog ++ [v] := by
  rcases exec_setting h with h | ⟨r, -, rfl⟩ | ⟨c, -, rfl⟩
  · exact .inl (by rw [h.harness])
  · exact .inr ⟨_, rfl⟩
  · exact .inl rfl

/-- The record of bus errors grows by the operation's bus error, if it has one. -/
theorem exec_busErrors {i : Instr} {s t : State} (h : exec i s = .next t) :
    t.harness.busErrors = s.harness.busErrors ++ (busErrorOf i).toList := by
  cases hb : busErrorOf i with
  | some c => rw [exec_busError hb] at h; cases h; rfl
  | none =>
    rcases exec_setting h with h | ⟨r, -, rfl⟩ | ⟨c, hc, -⟩
    · simp [h.harness]
    · simp
    · simp [hb] at hc

/-! ### The step -/

theorem step_item {s t : State} {i : Instr} {len : Nat}
    (h : decodeItem (s.harness.trace.drop s.harness.pc) = .item i len) (hx : exec i s = .next t) :
    step s = .next (advance len t) := by simp [step, fetch, h, hx]

/-- A step that completes has executed the item at `pc`. -/
theorem step_next {s t : State} (h : step s = .next t) :
    ∃ i len u, decodeItem (s.harness.trace.drop s.harness.pc) = .item i len ∧ exec i s = .next u ∧
      t = advance len u := by
  unfold step fetch at h
  split at h
  · rename_i i len hd
    split at h
    · rename_i u hu
      cases h
      exact ⟨i, len, u, hd, hu, rfl⟩
    · cases h
    · cases h
  · cases h
  · cases h

/-- An item is one or two words, all of them in the trace. -/
theorem decodeItem_len {ws : List Word} {i : Instr} {len : Nat} (h : decodeItem ws = .item i len) :
    (len = 1 ∨ len = 2) ∧ len ≤ ws.length := by
  cases ws with
  | nil => simp [decodeItem] at h
  | cons w rest =>
    simp only [decodeItem] at h
    split at h
    · cases h; simp
    · split at h
      · cases h; simp
      · split at h <;> cases h; simp
      · split at h <;> cases h; simp
      · split at h
        · split at h <;> cases h; simp
        · cases h
      · split at h <;> cases h; simp
      · cases h

end Sys2Proof.Machine
end

