-- ==== Sys2Proof/Laws/PerInstr.lean ====
section
/-! SUPPORT. Statements made of every operation, one lemma per constructor. -/

/-- The words of a well-formed operation are a row of the opcode map (30_encoding.md R84): the row with its mnemonic and
its number of words, whose fixed bits the first word has. -/
def Sys2Proof.Laws.EncodesRow.Statement (i : Sys2Proof.Instr) : Prop :=
  i.WellFormed = true → ∃ r ∈ Sys2Proof.opRows, ∃ w rest, Sys2Proof.encode i = w :: rest ∧
    r.mnemonic = i.mnemonic ∧ r.words = (Sys2Proof.encode i).length ∧ r.hits w = true

namespace Sys2Proof.Laws.EncodesRow

/-- An operation word has its row's fixed bits where the row fixes no bit below `k` and the argument reaches none from
`k` up. -/
theorem hits_opWord {r : OpRow} {opc arg k : Nat} (hk : k ≤ 24) (ho : opc < 2 ^ 8) (ha : arg < 2 ^ k)
    (hm : r.mask = BitVec.ofNat 32 (2 ^ 32 - 2 ^ k)) (hb : r.bits = opWord opc 0) : r.hits (opWord opc arg) = true := by
  have h24 : (2 : Nat) ^ k ≤ 2 ^ 24 := Nat.pow_le_pow_right (by decide) hk
  have hw : (opWord opc arg).toNat = opc * 2 ^ 24 + arg := by simp only [opWord, BitVec.toNat_ofNat]; omega
  have hz : (opWord opc 0).toNat = opc * 2 ^ 24 := by simp only [opWord, BitVec.toNat_ofNat]; omega
  have hmask : (BitVec.ofNat 32 (2 ^ 32 - 2 ^ k) : Word) = BitVec.allOnes 32 <<< k := by
    apply BitVec.eq_of_toNat_eq
    interval_cases k <;> rfl
  simp only [OpRow.hits, hm, hb, hmask, beq_iff_eq]
  apply BitVec.eq_of_getLsbD_eq
  intro i hi
  simp only [BitVec.getLsbD_and, BitVec.getLsbD_shiftLeft, BitVec.getLsbD_allOnes]
  have hdiv : ∀ j, k ≤ j → (opc * 2 ^ 24 + arg) / 2 ^ j = opc * 2 ^ 24 / 2 ^ j := by
    intro j hj
    have hsplit : (2 : Nat) ^ j = 2 ^ k * 2 ^ (j - k) := by rw [← pow_add]; congr 1; omega
    have h1 : opc * 2 ^ 24 = opc * 2 ^ (24 - k) * 2 ^ k := by rw [mul_assoc, ← pow_add]; congr 2; omega
    rw [hsplit, ← Nat.div_div_eq_div_mul, ← Nat.div_div_eq_div_mul, h1, Nat.add_comm,
      Nat.add_mul_div_right _ _ (by positivity), Nat.div_eq_of_lt ha, Nat.zero_add, Nat.mul_div_cancel _ (by positivity)]
  by_cases hik : i < k
  · have h0 : (opWord opc 0).getLsbD i = false := by
      rw [BitVec.getLsbD, hz, Nat.testBit_mul_two_pow]
      simp; omega
    rw [h0]; simp [hik]
  · have h1 : (opWord opc arg).getLsbD i = (opWord opc 0).getLsbD i := by
      rw [BitVec.getLsbD, BitVec.getLsbD, hw, hz, Nat.testBit_eq_decide_div_mod_eq, Nat.testBit_eq_decide_div_mod_eq,
        hdiv i (by omega)]
    rw [h1]
    have : i - k < 32 := by omega
    simp [hi, hik, this]

theorem nop : Statement .nop := fun _ => ⟨opRows[0], by decide, _, _, rfl, rfl, rfl, by decide⟩

theorem construct (activeLow : Bool) : Statement (.construct activeLow) := fun _ =>
  ⟨opRows[1], by decide, _, _, rfl, rfl, rfl, by cases activeLow <;> decide⟩

theorem dispose : Statement .dispose := fun _ => ⟨opRows[2], by decide, _, _, rfl, rfl, rfl, by decide⟩

theorem clrerr : Statement .clrerr := fun _ => ⟨opRows[3], by decide, _, _, rfl, rfl, rfl, by decide⟩

theorem decode : Statement .decode := fun _ => ⟨opRows[4], by decide, _, _, rfl, rfl, rfl, by decide⟩

theorem isrepeat : Statement .isrepeat := fun _ => ⟨opRows[5], by decide, _, _, rfl, rfl, rfl, by decide⟩

theorem encode : Statement .encode := fun _ => ⟨opRows[6], by decide, _, _, rfl, rfl, rfl, by decide⟩

theorem snap : Statement .snap := fun _ => ⟨opRows[7], by decide, _, _, rfl, rfl, rfl, by decide⟩

theorem send : Statement .send := fun _ => ⟨opRows[8], by decide, _, _, rfl, rfl, rfl, by decide⟩

theorem usec (n : Nat) : Statement (.usec n) := fun h =>
  ⟨opRows[9], by decide, _, _, rfl, rfl, rfl,
    hits_opWord (k := 24) (by decide) (by decide) (by simpa [Instr.WellFormed] using h) (by decide) (by decide)⟩

theorem edge (newLevel : Bool) : Statement (.edge newLevel) := fun _ =>
  ⟨opRows[10], by decide, _, _, rfl, rfl, rfl, by cases newLevel <;> decide⟩

theorem tick : Statement .tick := fun _ => ⟨opRows[11], by decide, _, _, rfl, rfl, rfl, by decide⟩

theorem wr (off : Nat) (data : Word) : Statement (.wr off data) := fun h =>
  ⟨opRows[12], by decide, _, _, rfl, rfl, rfl,
    hits_opWord (k := 12) (by decide) (by decide) (by simpa [Instr.WellFormed] using h) (by decide) (by decide)⟩

theorem rd (off : Nat) : Statement (.rd off) := fun h =>
  ⟨opRows[13], by decide, _, _, rfl, rfl, rfl,
    hits_opWord (k := 12) (by decide) (by decide) (by simpa [Instr.WellFormed] using h) (by decide) (by decide)⟩

end Sys2Proof.Laws.EncodesRow
end

