-- ==== Sys2Proof/Laws/Transmit.lean ====
section
/-! SUPPORT. The transmitter on its timeline: where each microsecond finds it (43_transmitter.md R172 to R175). -/

namespace Sys2Proof.Machine

/-- When pulse `i` of a train starts: `S_i` of 43_transmitter.md R175. -/
def startUs (train : Train) (i : Nat) : Nat := ((train.take i).map Pulse.us).sum

theorem startUs_succ {train : Train} {i : Nat} {p : Pulse} (h : train[i]? = some p) :
    startUs train (i + 1) = startUs train i + p.us := by
  rw [startUs, List.take_add_one, h]
  simp [startUs]

theorem startUs_le_succ (train : Train) (i : Nat) : startUs train i ≤ startUs train (i + 1) := by
  cases h : train[i]? with
  | none =>
    have hi : train.length ≤ i := List.getElem?_eq_none_iff.mp h
    simp [startUs, List.take_of_length_le hi, List.take_of_length_le (Nat.le_succ_of_le hi)]
  | some p => rw [startUs_succ h]; omega

theorem startUs_mono (train : Train) {i j : Nat} (h : i ≤ j) : startUs train i ≤ startUs train j := by
  induction j, h using Nat.le_induction with
  | base => exact le_refl _
  | succ j _ ih => exact ih.trans (startUs_le_succ train j)

@[simp] theorem startUs_zero (train : Train) : startUs train 0 = 0 := rfl

/-- Before the end, exactly one pulse's interval holds `n`. -/
theorem exists_interval {train : Train} {n : Nat} (h : n < startUs train train.length) :
    ∃ i p, train[i]? = some p ∧ startUs train i ≤ n ∧ n < startUs train (i + 1) := by
  have hex : ∃ j, n < startUs train j := ⟨_, h⟩
  have hj := Nat.find_spec hex
  have hmin : ∀ m < Nat.find hex, ¬ n < startUs train m := fun m hm => Nat.find_min hex hm
  generalize Nat.find hex = j at hj hmin
  cases j with
  | zero => simp at hj
  | succ i =>
    have hi := hmin i (Nat.lt_succ_self i)
    cases hp : train[i]? with
    | none =>
      exfalso
      have hl : train.length ≤ i := List.getElem?_eq_none_iff.mp hp
      have := startUs_mono train hl
      omega
    | some p => exact ⟨i, p, hp, by omega, hj⟩

theorem interval_unique {train : Train} {n i j : Nat} (hi : startUs train i ≤ n) (hi' : n < startUs train (i + 1))
    (hj : startUs train j ≤ n) (hj' : n < startUs train (j + 1)) : i = j := by
  rcases Nat.lt_trichotomy i j with h | h | h
  · have := startUs_mono train (show i + 1 ≤ j by omega); omega
  · exact h
  · have := startUs_mono train (show j + 1 ≤ i by omega); omega

/-- The transmitter `n` microseconds after it latched `train`. -/
structure OnTimeline (params : Params) (train : Train) (n : Nat) (t : Transmitter) : Prop where
  train_eq : t.train = train
  inside : ∀ i p, train[i]? = some p → startUs train i ≤ n → n < startUs train (i + 1) →
    t.busy = true ∧ t.idx = i ∧ t.rem.toNat = startUs train (i + 1) - n ∧ t.duty = dutyOf params p
  past : startUs train train.length ≤ n → t.busy = false ∧ t.idx = train.length ∧ t.rem = 0 ∧ t.duty = 0

theorem skipSpent_of_rem {params : Params} {rest : Train} {t : Transmitter} (h : t.rem ≠ 0) :
    skipSpent params rest t = t := by
  have h' : (t.busy && t.rem == 0) = false := by
    rw [beq_false_of_ne h, Bool.and_false]
  cases rest <;> rw [skipSpent, h'] <;> rfl

/-- Leaving a spent pulse lands on the timeline at the start of the next one. -/
theorem skipSpent_onTimeline {params : Params} {train : Train} (rest : Train) (t : Transmitter)
    (ht : t.train = train) (hb : t.busy = true) (hr : t.rem = 0) (hi : t.idx < train.length)
    (hd : train.drop (t.idx + 1) = rest) :
    OnTimeline params train (startUs train (t.idx + 1)) (skipSpent params rest t) := by
  induction rest generalizing t with
  | nil =>
    have hl : train.length = t.idx + 1 := by
      have := List.drop_eq_nil_iff.mp hd; omega
    simp only [skipSpent, hb, hr, BEq.rfl, Bool.and_self, if_true]
    refine ⟨ht, fun i p hp _ h2 => ?_, fun _ => ⟨rfl, hl.symm, hr, rfl⟩⟩
    obtain ⟨hi', -⟩ := List.getElem?_eq_some_iff.mp hp
    have := startUs_mono train (show i + 1 ≤ t.idx + 1 by omega)
    omega
  | cons p rest ih =>
    have hl : t.idx + 1 < train.length := by
      by_contra h
      have : train.drop (t.idx + 1) = [] := List.drop_eq_nil_iff.mpr (by omega)
      rw [this] at hd; cases hd
    have hp : train[t.idx + 1]? = some p := by
      have := List.getElem?_drop (xs := train) (i := t.idx + 1) (j := 0)
      rw [hd] at this; simpa using this.symm
    have hs := startUs_succ hp
    simp only [skipSpent, hb, hr, BEq.rfl, Bool.and_self, if_true]
    by_cases hz : p.us = 0
    · have hdur : p.dur = 0 := BitVec.eq_of_toNat_eq (by simpa [Pulse.us] using hz)
      have h := ih (loadPulse params (t.idx + 1) p t) ht hb hdur hl
        (by rw [show (loadPulse params (t.idx + 1) p t).idx = t.idx + 1 from rfl, ← List.drop_drop, hd]; rfl)
      have he : startUs train (t.idx + 1 + 1) = startUs train (t.idx + 1) := by omega
      rw [show (loadPulse params (t.idx + 1) p t).idx = t.idx + 1 from rfl, he] at h
      exact h
    · have hdur : (loadPulse params (t.idx + 1) p t).rem ≠ 0 := by
        intro h
        apply hz
        rw [show (loadPulse params (t.idx + 1) p t).rem = p.dur from rfl] at h
        simp [Pulse.us, h]
      rw [skipSpent_of_rem hdur]
      refine ⟨ht, fun j q hq h1 h2 => ?_, fun h => ?_⟩
      · have hj : j = t.idx + 1 := interval_unique h1 h2 (le_refl _) (by omega)
        subst hj
        rw [hp] at hq; cases hq
        exact ⟨hb, rfl, by rw [hs]; simp only [loadPulse, Pulse.us]; omega, rfl⟩
      · have := startUs_mono train (show t.idx + 1 + 1 ≤ train.length by omega)
        omega

/-- `SEND` starts on the timeline at 0. -/
theorem startTrain_onTimeline (params : Params) (train : Train) (t : Transmitter) (hb : t.busy = false) :
    OnTimeline params train 0 (startTrain params train t) := by
  cases train with
  | nil =>
    exact ⟨rfl, fun i p hp => by simp at hp, fun _ => ⟨hb, rfl, rfl, rfl⟩⟩
  | cons p rest =>
    have hp : (p :: rest)[0]? = some p := rfl
    have hs := startUs_succ hp
    rw [startUs_zero, Nat.zero_add, Nat.zero_add] at hs
    simp only [startTrain, txAdvance]
    generalize ht : loadPulse params 0 p { t with train := p :: rest, busy := true } = t₁
    have h1 : t₁.train = p :: rest := by rw [← ht]; rfl
    have h2 : t₁.busy = true := by rw [← ht]; rfl
    have h3 : t₁.idx = 0 := by rw [← ht]; rfl
    have h4 : t₁.rem = p.dur := by rw [← ht]; rfl
    have h5 : t₁.duty = dutyOf params p := by rw [← ht]; rfl
    by_cases hz : p.us = 0
    · have hr : t₁.rem = 0 := by rw [h4]; exact BitVec.eq_of_toNat_eq (by simpa [Pulse.us] using hz)
      have h := skipSpent_onTimeline (params := params) _ t₁ h1 h2 hr (by simp [h3]) rfl
      rw [h3, Nat.zero_add, hs, hz] at h
      rw [h1, h3]
      exact h
    · have hr : t₁.rem ≠ 0 := by
        intro h; apply hz; rw [h4] at h; simp [Pulse.us, h]
      rw [skipSpent_of_rem hr]
      refine ⟨h1, fun j q hq hj1 hj2 => ?_, fun h => ?_⟩
      · have hj : j = 0 := interval_unique hj1 hj2 (by simp) (by rw [Nat.zero_add, hs]; omega)
        subst hj
        rw [hp] at hq; cases hq
        exact ⟨h2, h3, by rw [h4, Nat.zero_add, hs]; simp [Pulse.us], h5⟩
      · have := startUs_mono (p :: rest) (show 1 ≤ (p :: rest).length by simp)
        omega

/-- One microsecond moves one step along the timeline. -/
theorem txUsec_onTimeline {params : Params} {train : Train} {n : Nat} {t : Transmitter}
    (h : OnTimeline params train n t) : OnTimeline params train (n + 1) (txUsec params t) := by
  by_cases hn : n < startUs train train.length
  · obtain ⟨i, p, hp, h1, h2⟩ := exists_interval hn
    obtain ⟨hb, hidx, hrem, hduty⟩ := h.inside i p hp h1 h2
    have hi : i < train.length := (List.getElem?_eq_some_iff.mp hp).1
    have hrt : (t.rem - 1).toNat = startUs train (i + 1) - (n + 1) := by
      have := t.rem.isLt
      have h1 : (1 : Dur).toNat = 1 := rfl
      rw [BitVec.toNat_sub, h1]; omega
    simp only [txUsec, hb, if_true, txAdvance]
    by_cases hz : startUs train (i + 1) = n + 1
    · have hr0 : t.rem - 1 = 0 := BitVec.eq_of_toNat_eq (by rw [hrt, hz]; simp)
      have := skipSpent_onTimeline (params := params) _ { t with rem := t.rem - 1 } h.train_eq hb hr0
        (by simpa [hidx] using hi) rfl
      rw [show ({ t with rem := t.rem - 1 } : Transmitter).idx = i from hidx, hz] at this
      rw [h.train_eq, hidx]
      simpa [hidx, hb, h.train_eq] using this
    · have hr : ({ t with rem := t.rem - 1 } : Transmitter).rem ≠ 0 := by
        intro h0
        have := congrArg BitVec.toNat h0
        rw [show ({ t with rem := t.rem - 1 } : Transmitter).rem = t.rem - 1 from rfl, hrt] at this
        simp at this; omega
      have hskip := skipSpent_of_rem (params := params) (rest := t.train.drop (t.idx + 1)) hr
      rw [show ({ t with rem := t.rem - 1 } : Transmitter) =
        { busy := t.busy, train := t.train, idx := t.idx, rem := t.rem - 1, duty := t.duty } from rfl, hb] at hskip
      rw [hskip]
      refine ⟨h.train_eq, fun j q hq hj1 hj2 => ?_, fun hlen => ?_⟩
      · have hj : j = i := interval_unique hj1 hj2 (by omega) (by omega)
        subst hj
        rw [hp] at hq; cases hq
        exact ⟨rfl, hidx, hrt, hduty⟩
      · have := startUs_mono train (show i + 1 ≤ train.length by omega)
        omega
  · obtain ⟨hb, hidx, hrem, hduty⟩ := h.past (by omega)
    simp only [txUsec, hb, Bool.false_eq_true, if_false]
    refine ⟨h.train_eq, fun j q hq hj1 hj2 => ?_, fun _ => ⟨hb, hidx, hrem, hduty⟩⟩
    have hj : j < train.length := (List.getElem?_eq_some_iff.mp hq).1
    have := startUs_mono train (show j + 1 ≤ train.length by omega)
    omega

/-- Any time moves along the timeline. -/
theorem usecMany_onTimeline {s : State} {train : Train} {m : Nat} (h : OnTimeline s.params train m s.tx) (n : Nat) :
    OnTimeline s.params train (m + n) (usecMany n s).tx := by
  induction n generalizing s m with
  | zero => exact h
  | succ n ih =>
    have := ih (s := usecOne s) (m := m + 1) (txUsec_onTimeline h)
    rw [show m + 1 + n = m + (n + 1) by omega] at this
    exact this

/-- The clauses of `State.Inv` about the transmitter. -/
structure Transmitter.Inv (params : Params) (t : Transmitter) : Prop where
  busy : t.busy = true → ∃ p, t.train[t.idx]? = some p ∧ 1 ≤ t.rem.toNat ∧ t.duty = dutyOf params p
  idle : t.busy = false → t.duty = 0
  train : t.train.length ≤ 128 ∧ (t.busy = false → t.idx = t.train.length ∧ t.rem = 0)

/-- A transmitter on a timeline meets its invariant. -/
theorem OnTimeline.inv {params : Params} {train : Train} {n : Nat} {t : Transmitter}
    (h : OnTimeline params train n t) (hl : train.length ≤ 128) : t.Inv params := by
  by_cases hn : n < startUs train train.length
  · obtain ⟨i, p, hp, h1, h2⟩ := exists_interval hn
    obtain ⟨hb, hidx, hrem, hduty⟩ := h.inside i p hp h1 h2
    exact ⟨fun _ => ⟨p, by rw [h.train_eq, hidx, hp], by omega, hduty⟩, fun hb' => absurd (hb'.symm.trans hb) (by decide),
      by rw [h.train_eq]; exact hl, fun hb' => absurd (hb'.symm.trans hb) (by decide)⟩
  · obtain ⟨hb, hidx, hrem, hduty⟩ := h.past (by omega)
    exact ⟨fun hb' => absurd (hb'.symm.trans hb) (by decide), fun _ => hduty, by rw [h.train_eq]; exact hl,
      fun _ => ⟨by rw [hidx, h.train_eq], hrem⟩⟩

/-- `TX_ADVANCE` never changes the latched train. -/
theorem skipSpent_train (params : Params) (rest : Train) (t : Transmitter) :
    (skipSpent params rest t).train = t.train := by
  induction rest generalizing t with
  | nil => unfold skipSpent; split <;> rfl
  | cons p rest ih => unfold skipSpent; split <;> [exact ih _; rfl]

theorem txUsec_train (params : Params) (t : Transmitter) : (txUsec params t).train = t.train := by
  unfold txUsec txAdvance
  split
  · exact skipSpent_train _ _ _
  · rfl

theorem usecMany_train (n : Nat) (s : State) : (usecMany n s).tx.train = s.tx.train :=
  usecMany_tx_induct (fun t => t.train = s.tx.train) rfl (fun t h => by rw [txUsec_train, h]) n

/-! ### How long a transmitter stays busy -/

/-- A busy transmitter has time left in its pulse (10_state.md R48 (e)). -/
def Transmitter.Live (t : Transmitter) : Prop := t.busy = true → t.rem ≠ 0

theorem State.Inv.live {s : State} (h : s.Inv) : s.tx.Live := by
  intro hb h0
  obtain ⟨p, -, hr, -⟩ := h.txBusy hb
  simp [h0] at hr

/-- `TX_ADVANCE` leaves no spent pulse, -/
theorem skipSpent_live (params : Params) (rest : Train) (t : Transmitter) : (skipSpent params rest t).Live := by
  have spent : (t.busy && t.rem == 0) = false → t.Live := by simp [Transmitter.Live]
  induction rest generalizing t with
  | nil =>
    unfold skipSpent
    split
    · exact fun hb => absurd hb Bool.false_ne_true
    · exact spent (Bool.eq_false_of_not_eq_true ‹_›)
  | cons p rest ih =>
    unfold skipSpent
    split
    · exact ih _ (by simp [Transmitter.Live])
    · exact spent (Bool.eq_false_of_not_eq_true ‹_›)

/-- and takes none of the time left. -/
theorem skipSpent_busyUs {params : Params} {rest : Train} {t : Transmitter} (hd : t.train.drop (t.idx + 1) = rest) :
    busyUs (skipSpent params rest t) = busyUs t := by
  induction rest generalizing t with
  | nil =>
    unfold skipSpent
    split
    · rename_i h
      simp only [Bool.and_eq_true, beq_iff_eq] at h
      simp [busyUs, finishTrain, h, hd]
    · rfl
  | cons p rest ih =>
    unfold skipSpent
    split
    · rename_i h
      simp only [Bool.and_eq_true, beq_iff_eq] at h
      have hd' : t.train.drop (t.idx + 1 + 1) = rest := by rw [← List.drop_drop, hd]; rfl
      rw [ih (t := loadPulse params (t.idx + 1) p t) hd']
      simp [busyUs, loadPulse, h, hd, hd', Pulse.us]
    · rfl

theorem startTrain_live (params : Params) (w : Train) {t : Transmitter} (hb : t.busy = false) :
    (startTrain params w t).Live := by
  cases w with
  | nil => exact fun h => absurd (hb.symm.trans h) Bool.false_ne_true
  | cons p rest => exact skipSpent_live _ _ _

theorem txUsec_live (params : Params) {t : Transmitter} (h : t.Live) : (txUsec params t).Live := by
  unfold txUsec
  split
  · exact skipSpent_live _ _ _
  · exact h

theorem txUsec_busyUs (params : Params) {t : Transmitter} (h : t.Live) :
    busyUs (txUsec params t) = busyUs t - 1 := by
  cases hb : t.busy with
  | false => simp [txUsec, busyUs, hb]
  | true =>
    have hr : 1 ≤ t.rem.toNat := Nat.one_le_iff_ne_zero.mpr fun h0 => h hb (BitVec.eq_of_toNat_eq h0)
    have h1 : (t.rem - 1).toNat = t.rem.toNat - 1 := by
      have := t.rem.isLt
      have h1 : (1 : Dur).toNat = 1 := rfl
      rw [BitVec.toNat_sub, h1]; omega
    have hs := skipSpent_busyUs (params := params) (t := { t with rem := t.rem - 1 }) rfl
    simp only [txUsec, hb, if_true, txAdvance] at hs ⊢
    rw [hs]
    simp only [busyUs, hb, if_true, h1]
    omega

theorem busyUs_pos {t : Transmitter} (h : t.Live) : 0 < busyUs t ↔ t.busy = true := by
  cases hb : t.busy with
  | false => simp [busyUs, hb]
  | true =>
    have hr : t.rem.toNat ≠ 0 := fun h0 => h hb (BitVec.eq_of_toNat_eq h0)
    simp only [busyUs, hb, if_true, iff_true]
    omega

/-- A live transmitter is busy for exactly `busyUs` microseconds. -/
theorem usecMany_busy {s : State} (h : s.tx.Live) (n : Nat) : (usecMany n s).tx.busy = true ↔ n < busyUs s.tx := by
  have key : (usecMany n s).tx.Live ∧ busyUs (usecMany n s).tx = busyUs s.tx - n := by
    induction n generalizing s with
    | zero => exact ⟨h, rfl⟩
    | succ n ih =>
      obtain ⟨hl, hn⟩ := ih (s := usecOne s) (txUsec_live s.params h)
      refine ⟨hl, hn.trans ?_⟩
      rw [usecOne_tx, txUsec_busyUs _ h]; omega
  rw [← busyUs_pos key.1, key.2]; omega

/-- What an operation can do to the transmitter. -/
theorem exec_tx {i : Instr} {s t : State} (h : exec i s = .next t) :
    t.tx = s.tx ∨ (s.tx.busy = false ∧ t.tx = startTrain s.params s.workTrain s.tx) ∨
      ∃ n, i = .usec n ∧ t = usecMany n s := by
  cases exec_effect h with
  | command _ h =>
    rename_i c _
    cases c <;> simp only [runCommand, execNop, execConstruct, execDispose, execClrerr, execDecode, execIsrepeat,
      execEncode, execSnap, execSend] at h <;> (try split_ifs at h) <;> (try split at h) <;> cases h <;>
      first | exact .inl rfl | exact .inr (.inl ⟨Bool.eq_false_of_not_eq_true ‹_›, rfl⟩)
  | store hw hr h => exact .inl (writeReg_keeps hw hr h).2.1
  | time n => exact .inr (.inr ⟨n, rfl, rfl⟩)
  | badWord _ | read _ | edge _ | tick | busError _ => exact .inl rfl

theorem exec_live {i : Instr} {s t : State} (h : exec i s = .next t) (hl : s.tx.Live) : t.tx.Live := by
  rcases exec_tx h with h | ⟨hb, h⟩ | ⟨n, -, rfl⟩
  · rw [h]; exact hl
  · rw [h]; exact startTrain_live _ _ hb
  · exact usecMany_tx_induct Transmitter.Live hl (fun _ => txUsec_live _) n

end Sys2Proof.Machine
end

