-- ==== Sys2Proof/Machine/Asm.lean ====
section
/-! DEFINITION. One line of assembler text (30_encoding.md R92) as an operation. -/

namespace Sys2Proof.Machine.Asm

/-- What a line says. -/
inductive Line where
  /-- Nothing but spaces or a comment. -/
  | blank
  /-- One operation. -/
  | op (i : Instr)
  /-- No operation of 30_encoding.md R92. -/
  | bad
  deriving DecidableEq, Repr

/-- The text before a comment. -/
def dropComment (cs : List Char) : List Char := cs.takeWhile (· != ';')

/-- A space or a tab. -/
def isSpace (c : Char) : Bool := c == ' ' || c == '\t'

/-- The text without spaces at either end. -/
def trim (cs : List Char) : List Char := ((cs.dropWhile isSpace).reverse.dropWhile isSpace).reverse

/-- The value of a digit in a base up to 16. -/
def digit (base : Nat) (c : Char) : Option Nat :=
  let n := c.toNat
  let v :=
    if 48 ≤ n ∧ n ≤ 57 then some (n - 48)
    else if 65 ≤ n ∧ n ≤ 70 then some (n - 55)
    else if 97 ≤ n ∧ n ≤ 102 then some (n - 87)
    else none
  v.filter (· < base)

/-- A numeral in a base, at least one digit; underscores are spacing (00_scope.md R8). -/
def digits (base : Nat) (cs : List Char) : Option Nat :=
  match cs.filter (· != '_') with
  | [] => none
  | ds => ds.foldl (fun acc c => acc.bind fun a => (digit base c).map fun d => a * base + d) (some 0)

/-- A number, decimal or `0x` hexadecimal. -/
def number (cs : List Char) : Option Nat :=
  match cs with
  | '0' :: 'x' :: hs => digits 16 hs
  | ds => digits 10 ds

/-- The text between `pre` and a last character `post`. -/
def between (pre : List Char) (post : Char) (cs : List Char) : Option (List Char) :=
  if pre.isPrefixOf cs && cs.getLast? == some post then some (cs.drop pre.length).dropLast else none

/-- The names of the registers at offsets 0x000 to 0x03C, in order (10_state.md R38). -/
def fixedNames : List (List Char) :=
  [['C', 'M', 'D'], ['S', 'T', 'A', 'T', 'U', 'S'], ['E', 'R', 'R', 'C', 'O', 'D', 'E'],
   ['R', 'E', 'S', 'K', 'I', 'N', 'D'], ['P', 'A', 'Y', 'L', 'O', 'A', 'D'], ['R', 'E', 'S', 'U', 'L', 'T'],
   ['W', 'L', 'E', 'N'], ['C', 'L', 'E', 'N'], ['C', 'B', 'U', 'F', 'L', 'E', 'N'],
   ['P', 'T', 'I', 'M', 'E', 'R'], ['S', 'I', 'N', 'C', 'E'], ['T', 'I', 'C', 'K', 'C', 'N', 'T'],
   ['T', 'X', 'L', 'E', 'N'], ['T', 'X', 'I', 'D', 'X'], ['T', 'X', 'R', 'E', 'M'], ['D', 'U', 'T', 'Y']]

/-- An element of a register array of `len` entries written `NAME[i]`: its offset. -/
def arrayOffset (name : List Char) (base len : Nat) (cs : List Char) : Option Nat :=
  (between (name ++ ['[']) ']' cs).bind fun inner =>
    (number (trim inner)).bind fun i => if i < len then some (base + 4 * i) else none

/-- An offset: a number or a register name. -/
def offset (cs : List Char) : Option Nat :=
  (number cs).or <|
    ((fixedNames.findIdx? (· == cs)).map (4 * ·)).or <|
    (arrayOffset ['C', 'S', 'E', 'T'] 0x040 16 cs).or <|
    (arrayOffset ['W', 'B', 'U', 'F'] 0x200 128 cs).or <|
    arrayOffset ['C', 'B', 'U', 'F'] 0x400 128 cs

/-- A duration inside a pulse word. -/
def duration (cs : List Char) : Option Nat := (number (trim cs)).filter (· < 2 ^ 31)

/-- A data word: a number, a mark `M(d)` or a space `S(d)`. -/
def word (cs : List Char) : Option Word :=
  (((number cs).filter (· < 2 ^ 32)).map fun n => BitVec.ofNat 32 n).or <|
    (((between ['M', '('] ')' cs).bind duration).map fun d => (pulseOf true d).toWord).or <|
    ((between ['S', '('] ')' cs).bind duration).map fun d => (pulseOf false d).toWord

/-- A level or flag, 0 or 1. -/
def bit (cs : List Char) : Option Bool :=
  match number cs with
  | some 0 => some false
  | some 1 => some true
  | _ => none

/-- The operands of a line, separated by commas. -/
def operands (cs : List Char) : List (List Char) :=
  match trim cs with
  | [] => []
  | text => (text.splitOn ',').map trim

/-- The operation a mnemonic and its operands are. -/
def operation (mnemonic : List Char) (args : List (List Char)) : Option Instr :=
  match mnemonic, args with
  | ['N', 'O', 'P'], [] => some .nop
  | ['C', 'O', 'N', 'S', 'T', 'R', 'U', 'C', 'T'], [a] => (bit a).map .construct
  | ['D', 'I', 'S', 'P', 'O', 'S', 'E'], [] => some .dispose
  | ['C', 'L', 'R', 'E', 'R', 'R'], [] => some .clrerr
  | ['D', 'E', 'C', 'O', 'D', 'E'], [] => some .decode
  | ['I', 'S', 'R', 'E', 'P', 'E', 'A', 'T'], [] => some .isrepeat
  | ['E', 'N', 'C', 'O', 'D', 'E'], [] => some .encode
  | ['S', 'N', 'A', 'P'], [] => some .snap
  | ['S', 'E', 'N', 'D'], [] => some .send
  | ['U', 'S', 'E', 'C'], [a] => (number a).map .usec
  | ['E', 'D', 'G', 'E'], [a] => (bit a).map .edge
  | ['T', 'I', 'C', 'K'], [] => some .tick
  | ['W', 'R'], [a, d] => (offset a).bind fun off => (word d).map fun w => .wr off w
  | ['R', 'D'], [a] => (offset a).map .rd
  | _, _ => none

/-- One line: at most one operation, its operands within their fields. -/
def line (cs : List Char) : Line :=
  match trim (dropComment cs) with
  | [] => .blank
  | text =>
    let mnemonic := text.takeWhile (fun c => !isSpace c)
    match (operation mnemonic (operands (text.drop mnemonic.length))).filter Instr.WellFormed with
    | some i => .op i
    | none => .bad

end Sys2Proof.Machine.Asm
end

