-- ==== Sys2Proof/Tests/Slice0.lean ====
section
/-! SUPPORT. Tests. Every expected value is copied from spec/ (95_test_vectors.md V-…, a program P1 to P6, or the rule
named) or computed by hand from it. -/

namespace Sys2Proof.Tests

open Sys2Proof.Machine

/-! ### WellFormed refuses what has no encoding (30_encoding.md R82, R83) -/

theorem test_usec_count_too_wide : (Instr.usec 16777216).WellFormed = false := by decide
theorem test_usec_count_widest : (Instr.usec 16777215).WellFormed = true := by decide
theorem test_wr_offset_too_wide : (Instr.wr 0x1000 0).WellFormed = false := by decide
theorem test_rd_offset_too_wide : (Instr.rd 0x1000).WellFormed = false := by decide

/-! ### Decoding of words written out from the spec's encodings -/

/-- Format C: `OPC` 0x00, 0x01 (bit 0 = active_low), 0x02, 0x0F, 0x10 to 0x13, 0x20 (30_encoding.md R84). -/
theorem test_decode_nop : decodeItem [0x00000000] = .item .nop 1 := by decide
theorem test_decode_construct_1 : decodeItem [0x01000001] = .item (.construct true) 1 := by decide
theorem test_decode_construct_0 : decodeItem [0x01000000] = .item (.construct false) 1 := by decide
theorem test_decode_dispose : decodeItem [0x02000000] = .item .dispose 1 := by decide
theorem test_decode_clrerr : decodeItem [0x0F000000] = .item .clrerr 1 := by decide
theorem test_decode_decode : decodeItem [0x10000000] = .item .decode 1 := by decide
theorem test_decode_isrepeat : decodeItem [0x11000000] = .item .isrepeat 1 := by decide
theorem test_decode_encode : decodeItem [0x12000000] = .item .encode 1 := by decide
theorem test_decode_snap : decodeItem [0x13000000] = .item .snap 1 := by decide
theorem test_decode_send : decodeItem [0x20000000] = .item .send 1 := by decide
/-- Format E, from V-CAP-1 and P1. -/
theorem test_decode_usec : decodeItem [0x8003D08F] = .item (.usec 249999) 1 := by decide
theorem test_decode_edge_1 : decodeItem [0x81000001] = .item (.edge true) 1 := by decide
theorem test_decode_edge_0 : decodeItem [0x81000000] = .item (.edge false) 1 := by decide
theorem test_decode_tick : decodeItem [0x82000000] = .item .tick 1 := by decide
/-- Format A, from V-ENC-6: `WR WBUF[67], 0x1234` and `RD WBUF[66]`. -/
theorem test_decode_wr : decodeItem [0xC000030C, 0x00001234, 0x82000000] = .item (.wr 0x30C 0x1234) 2 := by decide
theorem test_decode_rd : decodeItem [0xC1000308] = .item (.rd 0x308) 1 := by decide
/-- V-HOST-1 and V-HOST-3: refused command words are trace items (R81). -/
theorem test_decode_illegal_command : decodeItem [0x03000000] = .item (.wr 0 0x03000000) 1 := by decide
theorem test_decode_reserved_command : decodeItem [0x02000001] = .item (.wr 0 0x02000001) 1 := by decide
/-- 30_encoding.md R89, one word for each kind. -/
theorem test_reject_unassigned : decodeItem [0x83000000] = .reject .unassignedOpcode := by decide
theorem test_reject_edge_arg : decodeItem [0x81000002] = .reject .reservedEventArg := by decide
theorem test_reject_access_bits : decodeItem [0xC1001000] = .reject .reservedAccessBits := by decide
theorem test_reject_missing_data : decodeItem [0xC0000010] = .reject .missingData := by decide
theorem test_reject_empty : decodeItem [] = .reject .endOfTrace := by decide

/-- No two rows of the opcode map share a word: some bit fixed by both differs. -/
theorem test_rows_disjoint : opRows.Pairwise (fun a b => a.bits &&& (a.mask &&& b.mask) ≠ b.bits &&& (a.mask &&& b.mask)) := by
  decide

/-- The host's question about a row: `WR` with an operand word of zeros, and `CONSTRUCT 1`. -/
theorem test_table_word_wr : decodeTableWord 32 0xC0000010 = some (.wr 0x010 0) := by decide
theorem test_table_word_construct : decodeTableWord 32 0x01000001 = some (.construct true) := by decide

/-! ### Small states -/

/-- Reset with a duty value the tests can compute with, as the vectors name it (MARK_DUTY = 0x200), and no divider. -/
def base : State :=
  { State.reset with params := { Params.default with tickPeriodUs := 0, markDuty := 0x200, base := 0x1000 } }

/-- An engine built with `active_low = al`, its timers at `us`, its buffer `buf`. -/
def engine (al : Bool) (us : Word) (buf : Train) : State :=
  let s := buildEngine al base
  { s with capture := { s.capture with ptimer := us, sinceEdge := us, cbuf := buf } }

/-- A work train and its length. -/
def withTrain (ps : Train) (s : State) : State :=
  { s with
    codec :=
      { s.codec with
        wbuf := overlay s.codec.wbuf (ps.map Pulse.toWord)
        wlen := ⟨ps.length % 129, Nat.mod_lt _ (by decide)⟩ } }

/-- The state after an operation, for looking at a field. -/
def after (i : Instr) (s : State) : State :=
  match exec i s with
  | .next t => t
  | .fault _ => s
  | .refused _ => s

/-- The values the operations leave in the read log. -/
def reads (is : List Instr) (s : State) : List Word :=
  match execAll is s with
  | .next t => t.harness.rdLog
  | .fault _ => []
  | .refused _ => []

def M (d : Nat) : Pulse := pulseOf true d
def S (d : Nat) : Pulse := pulseOf false d

/-! ### Commands -/

/-- V-HOST-11. -/
theorem test_nop : reads [.nop, .rd 0x004, .rd 0x008] base = [0, 0] := by decide
/-- 40_capture.md R105: `CONSTRUCT 1` from reset gives `STATUS = 0x41`. -/
theorem test_construct : reads [.construct true, .rd 0x004] base = [0x41] := by decide
/-- V-CAP-9 (b): unavailable hardware. -/
theorem test_construct_fatal :
    reads [.construct false, .rd 0x004, .rd 0x008, .clrerr, .rd 0x004, .rd 0x008]
      { base with params := { base.params with hwAvailable := false } } = [0x30, 0x4, 0x10, 0x0] := by decide
/-- V-CAP-9 (a). -/
theorem test_construct_twice :
    reads [.construct false, .construct true, .rd 0x004, .rd 0x008] base = [0x21, 0x3] := by decide
/-- V-CAP-8: the buffered pulses are discarded without a train, `STATUS = 0`. -/
theorem test_dispose :
    (after .dispose (engine false 300 [M 100, S 200, M 300])).notifLog = [] ∧
      reads [.dispose, .rd 0x020, .rd 0x004] (engine false 300 [M 100, S 200, M 300]) = [0, 0] := by decide
/-- V-HOST-7: the latest code wins, `NOP` does not clear, `CLRERR` clears. -/
theorem test_clrerr :
    reads [.wr 0 0x03000000, .wr 0 0x02000001, .rd 0x008, .nop, .rd 0x004, .rd 0x008, .clrerr, .rd 0x004, .rd 0x008] base
      = [0x2, 0x20, 0x2, 0x0, 0x0] := by decide
/-- V-ENC-5 (the first five spaces and the stop mark) through `ENCODE`. -/
theorem test_encode :
    ((after .encode (after (.wr 0x010 0x20DF10EF) base)).workTrain.take 8
      = [M 9000, S 4500, M 562, S 562, M 562, S 562, M 562, S 1687]) ∧
    ((after .encode (after (.wr 0x010 0x20DF10EF) base)).workTrain.drop 66 = [M 562]) := by decide
/-- V-SRC-8 and V-DEC-1. -/
theorem test_decode :
    reads [.decode, .rd 0x00C, .rd 0x014] (withTrain (encodeTrain 0x00FFFF00) base) = [1, 0x00FFFF00] := by decide
/-- V-DEC-4 (the literal stop space), V-DEC-7 (both edges of the long window), V-DEC-13 (junk before the header). -/
theorem test_decode_windows :
    decodeTrain (longWin base.params) ((encodeTrain 0x00FFFF00).set 66 (S 562)) = none ∧
    decodeTrain (longWin base.params) ((encodeTrain 0x00FFFF00).set 3 (S 1546)) = none ∧
    decodeTrain (longWin base.params) ((encodeTrain 0x00FFFF00).set 3 (S 1547)) = some 0x80FFFF00 ∧
    decodeTrain (longWin base.params) ([M 9000, S 100, M 100] ++ (encodeTrain 0x00FFFF00).drop 1)
      = some 0x00FFFF00 := by decide
/-- V-REP-1, V-REP-8, V-REP-9. -/
theorem test_isrepeat :
    reads [.isrepeat, .rd 0x00C] (withTrain [S 96188, M 9000, S 2250, M 562] base) = [3] ∧
    reads [.isrepeat, .rd 0x00C] (withTrain [S 20000, S 20000, M 9000, S 2250] base) = [4] := by decide
theorem test_isrepeat_totals :
    isRepeat [M 9000, S 2250, M 562, S 188] = true ∧ isRepeat [M 9000, S 2250, M 562, S 187] = false ∧
    isRepeat [M 9000, S 600, M 2500, M 562] = false := by decide
/-- V-SNAP-1. -/
theorem test_snap :
    (after .snap (after (.wr 0x01C 2) (after (.wr 0x044 100) (after (.wr 0x040 200)
      (withTrain [M 150, S 150, M 100, S 99, M 0] base))))).workTrain
      = [M 100, S 100, M 100, S 100, M 100] := by decide
/-- V-SNAP-2. -/
theorem test_snap_empty_set :
    reads [.snap, .rd 0x200, .rd 0x004, .rd 0x008] (withTrain [M 150] base) = [0x80000096, 0x20, 0x6] := by decide
/-- P4, right after `SEND`. -/
theorem test_send :
    reads [.send, .rd 0x004, .rd 0x030, .rd 0x034, .rd 0x038, .rd 0x03C] (withTrain [M 3, S 2, M 0, M 1] base)
      = [0x08, 4, 0, 3, 0x200] := by decide
/-- V-TX-3: a train of zero-length pulses completes inside `SEND`. -/
theorem test_send_zero_lengths :
    reads [.send, .rd 0x004, .rd 0x034, .rd 0x03C] (withTrain [M 0, S 0, M 0] base) = [0x0, 0x3, 0x0] := by decide

/-! ### Events -/

/-- P4 as the call form of `send` (30_encoding.md R95): 3 + 2 + 0 + 1 microseconds pass and `TX_BUSY` reads 0 at the end;
the last microsecond of them still reads 1. -/
theorem test_call_send :
    let ps := [M 3, S 2, M 0, M 1].map Pulse.toWord
    callSend ps base = loadTrainItems ps ++ [.send, .usec 6] ∧
    reads (callSend ps base ++ [.rd 0x004, .rd 0x034]) base = [0x00, 4] ∧
    reads (loadTrainItems ps ++ [.send, .usec 5, .rd 0x004]) base = [0x08] := by decide
/-- P4: after the fifth microsecond the zero-length mark has been passed over; V-TX-1. -/
theorem test_usec_tx :
    reads [.rd 0x034, .rd 0x038, .rd 0x03C] (after (.usec 5) (after .send (withTrain [M 3, S 2, M 0, M 1] base)))
      = [3, 1, 0x200] := by decide
/-- 40_capture.md R121: the divider's tick sees the incremented timer (4999 + 1 = 5000 flushes). -/
theorem test_usec_tick :
    (after (.usec 1) { engine false 4999 [M 100] with params := { base.params with tickPeriodUs := 1 } }).notifLog
      = [.train [M 100] .idle] := by decide
/-- V-CAP-1: the clamp and the silence exclusion at their bounds. -/
theorem test_edge_clamp :
    (after (.edge true) (engine false 49 [])).capture.cbuf = [S 50] ∧
    (after (.edge true) (engine false 249999 [])).notifLog = [.pulse (S 249999)] ∧
    (after (.edge true) (engine false 250000 [])).capture.cbuf = [] := by decide
/-- 40_capture.md R108 example and V-CAP-2: levels. -/
theorem test_edge_levels :
    (after (.edge true) (engine true 9000 [])).capture.cbuf = [M 9000] ∧
    (after (.edge false) (engine true 100 [])).capture.cbuf = [S 100] ∧
    (after (.edge false) (engine false 100 [])).capture.cbuf = [M 100] := by decide
/-- V-CAP-5: the idle threshold is inclusive. -/
theorem test_tick :
    (after .tick (engine false 4999 [M 100])).notifLog = [] ∧
    (after .tick (engine false 5000 [M 100])).notifLog = [.train [M 100] .idle] := by decide
/-- V-CAP-7: events without an engine. -/
theorem test_tick_unbuilt : (after .tick base).notifLog = [] ∧ (after (.edge false) base).notifLog = [] := by decide

/-! ### Host accesses -/

/-- V-HOST-8. -/
theorem test_wr_rd :
    reads [.wr 0x040 0xFFFFFFFF, .rd 0x040, .wr 0x3FC 0xDEADBEEF, .rd 0x3FC, .rd 0x000, .rd 0x400] base
      = [0x7FFFFFFF, 0xDEADBEEF, 0x0, 0x0] := by decide
/-- V-HOST-6 and V-HOST-6b. -/
theorem test_wr_lengths :
    reads [.wr 0x018 129, .rd 0x018, .rd 0x008, .wr 0x018 128, .rd 0x018] base = [0x0, 0x7, 0x80] ∧
    reads [.wr 0x01C 17, .rd 0x01C, .rd 0x008, .wr 0x01C 16, .rd 0x01C] base = [0x0, 0x7, 0x10] := by decide
/-- V-HOST-9: the bus errors. -/
theorem test_bus_errors :
    (∀ off ∈ [0x080, 0x1FC, 0x600, 0xFFC, 0x006], admitted (.rd off) = false) ∧
    (∀ off ∈ [0x004, 0x014, 0x400], admitted (.wr off 1) = false) := by decide
/-- 60_exceptions.md R200: the block goes on, as if the access had not been issued. -/
theorem test_bus_error_goes_on : reads [.rd 0x080, .wr 0x400 1, .wr 0x010 5, .rd 0x006, .rd 0x010, .rd 0x008] base = [5, 0] := by
  decide
/-- V-HOST-10: the last mapped word. -/
theorem test_rd_last : reads [.rd 0x5FC] base = [0x0] := by decide

/-! ### Fetching -/

/-- `step` runs the stored word: `CONSTRUCT 1` from reset. -/
theorem test_step_first :
    (match step (base.withFetchWord 32 0x01000001) with
      | .next t => (t.capture.constructed, t.harness.pc)
      | .fault _ => (false, 0)
      | .refused _ => (false, 0)) = (true, 1) := by decide

/-! ### The notification stream and the assembler -/

/-- 30_encoding.md R91: `PulseNotif(Pulse(1, 9000))`; P1's Idle train header `0x21000004`. -/
theorem test_notification_words :
    (Notification.pulse (M 9000)).words = [0x10000001, 0x80002328] ∧
    (Notification.train [S 40000, M 9000, S 2250, M 562] .idle).words
      = [0x21000004, 0x00009C40, 0x80002328, 0x000008CA, 0x80000232] := by decide
/-- 30_encoding.md R92: `WR WBUF[3], 0x80000232` is `WR 0x20C, 0x80000232`. -/
theorem test_asm_register :
    Asm.line ['W', 'R', ' ', 'W', 'B', 'U', 'F', '[', '3', ']', ',', ' ', 'M', '(', '5', '6', '2', ')', ' ', ';', ' ', 'x']
      = .op (.wr 0x20C 0x80000232) := by decide
theorem test_asm_usec :
    Asm.line ['U', 'S', 'E', 'C', ' ', '0', 'x', '2', '3', '2', '8'] = .op (.usec 9000) ∧
    Asm.line ['U', 'S', 'E', 'C', ' ', '1', '6', '7', '7', '7', '2', '1', '6'] = .bad := by decide

/-! ### Witnesses: every obligation that has hypotheses, on operands that meet all of them -/

/-- A ticking engine in the middle of a capture: one buffered pulse, quiet for 4999 µs, the divider (period 2) at 1. -/
def ticking : State :=
  let s := engine false 4999 [M 100]
  { s with
    capture := { s.capture with tickCnt := 1 }
    params := { s.params with tickPeriodUs := 2 }
    notifLog := [.pulse (M 100)] }

/-- A state whose trace is `ws`. -/
def running (ws : List Word) (s : State) : State := { s with harness := { s.harness with trace := ws } }

/-- A transmitter two microseconds into the first pulse of a train. -/
def sending : State := after (.usec 2) (after .send (withTrain [M 3, S 2, M 0, M 1] base))

theorem witness_params : base.params.Wf ∧ ticking.params.Wf := by decide

theorem witness_inv_base : base.Inv where
  params := witness_params.1
  cbufLen := by decide
  cbufCaptured := by decide
  inIsr := by decide
  lengths := by decide
  txBusy := fun h => absurd h (by decide)
  txIdle := fun _ => by decide
  notConstructed := fun _ => by decide
  timersEqual := fun h => absurd h (by decide)
  noError := fun _ => by decide
  fatalHw := fun h => absurd h (by decide)
  tickCnt := by decide
  txTrain := by decide
  errcode := by decide

theorem witness_inv_ticking : ticking.Inv where
  params := witness_params.2
  cbufLen := by decide
  cbufCaptured := by decide
  inIsr := by decide
  lengths := by decide
  txBusy := fun h => absurd h (by decide)
  txIdle := fun _ => by decide
  notConstructed := fun h => absurd h (by decide)
  timersEqual := fun _ => by decide
  noError := fun _ => by decide
  fatalHw := fun h => absurd h (by decide)
  tickCnt := by decide
  txTrain := by decide
  errcode := by decide

theorem witness_inv_sending : sending.Inv where
  params := witness_params.1
  cbufLen := by decide
  cbufCaptured := by decide
  inIsr := by decide
  lengths := by decide
  txBusy := fun _ => ⟨M 3, by decide⟩
  txIdle := fun h => absurd h (by decide)
  notConstructed := fun _ => by decide
  timersEqual := fun h => absurd h (by decide)
  noError := fun _ => by decide
  fatalHw := fun h => absurd h (by decide)
  tickCnt := by decide
  txTrain := by decide
  errcode := by decide

theorem witness_DecodeOfEncode :
    (Instr.wr 0xFFF 0xDEADBEEF).WellFormed = true ∧ (Instr.usec 0xFFFFFF).WellFormed = true := by decide
theorem witness_EncodeOfDecode :
    decodeItem [0xC0000FFF, 7, 8] = .item (.wr 0xFFF 7) 2 ∧ [0xC0000FFF, 7, 8].take 2 = encode (.wr 0xFFF 7) ∧
    decodeItem [0x7F000000] = .item (.wr 0 0x7F000000) 1 ∧ decodeCommand 0x7F000000 = .error .illegalOpc ∧
    decodeCommand 0x01000002 = .error .reservedArg := by decide
theorem witness_RowWords :
    ∀ r ∈ opRows, r.hits (r.bits ||| ~~~ r.mask) = true ∧ r.hits r.bits = true ∧ (r.words = 2 → [(0 : Word)] ≠ []) := by
  decide
/-- Each kind of ill-formed word, at the ends of its ranges. -/
theorem witness_IllFormed :
    [0x83000000, 0xBFFFFFFF, 0xC2000000, 0xFFFFFFFF].map (field · 31 24) = [0x83, 0xBF, 0xC2, 0xFF] ∧
    (field 0x81000002 31 24 = 0x81 ∧ field 0x81000002 23 1 ≠ 0) ∧ (field 0x82000001 31 24 = 0x82 ∧ field 0x82000001 23 0 ≠ 0) ∧
    (field 0xC0001000 31 24 = 0xC0 ∧ field 0xC0001000 23 12 ≠ 0) ∧ (field 0xC1800000 31 24 = 0xC1 ∧ field 0xC1800000 23 12 ≠ 0) ∧
    field 0xC0000010 31 24 = 0xC0 ∧
    (running [0xC0000010] base).harness.trace.drop (running [0xC0000010] base).harness.pc = [0xC0000010] ∧
    [0x82000000, 0x81000001, 0xC1000FFF].map (fun w => decodeItem [w])
      = [.item .tick 1, .item (.edge true) 1, .item (.rd 0xFFF) 1] :=
  ⟨by decide, by decide, by decide, by decide, by decide, by decide, by decide, by decide⟩
theorem witness_BareCommand : field 0x7FFFFFFF 31 24 < 0x80 ∧ field 0x00000000 31 24 < 0x80 := by decide
theorem witness_StepRuns :
    decodeItem ((running [0x82000000] ticking).harness.trace.drop (running [0x82000000] ticking).harness.pc)
      = .item .tick 1 ∧
    decodeItem ((running [0xC1000080] base).harness.trace.drop (running [0xC1000080] base).harness.pc)
      = .item (.rd 0x080) 1 := by decide
theorem witness_StepStops :
    (step base matches .refused .endOfTrace) ∧ (step (running [0x82000000] base) matches .next _) := by decide
theorem witness_Loaded :
    loadTrace [0xC0000010, 5, 0x12000000] base
      = .ok { base with harness := { trace := [0xC0000010, 5, 0x12000000], pc := 0, rdLog := [], busErrors := [] } } := rfl
theorem witness_StepMoves :
    (step (running [0xC0000010, 5] base) matches .next _) ∧ (step (running [0xC1000010] base) matches .next _) ∧
    (step (running [0x82000000] ticking) matches .next _) ∧ (step (running [0xC1000080] base) matches .next _) := by decide
theorem witness_ResetGives :
    (∃ s, assertReset sending = assertReset s) ∧ sending.tx.busy = true ∧ (assertReset sending).tx.busy = false :=
  ⟨⟨sending, rfl⟩, by decide, by decide⟩
theorem witness_EveryStep :
    ticking.LogLegal ∧ (step (running [0x80000001] ticking) matches .next _) ∧
      (step (running [0x80000001] sending) matches .next _) := ⟨by unfold State.LogLegal; decide, by decide, by decide⟩
theorem witness_Accounts :
    exec (.edge true) ticking = .next (after (.edge true) ticking) ∧ commandOf (.edge true) ≠ some .dispose ∧
    exec .dispose ticking = .next (after .dispose ticking) ∧ commandOf .dispose = some .dispose ∧
    commandOf (.wr 0 0x02000000) = some .dispose := ⟨rfl, by decide, rfl, rfl, by decide⟩
theorem witness_Fatal :
    exec (.construct true) { base with params := { base.params with hwAvailable := false } } = .next
      (raiseFatal .hwUnavailable { base with params := { base.params with hwAvailable := false } }) ∧
    base.err.fatal = false ∧ (raiseFatal .hwUnavailable base).err.fatal = true := ⟨rfl, rfl, rfl⟩
theorem witness_Admitted :
    busErrorOf (.wr 0x5FC 0) = some .readOnly ∧ busErrorOf (.rd 0x5FD) = some .misaligned ∧
    busErrorOf (.wr 0x600 0) = some .unmapped ∧ admitted (.rd 0x5FC) = true ∧ admitted .tick = true := by decide
/-- The ranges of the offsets: the first and last of each, and no aligned offset in two classes. -/
theorem witness_BusErrors :
    (∀ off ∈ [0x080, 0x1FC, 0x600, 0xFFC], regAt off = .error .unmapped) ∧
    (∀ off ∈ [0x000, 0x010, 0x018, 0x01C, 0x040, 0x07C, 0x200, 0x3FC], ((regAt off).map Reg.writable) = .ok true) ∧
    (∀ off ∈ [0x004, 0x008, 0x00C, 0x014, 0x020, 0x03C, 0x400, 0x5FC], ((regAt off).map Reg.writable) = .ok false) ∧
    (∀ off ∈ [0x001, 0x5FF, 0x082], regAt off = .error .misaligned) := by decide
theorem witness_BusErrors_disjoint (off : Nat) (h : off % 4 = 0) (hu : (0x080 ≤ off ∧ off < 0x200) ∨ 0x600 ≤ off) :
    ¬ (off < 0x080 ∨ (0x200 ≤ off ∧ off < 0x600)) := by omega
theorem witness_BusAccesses :
    memRead (base.params.base + 0xFFC) 4 base = .ok (.error .unmapped) ∧
    memRead (base.params.base + 0x000) 4 base = .ok (.ok 0) ∧ memRead base.params.base 2 base = .ok (.error .size) ∧
    memRead (base.params.base - 1) 4 base = .error .outsideWindow ∧
    memRead (base.params.base + 0x1000) 4 base = .error .outsideWindow := by decide
theorem witness_Construct :
    ticking.capture.constructed = true ∧ (base.capture.constructed = false ∧ base.params.hwAvailable = true) ∧
    ({ base with params := { base.params with hwAvailable := false } } : State).params.hwAvailable = false := by decide
/-- An edge that stores, one that is silence, one that overflows the buffer: 127 pulses and a pulse of 249999 µs. -/
theorem witness_Edge :
    let silent := engine true 250000 []
    let full := engine true 249999 (List.replicate 127 (M 100))
    ((M 100).level = ((!false) ^^ ticking.capture.activeLow) ∧
      (M 4999).us = max 50 (min ticking.capture.ptimer.toNat 250000) ∧ ticking.capture.cbuf.length + 1 < 128) ∧
    ((M 250000).level = ((!true) ^^ silent.capture.activeLow) ∧
      (M 250000).us = max 50 (min silent.capture.ptimer.toNat 250000) ∧ 250000 ≤ silent.capture.ptimer.toNat) ∧
    ((M 249999).level = ((!true) ^^ full.capture.activeLow) ∧
      (M 249999).us = max 50 (min full.capture.ptimer.toNat 250000) ∧ ¬ 250000 ≤ full.capture.ptimer.toNat ∧
      full.capture.constructed = true ∧ 128 ≤ (full.capture.cbuf ++ [M 249999]).length) :=
  ⟨by decide, by decide, by decide, by decide, by decide, by decide, by simp [engine]⟩
theorem witness_OneMicrosecond :
    ticking.capture.constructed = true ∧ ticking.params.tickPeriodUs ≠ 0 ∧
      ticking.capture.tickCnt.toNat + 1 = ticking.params.tickPeriodUs ∧ ticking.capture.cbuf ≠ [] ∧
      5000 ≤ min (ticking.capture.sinceEdge.toNat + 1) (2 ^ 32 - 1) := by decide
/-- A first gap that brings the timer to the last value below silence, and 127 more at their bound. -/
theorem witness_Overflow :
    let fresh := after .dispose ticking
    let built := after (.construct true) fresh
    built.Inv ∧ built.capture.constructed = true ∧ built.capture.cbuf = [] ∧
    built.capture.ptimer.toNat + 249999 < 250000 ∧ (List.replicate 127 ((4999 : Nat), true)).length = 127 ∧
    ∀ g ∈ List.replicate 127 ((4999 : Nat), true), g.1 < 5000 := by
  refine ⟨?_, by decide, by decide, by decide, by simp, by simp⟩
  exact
    { params := witness_params.2
      cbufLen := by decide
      cbufCaptured := by decide
      inIsr := by decide
      lengths := by decide
      txBusy := fun h => absurd h (by decide)
      txIdle := fun _ => by decide
      notConstructed := fun h => absurd h (by decide)
      timersEqual := fun _ => by decide
      noError := fun _ => by decide
      fatalHw := fun h => absurd h (by decide)
      tickCnt := by decide
      txTrain := by decide
      errcode := by decide }
theorem witness_QuietLine :
    5000 - ticking.capture.sinceEdge.toNat + ticking.params.tickPeriodUs ≤ 3 ∧
    ticking.capture.sinceEdge.toNat + 0 < 5000 := by decide
theorem witness_LongWindow : (562 < 563 ∧ 563 ≤ 1687 ∧ 1687 ≤ 1687) ∧ (562 < 1687 ∧ 1687 ≤ 1687 ∧ 1687 ≤ 1827) := by decide
theorem witness_Decode :
    decodeTrain (longWin base.params) (withTrain (encodeTrain 5) base).workTrain = some 5 ∧
    decodeTrain (longWin base.params) base.workTrain = none ∧ isRepeat base.workTrain = false ∧
    isRepeat (withTrain [S 96188, M 9000, S 2250, M 562] base).workTrain = true := by decide
theorem witness_Send :
    sending.tx.busy = true ∧ base.tx.busy = false ∧
    (∀ p ∈ (withTrain [M 0, S 0] base).workTrain, p.us = 0) ∧
    ((withTrain [M 0, S 2] base).workTrain[1]? = some (S 2) ∧ (S 2).us ≠ 0 ∧
      ∀ q, (withTrain [M 0, S 2] base).workTrain[0]? = some q → q.us = 0) := by
  refine ⟨by decide, by decide, by decide, by decide, by decide, fun q h => ?_⟩
  rw [show (withTrain [M 0, S 2] base).workTrain[0]? = some (M 0) by decide] at h
  cases h; decide
theorem witness_Timeline :
    (withTrain [M 3, S 2] base).tx.busy = false ∧
    exec .send (withTrain [M 3, S 2] base) = .next (after .send (withTrain [M 3, S 2] base)) ∧
    (withTrain [M 3, S 2] base).workTrain = [M 3, S 2] := ⟨by decide, rfl, by decide⟩
theorem witness_OnlySend :
    exec (.usec 9) sending = .next (after (.usec 9) sending) ∧ commandOf (.usec 9) ≠ some .send := ⟨rfl, by decide⟩
theorem witness_OnlyCapture :
    exec .snap ticking = .next (after .snap ticking) ∧ commandOf .snap ≠ some .dispose ∧
    ∀ al, commandOf .snap ≠ some (.construct al) := ⟨rfl, by decide, by decide⟩
theorem witness_Snap :
    base.codec.clen.val = 0 ∧ (after (.wr 0x01C 2) (withTrain [M 150] base)).codec.clen.val ≠ 0 ∧
    0 < (after (.wr 0x01C 2) (withTrain [M 150] base)).codec.wlen.val := by decide
theorem witness_NearestSet : ∀ x : Nat, x ∈ 100 :: [200, 100] ↔ x ∈ 200 :: [100] := by
  intro x; simp only [List.mem_cons, List.not_mem_nil, or_false]; omega
theorem witness_SnapRestores :
    ((encodeTrain 5).map fun p => pulseOf p.level (p.us - 562)).length = 67 ∧
    ∀ i < 67, ((encodeTrain 5).map fun p => pulseOf p.level (p.us - 562))[i]?.map (·.level)
      = (encodeTrain 5)[i]?.map (·.level) := by decide
theorem witness_Write :
    (∀ off ∈ [0x010, 0x040, 0x07C, 0x200, 0x3FC], off % 4 = 0) ∧ (128 : Word).toNat = (128 : Fin 129).val ∧
    128 < (129 : Word).toNat ∧ (16 : Word).toNat = (16 : Fin 17).val ∧ 16 < (17 : Word).toNat := by decide
theorem witness_CommandWords :
    field 0x03000000 31 24 ∉ [0x00, 0x01, 0x02, 0x0F, 0x10, 0x11, 0x12, 0x13, 0x20] ∧
    (field 0x01000002 31 24 = 0x01 ∧ field 0x01000002 23 1 ≠ 0) ∧ (field 0x01000001 31 24 = 0x01 ∧ field 0x01000001 23 1 = 0) ∧
    (field 0x02000001 31 24 = 0x02 ∧ field 0x02000001 23 0 ≠ 0) := by decide
theorem witness_OwnBytes :
    exec (.wr 0x018 300) base = .next (after (.wr 0x018 300) base) ∧
    exec (.wr 0x000 0x02000000) ticking = .next (after (.wr 0x000 0x02000000) ticking) ∧
    exec (.wr 0x000 0x03000000) base = .next (after (.wr 0x000 0x03000000) base) := ⟨rfl, rfl, rfl⟩
/-- `CONSTRUCT` with each codec command, and with `SNAP` in each of its two cases. -/
theorem witness_Commute :
    (Instr.decode ≠ .snap) ∧ (after (.wr 0x01C 2) base).codec.clen.val ≠ 0 ∧
    (base.codec.clen.val = 0 ∧ base.capture.constructed = false ∧ base.params.hwAvailable = true) := by decide
theorem witness_NopClrerr :
    (field 0x00000001 31 24 = 0x00 ∧ field 0x00000001 23 0 ≠ 0) ∧ (field 0x0F800000 31 24 = 0x0F ∧ field 0x0F800000 23 0 ≠ 0) := by
  decide
theorem witness_FatalSticky :
    (raiseFatal .hwUnavailable base).err.fatal = true ∧
    exec .clrerr (raiseFatal .hwUnavailable base) = .next (after .clrerr (raiseFatal .hwUnavailable base)) := ⟨rfl, rfl⟩
theorem witness_Tick :
    let s := after (.usec 2) { ticking with params := { ticking.params with tickPeriodUs := 0 } }
    (s.capture.constructed = true ∧ s.capture.inIsr = false ∧ s.capture.cbuf ≠ [] ∧ 5000 ≤ s.capture.sinceEdge.toNat) ∧
    ¬ (5000 ≤ ticking.capture.sinceEdge.toNat) := by decide
theorem witness_DisposeEvents : ticking.capture.constructed = true ∧ sending.capture.constructed = false := by decide
theorem witness_SnapIdempotent :
    exec .snap (after (.wr 0x01C 2) (withTrain [M 150] base))
      = .next (after .snap (after (.wr 0x01C 2) (withTrain [M 150] base))) := rfl

end Sys2Proof.Tests
end

section
/-! ## Laws of the state: what a command can do, and what each operation changes of the engine, the transmitter and the
error report -/

namespace Sys2Proof.Machine

/-! ### What a command can do -/

/-- The state after `DISPOSE` of an existing engine (40_capture.md R106). -/
def disposeEngine (s : State) : State :=
  { s with
    capture :=
      { s.capture with
        constructed := false, cbuf := [], rxPinCfg := { s.capture.rxPinCfg with interrupt := .none } } }

/-- What performing a command in `s` can lead to: each outcome with its condition. -/
inductive CommandEffect (s : State) : Command → State → Prop where
  | nop : CommandEffect s .nop s
  | alreadyConstructed {al : Bool} (hc : s.capture.constructed = true) :
      CommandEffect s (.construct al) (raiseCmdError .alreadyConstructed s)
  | hwUnavailable {al : Bool} (hc : s.capture.constructed = false) (hw : s.params.hwAvailable = false) :
      CommandEffect s (.construct al) (raiseFatal .hwUnavailable s)
  | constructed {al : Bool} (hc : s.capture.constructed = false) (hw : s.params.hwAvailable = true) :
      CommandEffect s (.construct al) (buildEngine al s)
  | disposed (hc : s.capture.constructed = true) : CommandEffect s .dispose (disposeEngine s)
  | nothingToDispose (hc : s.capture.constructed = false) : CommandEffect s .dispose s
  | clrerr : CommandEffect s .clrerr (clearCmdError s)
  | payload {r : Word} (h : decodeTrain (longWin s.params) s.workTrain = some r) :
      CommandEffect s .decode { s with codec := { s.codec with resKind := .payload, result := r } }
  | noResult (h : decodeTrain (longWin s.params) s.workTrain = none) :
      CommandEffect s .decode { s with codec := { s.codec with resKind := .noResult } }
  | isrepeat :
      CommandEffect s .isrepeat
        { s with codec := { s.codec with resKind := if isRepeat s.workTrain then .repeatYes else .repeatNo } }
  | encode :
      CommandEffect s .encode
        { s with
          codec :=
            { s.codec with
              wbuf := overlay s.codec.wbuf ((encodeTrain s.codec.payload).map Pulse.toWord), wlen := 67 } }
  | emptySet (h : s.canonSet = []) : CommandEffect s .snap (raiseCmdError .emptySet s)
  | snap {c : Nat} {cs : List Nat} (h : s.canonSet = c :: cs) :
      CommandEffect s .snap
        { s with
          codec :=
            { s.codec with
              wbuf := overlay s.codec.wbuf (s.workTrain.map fun p => (snapPulse c cs p).toWord) } }
  | txBusy (hb : s.tx.busy = true) : CommandEffect s .send (raiseCmdError .txBusy s)
  | sent (hb : s.tx.busy = false) : CommandEffect s .send { s with tx := startTrain s.params s.workTrain s.tx }

/-- The outcomes listed are reached, -/
theorem CommandEffect.runCommand_eq {c : Command} {s t : State} (h : CommandEffect s c t) :
    runCommand c s = .next t := by
  cases h with
  | alreadyConstructed hc => simp [runCommand, execConstruct, hc]
  | hwUnavailable hc hw => simp [runCommand, execConstruct, hc, hw]
  | constructed hc hw => simp [runCommand, execConstruct, hc, hw]
  | disposed hc => simp [runCommand, execDispose, hc, disposeEngine]
  | nothingToDispose hc => simp [runCommand, execDispose, hc]
  | payload h => simp [runCommand, execDecode, h]
  | noResult h => simp [runCommand, execDecode, h]
  | emptySet h => simp [runCommand, execSnap, h]
  | snap h => simp [runCommand, execSnap, h]
  | txBusy hb => simp [runCommand, execSend, hb]
  | sent hb => simp [runCommand, execSend, hb]
  | nop | clrerr | isrepeat | encode => rfl

/-- and in every state one of them is. -/
theorem commandEffect_total (c : Command) (s : State) : ∃ t, CommandEffect s c t := by
  cases c with
  | nop => exact ⟨_, .nop⟩
  | clrerr => exact ⟨_, .clrerr⟩
  | isrepeat => exact ⟨_, .isrepeat⟩
  | encode => exact ⟨_, .encode⟩
  | construct al =>
    cases hc : s.capture.constructed with
    | true => exact ⟨_, .alreadyConstructed hc⟩
    | false =>
      cases hw : s.params.hwAvailable with
      | true => exact ⟨_, .constructed hc hw⟩
      | false => exact ⟨_, .hwUnavailable hc hw⟩
  | dispose =>
    cases hc : s.capture.constructed with
    | true => exact ⟨_, .disposed hc⟩
    | false => exact ⟨_, .nothingToDispose hc⟩
  | decode =>
    cases h : decodeTrain (longWin s.params) s.workTrain with
    | some r => exact ⟨_, .payload h⟩
    | none => exact ⟨_, .noResult h⟩
  | snap =>
    cases h : s.canonSet with
    | nil => exact ⟨_, .emptySet h⟩
    | cons c cs => exact ⟨_, .snap h⟩
  | send =>
    cases hb : s.tx.busy with
    | true => exact ⟨_, .txBusy hb⟩
    | false => exact ⟨_, .sent hb⟩

/-- A command's outcome is the one `CommandEffect` lists. -/
theorem runCommand_effect {c : Command} {s t : State} (h : runCommand c s = .next t) : CommandEffect s c t := by
  obtain ⟨u, hu⟩ := commandEffect_total c s
  rw [hu.runCommand_eq] at h
  cases h
  exact hu

/-! ### What an operation changes of the engine, the transmitter and the error report -/

/-- What an operation can do to the engine. -/
theorem exec_engine {i : Instr} {s t : State} (h : exec i s = .next t) :
    (t.capture = s.capture ∧ t.notifLog = s.notifLog) ∨
    (∃ al, commandOf i = some (.construct al) ∧ t = buildEngine al s) ∨
    (commandOf i = some .dispose ∧ t = disposeEngine s) ∨
    (∃ l, i = .edge l ∧ t = onEngine (edgeEvent l) s) ∨
    (i = .tick ∧ t = onEngine idleCheck s) ∨
    ∃ n, i = .usec n ∧ t = usecMany n s := by
  cases exec_effect h with
  | command hc h =>
    cases runCommand_effect h with
    | constructed => exact .inr (.inl ⟨_, hc, rfl⟩)
    | disposed => exact .inr (.inr (.inl ⟨hc, rfl⟩))
    | _ => exact .inl ⟨rfl, rfl⟩
  | store hw hr h =>
    obtain ⟨hcap, -, hlog, -⟩ := writeReg_keeps hw hr h
    exact .inl ⟨hcap, hlog⟩
  | edge l => exact .inr (.inr (.inr (.inl ⟨l, rfl, rfl⟩)))
  | tick => exact .inr (.inr (.inr (.inr (.inl ⟨rfl, rfl⟩))))
  | time n => exact .inr (.inr (.inr (.inr (.inr ⟨n, rfl, rfl⟩))))
  | badWord _ | read _ | busError _ => exact .inl ⟨rfl, rfl⟩

/-- An operation that is no `SEND` touches the transmitter only as time. -/
theorem exec_tx_of_not_send {i : Instr} {s t : State} (h : exec i s = .next t) (hs : commandOf i ≠ some .send) :
    t.tx = s.tx ∨ ∃ n, i = .usec n ∧ t = usecMany n s := by
  cases exec_effect h with
  | command hc h =>
    cases runCommand_effect h with
    | sent => exact absurd hc hs
    | _ => exact .inl rfl
  | store hw hr h =>
    obtain ⟨-, htx, -⟩ := writeReg_keeps hw hr h
    exact .inl htx
  | time n => exact .inr ⟨n, rfl, rfl⟩
  | badWord _ | read _ | edge _ | tick | busError _ => exact .inl rfl

/-- A write to an operand register leaves the error report or reports a bad length. -/
theorem writeReg_err {r : Reg} {data : Word} {s t : State} (hr : r ≠ .cmd) (h : writeReg r data s = .next t) :
    t.err = s.err ∨ t.err = { s.err with cmdErr := true, errcode := CmdError.code .badLen } := by
  rcases writeReg_cases h with ⟨rfl, -⟩ | ⟨-, rfl⟩ | ⟨-, n, -, rfl⟩ | ⟨-, n, -, rfl⟩ | ⟨-, rfl⟩ | ⟨i, -, rfl⟩ |
    ⟨i, -, rfl⟩ | ⟨-, rfl⟩
  · exact absurd rfl hr
  · exact .inl rfl
  · exact .inl rfl
  · exact .inl rfl
  · exact .inr rfl
  · exact .inl rfl
  · exact .inl rfl
  · exact .inl rfl

/-- What an operation can do to the error report: nothing, raise a command error, raise the fatal one (with the hardware
unavailable), or clear. -/
theorem exec_err {i : Instr} {s t : State} (h : exec i s = .next t) :
    t.err = s.err ∨ (∃ e : CmdError, t.err = { s.err with cmdErr := true, errcode := e.code }) ∨
    (s.params.hwAvailable = false ∧ ∃ e : CmdError, t.err = { fatal := true, cmdErr := true, errcode := e.code }) ∨
    t.err = { s.err with cmdErr := false, errcode := 0 } := by
  cases exec_effect h with
  | command _ h =>
    cases runCommand_effect h with
    | alreadyConstructed | emptySet | txBusy => exact .inr (.inl ⟨_, rfl⟩)
    | hwUnavailable _ hw => exact .inr (.inr (.inl ⟨hw, _, rfl⟩))
    | clrerr => exact .inr (.inr (.inr rfl))
    | _ => exact .inl rfl
  | badWord _ => exact .inr (.inl ⟨_, rfl⟩)
  | store _ hr h =>
    rcases writeReg_err hr h with h | h
    · exact .inl h
    · exact .inr (.inl ⟨_, h⟩)
  | time n => exact .inl (usecMany_err n s)
  | read _ | edge _ | tick | busError _ => exact .inl rfl

/-! ### The invariants, part by part -/

/-- The clauses of `State.Inv` about the error report. -/
structure ErrorReport.Inv (hwAvailable : Bool) (e : ErrorReport) : Prop where
  noError : e.cmdErr = false → e.errcode = 0
  fatalHw : e.fatal = true → hwAvailable = false
  errcode : e.errcode.toNat ≤ 7

theorem State.Inv.transmitter {s : State} (h : s.Inv) : s.tx.Inv s.params := ⟨h.txBusy, h.txIdle, h.txTrain⟩

theorem State.Inv.report {s : State} (h : s.Inv) : s.err.Inv s.params.hwAvailable := ⟨h.noError, h.fatalHw, h.errcode⟩

/-- The invariants are those of the parameters, the engine, the transmitter and the error report. -/
theorem State.Inv.of_parts {s : State} (hp : s.params.Wf) (hc : s.capture.Inv s.params.tickPeriodUs)
    (ht : s.tx.Inv s.params) (he : s.err.Inv s.params.hwAvailable) : s.Inv where
  params := hp
  cbufLen := hc.cbufLen
  cbufCaptured := fun p hp => (captured_iff p).mp (hc.captured p hp)
  inIsr := hc.inIsr
  lengths := ⟨Nat.le_of_lt_succ s.codec.wlen.isLt, Nat.le_of_lt_succ s.codec.clen.isLt⟩
  txBusy := ht.busy
  txIdle := ht.idle
  notConstructed := hc.unbuilt
  timersEqual := hc.timers
  noError := he.noError
  fatalHw := he.fatalHw
  tickCnt := hc.tickCnt
  txTrain := ht.train
  errcode := he.errcode

/-- The invariants look at the block and the parameters alone: moving `pc` keeps them. -/
theorem State.Inv.advance {s : State} (h : s.Inv) (len : Nat) : (advance len s).Inv :=
  .of_parts h.params h.engine h.transmitter h.report

theorem Capture.Inv.good {period : Nat} {c : Capture} (h : c.Inv period) : Engine.Good period ⟨c, []⟩ :=
  ⟨h, fun _ hn => absurd hn List.not_mem_nil⟩

theorem exec_captureInv {i : Instr} {s t : State} (h : exec i s = .next t) (hp : s.params.Wf)
    (hc : s.capture.Inv s.params.tickPeriodUs) : t.capture.Inv s.params.tickPeriodUs := by
  rcases exec_engine h with ⟨he, -⟩ | ⟨al, -, rfl⟩ | ⟨-, rfl⟩ | ⟨l, -, rfl⟩ | ⟨-, rfl⟩ | ⟨n, -, rfl⟩
  · rw [he]; exact hc
  · exact ⟨by simp, by simp, rfl, fun _ => rfl, fun _ => rfl, by simp⟩
  · exact ⟨by simp [disposeEngine], by simp [disposeEngine], hc.inIsr, fun _ => rfl,
      fun hb => absurd hb Bool.false_ne_true, hc.tickCnt⟩
  · exact (edgeEvent_good hc.good).1
  · exact (idleCheck_good hc.good).1
  · obtain ⟨hperiod, -⟩ := hp
    exact usecMany_engine_induct (fun c _ => c.Inv s.params.tickPeriodUs) hc
      (fun _ _ hc => (engineUsec_good hperiod hc.good).1) n

/-- One microsecond keeps the transmitter's invariant: it takes one from the current pulse, or moves on to the start of
a later pulse. -/
theorem txUsec_inv {params : Params} {t : Transmitter} (h : t.Inv params) : (txUsec params t).Inv params := by
  cases hb : t.busy with
  | false => simpa [txUsec, hb] using h
  | true =>
    obtain ⟨p, hp, hrem, hduty⟩ := h.busy hb
    obtain ⟨hidx, -⟩ := List.getElem?_eq_some_iff.mp hp
    obtain ⟨hlen, -⟩ := h.train
    have hstep : txUsec params t = skipSpent params (t.train.drop (t.idx + 1)) { t with rem := t.rem - 1 } := by
      simp [txUsec, hb, txAdvance]
    rw [hstep]
    by_cases hz : t.rem - 1 = 0
    · exact (skipSpent_onTimeline _ { t with rem := t.rem - 1 } rfl hb hz hidx rfl).inv hlen
    · rw [skipSpent_of_rem hz]
      have hpos : 1 ≤ (t.rem - 1).toNat := Nat.one_le_iff_ne_zero.mpr fun h0 => hz (BitVec.eq_of_toNat_eq h0)
      exact ⟨fun _ => ⟨p, hp, hpos, hduty⟩, h.idle, hlen, fun hb' => absurd (hb'.symm.trans hb) Bool.false_ne_true⟩

theorem exec_txInv {i : Instr} {s t : State} (h : exec i s = .next t) (ht : s.tx.Inv s.params) :
    t.tx.Inv s.params := by
  rcases exec_tx h with he | ⟨hb, he⟩ | ⟨n, -, rfl⟩
  · rw [he]; exact ht
  · have hlen : s.workTrain.length ≤ 128 := by
      rw [workTrain_length]; exact Nat.le_of_lt_succ s.codec.wlen.isLt
    rw [he]
    exact (startTrain_onTimeline s.params s.workTrain s.tx hb).inv hlen
  · exact usecMany_tx_induct (Transmitter.Inv s.params) ht (fun _ => txUsec_inv) n

theorem CmdError.code_le (e : CmdError) : e.code.toNat ≤ 7 := by cases e <;> decide

theorem exec_errInv {i : Instr} {s t : State} (h : exec i s = .next t) (hi : s.err.Inv s.params.hwAvailable) :
    t.err.Inv s.params.hwAvailable := by
  rcases exec_err h with he | ⟨e, he⟩ | ⟨hw, e, he⟩ | he <;> rw [he]
  · exact hi
  · exact ⟨fun hc => absurd hc.symm Bool.false_ne_true, hi.fatalHw, e.code_le⟩
  · exact ⟨fun hc => absurd hc.symm Bool.false_ne_true, fun _ => hw, e.code_le⟩
  · exact ⟨fun _ => rfl, hi.fatalHw, Nat.zero_le _⟩

/-- Every operation keeps the invariants, from every state that has them. -/
theorem exec_inv {i : Instr} {s t : State} (h : exec i s = .next t) (hi : s.Inv) : t.Inv := by
  have hp := exec_params h
  refine .of_parts ?_ ?_ ?_ ?_ <;> rw [hp]
  · exact hi.params
  · exact exec_captureInv h hi.params hi.engine
  · exact exec_txInv h hi.transmitter
  · exact exec_errInv h hi.report

/-- Settles O13: a step is an operation, which keeps each part's invariant, and a move of `pc`. -/
theorem everyStepKeepsTheInvariants : Obligations.EveryStepKeepsTheInvariants := by
  unfold Obligations.EveryStepKeepsTheInvariants
  intro s t hi h
  obtain ⟨i, len, u, -, hu, rfl⟩ := step_next h
  exact (exec_inv hu hi).advance len

/-! ### The step -/

/-- Settles O10, from what an operation leaves of the setting and the length of an item. -/
theorem stepMovesForwardAndKeepsConfiguration : Obligations.StepMovesForwardAndKeepsConfiguration := by
  unfold Obligations.StepMovesForwardAndKeepsConfiguration
  intro s t h
  obtain ⟨i, len, u, hd, hu, rfl⟩ := step_next h
  obtain ⟨hlen, hfit⟩ := decodeItem_len hd
  rw [List.length_drop] at hfit
  have htrace := exec_trace hu
  have hpc := exec_pc hu
  have hbus : u.harness.busErrors = s.harness.busErrors ∨ ∃ c, u.harness.busErrors = s.harness.busErrors ++ [c] := by
    rw [exec_busErrors hu]
    cases busErrorOf i with
    | none => exact .inl (List.append_nil _)
    | some c => exact .inr ⟨c, rfl⟩
  have hread := exec_rdLog hu
  have hparams := exec_params hu
  refine ⟨hparams, htrace, ?_, ?_, hread, hbus⟩
  · simp only [advance_harness, hpc]; omega
  · simp only [advance_harness, hpc, htrace]; omega

/-! ### Noninterference: the history and the error report -/

/-- The state with another error report and another history. -/
def State.withReport (e : ErrorReport) (log : List Notification) (s : State) : State :=
  { s with err := e, notifLog := log }

/-- Where the report `e` before is that of `s`, the report `e'` after is that of `t`. -/
abbrev ReportFollows (s t : State) (e e' : ErrorReport) : Prop := e = s.err → e' = t.err

/-- Another report and history before a command change only the report and the history after it. -/
theorem runCommand_withReport {c : Command} {s t : State} (h : runCommand c s = .next t) (e : ErrorReport)
    (log : List Notification) :
    ∃ e', ReportFollows s t e e' ∧ runCommand c (s.withReport e log) = .next (t.withReport e' log) := by
  have key : ∃ e', ReportFollows s t e e' ∧ CommandEffect (s.withReport e log) c (t.withReport e' log) := by
    cases runCommand_effect h with
    | nop => exact ⟨e, id, .nop⟩
    | alreadyConstructed hc => exact ⟨_, fun he => he ▸ rfl, .alreadyConstructed hc⟩
    | hwUnavailable hc hw => exact ⟨_, fun _ => rfl, .hwUnavailable hc hw⟩
    | constructed hc hw => exact ⟨e, id, .constructed hc hw⟩
    | disposed hc => exact ⟨e, id, .disposed hc⟩
    | nothingToDispose hc => exact ⟨e, id, .nothingToDispose hc⟩
    | clrerr => exact ⟨_, fun he => he ▸ rfl, .clrerr⟩
    | payload hd => exact ⟨e, id, .payload hd⟩
    | noResult hd => exact ⟨e, id, .noResult hd⟩
    | isrepeat => exact ⟨e, id, .isrepeat⟩
    | encode => exact ⟨e, id, .encode⟩
    | emptySet hs => exact ⟨_, fun he => he ▸ rfl, .emptySet hs⟩
    | snap hs => exact ⟨e, id, .snap hs⟩
    | txBusy hb => exact ⟨_, fun he => he ▸ rfl, .txBusy hb⟩
    | sent hb => exact ⟨e, id, .sent hb⟩
  obtain ⟨e', hf, he⟩ := key
  exact ⟨e', hf, he.runCommand_eq⟩

theorem writeReg_wlen {data : Word} {n : Fin 129} (h : data.toNat = n.val) (s : State) :
    writeReg .wlen data s = .next { s with codec := { s.codec with wlen := n } } := by
  simp [writeReg, writeWlen, h]

theorem writeReg_clen {data : Word} {n : Fin 17} (h : data.toNat = n.val) (s : State) :
    writeReg .clen data s = .next { s with codec := { s.codec with clen := n } } := by
  simp [writeReg, writeClen, h]

theorem writeReg_badLen {r : Reg} {data : Word}
    (h : (r = .wlen ∧ 129 ≤ data.toNat) ∨ (r = .clen ∧ 17 ≤ data.toNat)) (s : State) :
    writeReg r data s = .next (raiseCmdError .badLen s) := by
  rcases h with ⟨rfl, h⟩ | ⟨rfl, h⟩
  · simp [writeReg, writeWlen, Nat.not_lt.mpr h]
  · simp [writeReg, writeClen, Nat.not_lt.mpr h]

/-- Another report and history before a write to an operand register change only the report and the history after it. -/
theorem writeReg_withReport {r : Reg} {data : Word} {s t : State} (hr : r ≠ .cmd)
    (h : writeReg r data s = .next t) (e : ErrorReport) (log : List Notification) :
    ∃ e', ReportFollows s t e e' ∧ writeReg r data (s.withReport e log) = .next (t.withReport e' log) := by
  rcases writeReg_cases h with ⟨rfl, -⟩ | ⟨rfl, rfl⟩ | ⟨rfl, n, hn, rfl⟩ | ⟨rfl, n, hn, rfl⟩ | ⟨hlen, rfl⟩ |
    ⟨i, rfl, rfl⟩ | ⟨i, rfl, rfl⟩ | ⟨hw, rfl⟩
  · exact absurd rfl hr
  · exact ⟨e, id, rfl⟩
  · exact ⟨e, id, writeReg_wlen hn _⟩
  · exact ⟨e, id, writeReg_clen hn _⟩
  · exact ⟨_, fun he => he ▸ rfl, writeReg_badLen hlen _⟩
  · exact ⟨e, id, rfl⟩
  · exact ⟨e, id, rfl⟩
  · exact ⟨e, id, writeReg_readOnly hw data _⟩

/-- One microsecond appends to the history and reads neither it nor the report, -/
theorem usecOne_withReport (e : ErrorReport) (log : List Notification) (s : State) :
    ∃ out, (usecOne s).notifLog = s.notifLog ++ out ∧
      usecOne (s.withReport e log) = (usecOne s).withReport e (log ++ out) := ⟨_, rfl, rfl⟩

/-- nor does any time. -/
theorem usecMany_withReport (n : Nat) (e : ErrorReport) (log : List Notification) (s : State) :
    ∃ new, (usecMany n s).notifLog = s.notifLog ++ new ∧
      usecMany n (s.withReport e log) = (usecMany n s).withReport e (log ++ new) := by
  induction n generalizing s log with
  | zero => exact ⟨[], (List.append_nil _).symm, by rw [List.append_nil]; rfl⟩
  | succ n ih =>
    obtain ⟨out, hout, hone⟩ := usecOne_withReport e log s
    obtain ⟨new, hlog, hrun⟩ := ih (log ++ out) (usecOne s)
    exact ⟨out ++ new, by rw [usecMany, hlog, hout, List.append_assoc],
      by rw [usecMany, hone, hrun, usecMany, List.append_assoc]⟩

/-- An engine step appends to the history and reads neither it nor the report. -/
theorem onEngine_withReport (f : Engine → Engine) (e : ErrorReport) (log : List Notification) (s : State) :
    onEngine f (s.withReport e log) = (onEngine f s).withReport e (log ++ (f ⟨s.capture, []⟩).out) := rfl

/-- An operation, with another report and history before it, does the same to everything else and appends the same `new`
to the history. -/
def ReportBlind (i : Instr) (s t : State) (e : ErrorReport) (log new : List Notification) : Prop :=
  t.notifLog = s.notifLog ++ new ∧
    ∃ e', ReportFollows s t e e' ∧ exec i (s.withReport e log) = .next (t.withReport e' (log ++ new))

theorem ReportBlind.of_silent {i : Instr} {s t : State} {e : ErrorReport} {log : List Notification}
    (hlog : t.notifLog = s.notifLog)
    (h : ∃ e', ReportFollows s t e e' ∧ exec i (s.withReport e log) = .next (t.withReport e' log)) :
    ReportBlind i s t e log [] := by
  unfold ReportBlind
  rw [List.append_nil, List.append_nil]
  exact ⟨hlog, h⟩

/-- Every operation but a read is blind to the report and the history. -/
theorem exec_reportBlind {i : Instr} {s t : State} (h : exec i s = .next t) (hr : ∀ off, i ≠ .rd off)
    (e : ErrorReport) (log : List Notification) : ∃ new, ReportBlind i s t e log new := by
  cases exec_effect h with
  | command hc h =>
    refine ⟨[], .of_silent (runCommand_setting h).2 ?_⟩
    rw [exec_commandOf hc]
    exact runCommand_withReport h e log
  | @badWord w err hd =>
    refine ⟨[], .of_silent rfl ⟨{ e with cmdErr := true, errcode := err.code }, fun he => he ▸ rfl, ?_⟩⟩
    rw [exec_wr_cmd, execCmd_error hd]
    rfl
  | store hw hcmd h =>
    obtain ⟨-, -, hlog, -⟩ := writeReg_keeps hw hcmd h
    refine ⟨[], .of_silent hlog ?_⟩
    rw [exec_wr_reg]
    exact writeReg_withReport hcmd h e log
  | read r => exact absurd rfl (hr r.offset)
  | time n =>
    obtain ⟨new, hlog, hrun⟩ := usecMany_withReport n e log s
    exact ⟨new, hlog, e, fun he => he.trans (usecMany_err n s).symm, by rw [exec_usec, hrun]⟩
  | edge l => exact ⟨_, rfl, e, id, congrArg _ (onEngine_withReport (edgeEvent l) e log s)⟩
  | tick => exact ⟨_, rfl, e, id, congrArg _ (onEngine_withReport idleCheck e log s)⟩
  | busError hb => exact ⟨[], .of_silent rfl ⟨e, id, exec_busError hb _⟩⟩

/-- A read is answered with a value or with a bus error, by its offset alone. -/
theorem exec_rd_cases (off : Nat) :
    (∃ c, ∀ s, exec (.rd off) s = .next (busError c s)) ∨
      ∃ r, ∀ s, exec (.rd off) s = .next (logRead (readReg r s) s) := by
  cases hr : regAt off with
  | error c => exact .inl ⟨c, execRd_error hr⟩
  | ok r => exact .inr ⟨r, execRd_ok hr⟩

/-- No register shows the history. -/
theorem readReg_notifLog (r : Reg) (s : State) (log : List Notification) :
    readReg r { s with notifLog := log } = readReg r s := by cases r <;> rfl

/-- Settles O16: a read appends nothing and shows nothing of the history; every other operation by `exec_reportBlind`
with the report it found. -/
theorem notificationHistoryIsWriteOnly : Obligations.NotificationHistoryIsWriteOnly := by
  unfold Obligations.NotificationHistoryIsWriteOnly
  intro i s old
  by_cases hr : ∃ off, i = .rd off
  · obtain ⟨off, rfl⟩ := hr
    rcases exec_rd_cases off with ⟨c, hx⟩ | ⟨r, hx⟩
    · exact ⟨_, [], hx s, (List.append_nil _).symm, by rw [hx, List.append_nil]; rfl⟩
    · exact ⟨_, [], hx s, (List.append_nil _).symm, by rw [hx, readReg_notifLog, List.append_nil]; rfl⟩
  · obtain ⟨t, ht⟩ := exec_total i s
    obtain ⟨new, hlog, e', hf, hrun⟩ := exec_reportBlind ht (fun off h => hr ⟨off, h⟩) s.err old
    rw [hf rfl] at hrun
    exact ⟨t, new, ht, hlog, hrun⟩

/-- Settles O17: two reads of a register differ in the value logged at most; every other operation by `exec_reportBlind`
with the history it found. -/
theorem errorFlagsGateNothing : Obligations.ErrorFlagsGateNothing := by
  unfold Obligations.ErrorFlagsGateNothing
  intro i s e
  by_cases hr : ∃ off, i = .rd off
  · obtain ⟨off, rfl⟩ := hr
    rcases exec_rd_cases off with ⟨c, hx⟩ | ⟨r, hx⟩
    · exact ⟨_, _, hx s, hx _, rfl, rfl, rfl, rfl, rfl, rfl, rfl, rfl, rfl, fun h => absurd rfl (h off)⟩
    · exact ⟨_, _, hx s, hx _, rfl, rfl, rfl, rfl, rfl, rfl, rfl, rfl, by simp, fun h => absurd rfl (h off)⟩
  · obtain ⟨t, ht⟩ := exec_total i s
    obtain ⟨new, hlog, e', -, hrun⟩ := exec_reportBlind ht (fun off h => hr ⟨off, h⟩) e s.notifLog
    exact ⟨t, _, ht, hrun, rfl, rfl, rfl, hlog.symm, rfl, rfl, rfl, rfl, rfl, fun _ => rfl⟩

/-! ### Frames -/

/-- Settles O36: pulse `i` of the work train is `Pulse.ofWord` of word `i`. -/
theorem workTrainIsTheFirstWlenWords : Obligations.WorkTrainIsTheFirstWlenWords := by
  unfold Obligations.WorkTrainIsTheFirstWlenWords
  intro s
  exact ⟨workTrain_length s, fun i h hw =>
    ⟨_, workTrain_get s h hw, Pulse.ofWord_level _, Pulse.ofWord_us _⟩⟩

/-- Settles O45: an operation that is no `SEND` touches the transmitter only as time, which keeps the latched train. -/
theorem onlySendAndTimeChangeTheTransmitter : Obligations.OnlySendAndTimeChangeTheTransmitter := by
  unfold Obligations.OnlySendAndTimeChangeTheTransmitter
  intro i s t h hs
  rcases exec_tx_of_not_send h hs with htx | ⟨n, rfl, rfl⟩
  · exact ⟨congrArg _ htx, fun _ => htx⟩
  · exact ⟨usecMany_train n s, fun hn => absurd rfl (hn n)⟩

/-- Settles O46: each of the other effects on the engine is one of the operations excluded. -/
theorem onlyCaptureOperationsChangeTheEngine : Obligations.OnlyCaptureOperationsChangeTheEngine := by
  unfold Obligations.OnlyCaptureOperationsChangeTheEngine
  intro i s t h hedge htick husec hconstruct hdispose
  rcases exec_engine h with hsame | ⟨al, hc, -⟩ | ⟨hc, -⟩ | ⟨l, hi, -⟩ | ⟨hi, -⟩ | ⟨n, hi, -⟩
  · exact hsame
  · exact absurd hc (hconstruct al)
  · exact absurd hc hdispose
  · exact absurd hi (hedge l)
  · exact absurd hi htick
  · exact absurd hi (husec n)

/-! ### What the registers read as -/

/-- A count of 8 bits is read whole. -/
theorem low8_toNat {n : Nat} (h : n < 256) : (low8 n).toNat = n := by
  simp only [low8, BitVec.toNat_ofNat]; omega

/-- The index of the current pulse never passes the latched train's length. -/
theorem Transmitter.Inv.idx_le {params : Params} {t : Transmitter} (h : t.Inv params) : t.idx ≤ t.train.length := by
  obtain ⟨-, hidle⟩ := h.train
  cases hb : t.busy with
  | false => exact (hidle hb).1.le
  | true =>
    obtain ⟨p, hp, -⟩ := h.busy hb
    exact (List.getElem?_eq_some_iff.mp hp).1.le

/-- The duty fits its `DUTY_W` bits. -/
theorem State.Inv.duty_lt {s : State} (h : s.Inv) : s.tx.duty.toNat < 2 ^ s.params.dutyW := by
  obtain ⟨-, -, -, -, -, -, -, hmark, -⟩ := h.params
  have hzero : (0 : Word).toNat < 2 ^ s.params.dutyW := Nat.two_pow_pos _
  cases hb : s.tx.busy with
  | false => rw [h.txIdle hb]; exact hzero
  | true =>
    obtain ⟨p, -, -, hd⟩ := h.txBusy hb
    rw [hd]
    split
    · exact hmark
    · exact hzero

theorem readReg_duty {s : State} (h : s.Inv) : readReg .duty s = s.tx.duty := by
  simp only [readReg, Nat.mod_eq_of_lt h.duty_lt, BitVec.ofNat_toNat, BitVec.setWidth_eq]

theorem readReg_reskind_toNat (s : State) : (readReg .reskind s).toNat = s.codec.resKind.code := by
  simp only [readReg]
  cases s.codec.resKind <;> rfl

theorem readReg_cbuf_some {i : Fin 128} {s : State} {p : Pulse} (h : s.capture.cbuf[i.val]? = some p) :
    readReg (.cbuf i) s = p.toWord := by simp [readReg, h]

theorem readReg_cbuf_past {i : Fin 128} {s : State} (h : s.capture.cbuf.length ≤ i.val) :
    readReg (.cbuf i) s = 0 := by simp [readReg, h]

/-- Settles O54: the invariants keep each count below 256 and the duty within `DUTY_W` bits, so both are read whole. -/
theorem registersReadTheirState : Obligations.RegistersReadTheirState := by
  unfold Obligations.RegistersReadTheirState
  intro s h
  have hwlen := s.codec.wlen.isLt
  have hclen := s.codec.clen.isLt
  have hcbuf := h.cbufLen
  obtain ⟨htrain, -⟩ := h.txTrain
  have hidx := h.transmitter.idx_le
  refine ⟨rfl, BitVec.toNat_setWidth_of_le (by decide), ?_, rfl, rfl, ?_, ?_, low8_toNat (by omega), rfl, rfl, rfl,
    low8_toNat (by omega), low8_toNat (by omega), BitVec.toNat_setWidth_of_le (by decide), readReg_duty h,
    fun i => BitVec.toNat_setWidth_of_le (by decide), fun i => rfl, fun i => ⟨fun p hp => ?_, readReg_cbuf_past⟩⟩
  · rw [readReg_reskind_toNat]; cases s.codec.resKind <;> rfl
  · exact Nat.mod_eq_of_lt (by omega)
  · exact Nat.mod_eq_of_lt (by omega)
  · rw [readReg_cbuf_some hp]
    exact ⟨p.toWord_level, p.toWord_us⟩

/-! ### Reset -/

/-- With every element of the block at its reset value every register reads 0, whatever the parameters. -/
theorem readReg_of_reset {t : State} (hcap : t.capture = State.reset.capture) (hcodec : t.codec = State.reset.codec)
    (htx : t.tx = State.reset.tx) (herr : t.err = State.reset.err) (r : Reg) : readReg r t = 0 := by
  cases r with
  | status => simp [readReg, State.status, State.capturing, hcap, htx, herr, State.reset]
  | duty => simp [readReg, htx, State.reset]
  | cset i => simp [readReg, hcodec, State.reset]
  | wbuf i => simp [readReg, hcodec, State.reset]
  | cbuf i => simp [readReg, hcap, State.reset]
  | cmd => rfl
  | _ => simp only [readReg, hcap, hcodec, htx, herr]; rfl

/-- Settles O11: both states have the reset values by definition. -/
theorem resetGivesTheResetValues : Obligations.ResetGivesTheResetValues := by
  unfold Obligations.ResetGivesTheResetValues
  exact ⟨⟨rfl, rfl, rfl, rfl, rfl, readReg_of_reset rfl rfl rfl rfl⟩,
    fun s => ⟨rfl, rfl, rfl, rfl, rfl, readReg_of_reset rfl rfl rfl rfl⟩⟩

theorem assertReset_inv {s : State} (h : s.params.Wf) : (assertReset s).Inv :=
  .of_parts h
    ⟨Nat.zero_le _, fun _ hp => absurd hp List.not_mem_nil, rfl, fun _ => rfl, fun _ => rfl, by simp [State.reset]⟩
    ⟨fun hb => absurd hb Bool.false_ne_true, fun _ => rfl, Nat.zero_le _, fun _ => ⟨rfl, rfl⟩⟩
    ⟨fun _ => rfl, fun hf => absurd hf Bool.false_ne_true, Nat.zero_le _⟩

theorem State.reset_params : State.reset.params = Params.default := rfl

/-- Settles O12: the reset state is what `rst` makes of itself, and its parameters are admissible. -/
theorem invariantsHoldAfterReset : Obligations.InvariantsHoldAfterReset := by
  unfold Obligations.InvariantsHoldAfterReset
  have hw : State.reset.params.Wf := State.reset_params ▸ default_wf
  exact ⟨assertReset_inv hw, fun _ => assertReset_inv⟩

/-! ### The bits of `STATUS` -/

/-- The flags of `STATUS`, bit 0 first. -/
def State.flags (s : State) : Fin 7 → Bool :=
  ![s.capture.constructed, s.capture.inIsr, s.capturing, s.tx.busy, s.err.fatal, s.err.cmdErr, s.capture.activeLow]

theorem status_eq_ofBits (s : State) : s.status = BitVec.ofNat 32 (Nat.ofBits s.flags) := by
  unfold State.status State.flags
  congr 1
  simp only [Nat.ofBits_succ, Nat.ofBits_zero, Function.comp_apply, Fin.isValue, Fin.succ_zero_eq_one,
    Fin.succ_one_eq_two, Fin.reduceSucc, Matrix.cons_val, Matrix.cons_val_one, Matrix.cons_val_zero]
  omega

/-- Bit `k` of `STATUS` is flag `k`, -/
theorem status_bit (s : State) (k : Fin 7) : s.status.getLsbD k = s.flags k := by
  have hk : k.val < 32 := by omega
  rw [status_eq_ofBits, BitVec.getLsbD_ofNat, Nat.testBit_ofBits_lt _ _ k.isLt]
  simp [hk]

/-- and there is no other. -/
theorem status_bit_ge (s : State) {k : Nat} (hk : 7 ≤ k) : s.status.getLsbD k = false := by
  rw [status_eq_ofBits, BitVec.getLsbD_ofNat, Nat.testBit_ofBits_ge _ _ hk, Bool.and_false]

theorem capturing_eq (s : State) : s.capturing = decide (s.capture.cbuf ≠ []) := by
  unfold State.capturing
  cases s.capture.cbuf <;> rfl

/-- Settles O55: each bit by `status_bit`; a write to `STATUS` is a bus error. -/
theorem statusBits : Obligations.StatusBits := by
  unfold Obligations.StatusBits
  intro s
  have hwrite (d : Word) : exec (.wr 0x004 d) s = .next (busError .readOnly s) := exec_busError rfl s
  have hisr : s.status.getLsbD 1 = s.capture.inIsr := status_bit s 1
  have hcap : s.status.getLsbD 2 = s.capturing := status_bit s 2
  exact ⟨exec_rd_reg .status s, fun d => ⟨_, hwrite d⟩, fun h => hisr.trans h.inIsr, status_bit s 0, hisr,
    hcap.trans (capturing_eq s), status_bit s 3, status_bit s 4, status_bit s 5, status_bit s 6,
    fun k => status_bit_ge s⟩

end Sys2Proof.Machine
end

section
/-! ## Host accesses and what operations leave of the register window: bus errors, the account of every pulse, bytes,
and codec commands beside capture -/

namespace Sys2Proof.Machine

/-! ### The account of every pulse (40_capture.md R114) -/

/-- From `s` to `t` the history grows, and the buffer before with the pulses newly notified is the trains newly emitted
with the buffer after. -/
def Accounted (s t : State) : Prop :=
  ∃ new, t.notifLog = s.notifLog ++ new ∧
    s.capture.cbuf ++ notifiedPulses new = trainPulses new ++ t.capture.cbuf

theorem Accounted.of_silent {s t : State} (hlog : t.notifLog = s.notifLog) (hbuf : t.capture.cbuf = s.capture.cbuf) :
    Accounted s t :=
  ⟨[], by rw [hlog, List.append_nil], by rw [hbuf]; simp [notifiedPulses, trainPulses]⟩

theorem Accounted.trans {s t u : State} (hst : Accounted s t) (htu : Accounted t u) : Accounted s u := by
  obtain ⟨new, hlog, hbuf⟩ := hst
  obtain ⟨new', hlog', hbuf'⟩ := htu
  refine ⟨new ++ new', by rw [hlog', hlog, List.append_assoc], ?_⟩
  calc s.capture.cbuf ++ notifiedPulses (new ++ new')
      = trainPulses new ++ (t.capture.cbuf ++ notifiedPulses new') := by
        rw [notifiedPulses_append, ← List.append_assoc, hbuf, List.append_assoc]
    _ = trainPulses (new ++ new') ++ u.capture.cbuf := by
        rw [hbuf', trainPulses_append, List.append_assoc]

/-- An engine step that accounts for every pulse makes a step of the machine that does. -/
theorem onEngine_accounted {f : Engine → Engine} {s : State} (hf : Accounts s.capture.cbuf (f ⟨s.capture, []⟩)) :
    Accounted s (onEngine f s) := ⟨_, rfl, hf⟩

theorem usecOne_accounted (s : State) : Accounted s (usecOne s) :=
  ⟨_, usecOne_notifLog s, engineUsec_accounts (Accounts.start s.capture)⟩

theorem usecMany_accounted (n : Nat) (s : State) : Accounted s (usecMany n s) := by
  induction n generalizing s with
  | zero => exact .of_silent rfl rfl
  | succ n ih => exact (usecOne_accounted s).trans (ih (usecOne s))

/-- A command other than `DISPOSE` keeps the buffer: `CONSTRUCT` empties one that is empty already, for there was no
engine. -/
theorem CommandEffect.cbuf_eq {c : Command} {s t : State} (h : CommandEffect s c t) (hi : s.Inv) (hc : c ≠ .dispose) :
    t.capture.cbuf = s.capture.cbuf := by
  cases h with
  | constructed hb hw => exact (hi.notConstructed hb).symm
  | disposed hb => exact absurd rfl hc
  | _ => rfl

theorem exec_accounted {i : Instr} {s t : State} (h : exec i s = .next t) (hi : s.Inv)
    (hd : commandOf i ≠ some .dispose) : Accounted s t := by
  cases exec_effect h with
  | command hc h =>
    have hne := fun hcd => hd (hc.trans (congrArg some hcd))
    exact .of_silent (runCommand_setting h).2 ((runCommand_effect h).cbuf_eq hi hne)
  | store hw hr h =>
    obtain ⟨hcap, -, hlog, -⟩ := writeReg_keeps hw hr h
    exact .of_silent hlog (congrArg _ hcap)
  | time n => exact usecMany_accounted n s
  | edge l => exact onEngine_accounted (edgeEvent_accounts (Accounts.start s.capture))
  | tick => exact onEngine_accounted (idleCheck_accounts (Accounts.start s.capture))
  | badWord _ | read _ | busError _ => exact .of_silent rfl rfl

/-- A `DISPOSE` empties the buffer; where there is no engine it is empty by the invariants. -/
theorem runCommand_dispose_cbuf {s t : State} (h : runCommand .dispose s = .next t) (hi : s.Inv) :
    t.capture.cbuf = [] := by
  cases runCommand_effect h with
  | disposed hc => rfl
  | nothingToDispose hc => exact hi.notConstructed hc

/-- Settles O15: each effect of an operation keeps the account; over time, microsecond by microsecond. -/
theorem everyPulseIsInOneTrainOrTheBuffer : Obligations.EveryPulseIsInOneTrainOrTheBuffer := by
  unfold Obligations.EveryPulseIsInOneTrainOrTheBuffer
  intro i s t hi h
  refine ⟨exec_accounted h hi, fun hd => ?_⟩
  rw [exec_commandOf hd] at h
  exact ⟨(runCommand_setting h).2, runCommand_dispose_cbuf h hi⟩

/-! ### Bus errors -/

/-- Settles O19, from the laws of an operation as a whole. -/
theorem everyAdmittedOperationCompletes : Obligations.EveryAdmittedOperationCompletes := by
  unfold Obligations.EveryAdmittedOperationCompletes
  intro i s
  obtain ⟨t, ht⟩ := exec_total i s
  refine ⟨t, ht, fun c hc => ?_, fun ha => ?_⟩
  · rw [exec_busError hc] at ht
    cases ht
    rfl
  · have hnone : busErrorOf i = none := Option.isNone_iff_eq_none.mp ha
    rw [exec_busErrors ht, hnone, Option.toList_none, List.append_nil]

theorem exec_wr_error {off : Nat} {c : BusCause} (h : regAt off = .error c) (data : Word) (s : State) :
    exec (.wr off data) s = .next (busError c s) := execWr_error h data s

theorem exec_rd_error {off : Nat} {c : BusCause} (h : regAt off = .error c) (s : State) :
    exec (.rd off) s = .next (busError c s) := execRd_error h s

/-- A register is at every aligned offset of the mapped ranges. -/
theorem exists_reg_offset {off : Nat} (h : off % 4 = 0) (hm : off < 0x080 ∨ (0x200 ≤ off ∧ off < 0x600)) :
    ∃ r : Reg, r.offset = off := by
  have found {r : Reg} (hr : regAt off = .ok r) : ∃ r : Reg, r.offset = off := ⟨r, offset_of_regAt hr⟩
  by_cases hfixed : off < 0x040
  · obtain ⟨r, hr, -⟩ := regAt_fixed h hfixed
    exact found hr
  by_cases hcset : off < 0x080
  · obtain ⟨i, -, hr⟩ := regAt_cset h (Nat.le_of_not_lt hfixed) hcset
    exact found hr
  by_cases hwbuf : off < 0x400
  · obtain ⟨i, -, hr⟩ := regAt_wbuf h (by omega) hwbuf
    exact found hr
  · obtain ⟨i, -, hr⟩ := regAt_cbuf h (Nat.le_of_not_lt hwbuf) (by omega)
    exact found hr

/-- The registers the host may write, by offset (10_state.md R38). -/
theorem writable_iff_offset (r : Reg) :
    r.writable = true ↔ r.offset = 0x000 ∨ r.offset = 0x010 ∨ r.offset = 0x018 ∨ r.offset = 0x01C ∨
      (0x040 ≤ r.offset ∧ r.offset < 0x080) ∨ (0x200 ≤ r.offset ∧ r.offset < 0x400) := by
  cases r with
  | cset i | wbuf i | cbuf i =>
    have hi := i.isLt
    simp only [Reg.writable, Reg.offset, Bool.false_eq_true, true_iff, false_iff]
    omega
  | _ => decide

/-- A write to a writable register leaves the harness alone. -/
theorem writeReg_harness {r : Reg} {data : Word} {s t : State} (hw : r.writable = true)
    (h : writeReg r data s = .next t) : t.harness = s.harness := by
  by_cases hr : r = .cmd
  · subst hr
    exact (execCmd_setting h).1.harness
  · obtain ⟨-, -, -, -, hset⟩ := writeReg_keeps hw hr h
    exact hset.harness

/-- Settles O20: `regAt` answers by alignment and range, and the register found is writable by its offset. -/
theorem busErrorsByOffset : Obligations.BusErrorsByOffset := by
  unfold Obligations.BusErrorsByOffset
  intro off data s
  refine ⟨fun hmis => ?_, fun h4 hun => ?_, fun h4 hm => ?_, fun h4 hw => ?_, fun h4 hro => ?_⟩
  · have hr := regAt_misaligned hmis
    exact ⟨exec_wr_error hr data s, exec_rd_error hr s⟩
  · have hr := regAt_unmapped h4 hun
    exact ⟨exec_wr_error hr data s, exec_rd_error hr s⟩
  · obtain ⟨r, rfl⟩ := exists_reg_offset h4 hm
    exact ⟨_, exec_rd_reg r s⟩
  · obtain ⟨r, rfl⟩ := exists_reg_offset h4 (by omega)
    obtain ⟨t, ht⟩ := writeReg_next r data s
    exact ⟨t, (exec_wr_reg r data s).trans ht, writeReg_harness ((writable_iff_offset r).mpr hw) ht⟩
  · obtain ⟨r, rfl⟩ := exists_reg_offset h4 (by omega)
    have hw : r.writable = false := Bool.eq_false_iff.mpr fun hw => by
      have := (writable_iff_offset r).mp hw
      omega
    exact (exec_wr_reg r data s).trans (writeReg_readOnly hw data s)

/-! ### The host bus and reads -/

theorem windowOffset_inside {off : Nat} (h : off < 0x1000) (s : State) :
    windowOffset (s.params.base + off) s = some off := by
  unfold windowOffset
  rw [if_pos ⟨Nat.le_add_right _ _, Nat.add_lt_add_left h _⟩, Nat.add_sub_cancel_left]

theorem windowOffset_outside {addr : Nat} {s : State} (h : addr < s.params.base ∨ s.params.base + 0x1000 ≤ addr) :
    windowOffset addr s = none := by
  unfold windowOffset
  exact if_neg (by omega)

/-- A word access of the bus in the window is the access of the register at its offset. -/
theorem memWrite_word {off : Nat} (h : off < 0x1000) (v : Word) (s : State) :
    memWrite (s.params.base + off) 4 v s = exec (.wr off v) s := by
  simp [memWrite, windowOffset_inside h, exec]

theorem memRead_word {off : Nat} (h : off < 0x1000) (s : State) :
    memRead (s.params.base + off) 4 s = .ok ((regAt off).map (readReg · s)) := by
  simp [memRead, windowOffset_inside h]

/-- Settles O21: the window's offset of the address, then the size, then the register at the offset. -/
theorem busAccessesAreWordAccessesAtBase : Obligations.BusAccessesAreWordAccessesAtBase := by
  unfold Obligations.BusAccessesAreWordAccessesAtBase
  intro s addr n off v
  refine ⟨fun h hn => ?_, fun h => ⟨memWrite_word h v s, ?_⟩, fun h => ?_⟩
  · simp [memWrite, memRead, windowOffset_inside h, hn, busError]
  · rw [memRead_word h]
    cases hr : regAt off with
    | ok r => exact .inl ⟨_, rfl, execRd_ok hr s⟩
    | error c => exact .inr ⟨_, rfl, exec_rd_error hr s⟩
  · simp [memWrite, memRead, windowOffset_outside h]

/-- Settles O53: the register at a register's offset is that register. -/
theorem readLogsTheRegisterValue : Obligations.ReadLogsTheRegisterValue := by
  unfold Obligations.ReadLogsTheRegisterValue
  exact exec_rd_reg

/-! ### Codec commands beside capture and time (20_memory.md R69) -/

/-- The state with another codec and another error report. -/
def State.withCodec (k : Codec) (r : ErrorReport) (s : State) : State := { s with codec := k, err := r }

/-- In states with the codec `k` and the parameters `p`, an operation makes `k'` of the codec and `report` of the error
report, whatever they hold besides, and does no more. -/
def ActsOnCodec (i : Instr) (p : Params) (k k' : Codec) (report : ErrorReport → ErrorReport) : Prop :=
  ∀ (u : State) (r : ErrorReport), u.params = p → exec i (u.withCodec k r) = .next (u.withCodec k' (report r))

/-- From `s`, an operation leads to `t` but for the codec, which it keeps whatever it holds, and the error report, of
which it makes `report`. -/
def ActsBesideCodec (i : Instr) (s t : State) (report : ErrorReport → ErrorReport) : Prop :=
  t.params = s.params ∧ ∀ (k : Codec) (r : ErrorReport), exec i (s.withCodec k r) = .next (t.withCodec k (report r))

/-- `raiseCmdError` on the report alone. -/
def ErrorReport.raised (e : CmdError) (r : ErrorReport) : ErrorReport := { r with cmdErr := true, errcode := e.code }

theorem decode_actsOnCodec (s : State) : ∃ k', ActsOnCodec .decode s.params s.codec k' id := by
  cases h : decodeTrain (longWin s.params) s.workTrain with
  | some x =>
    refine ⟨{ s.codec with resKind := .payload, result := x }, fun u r hp => ?_⟩
    exact (CommandEffect.payload (s := u.withCodec s.codec r) (by rw [← h, ← hp]; rfl)).runCommand_eq
  | none =>
    refine ⟨{ s.codec with resKind := .noResult }, fun u r hp => ?_⟩
    exact (CommandEffect.noResult (s := u.withCodec s.codec r) (by rw [← h, ← hp]; rfl)).runCommand_eq

theorem snap_actsOnCodec (s : State) :
    ∃ k' report, (s.codec.clen.val ≠ 0 → report = id) ∧ ActsOnCodec .snap s.params s.codec k' report := by
  cases h : s.canonSet with
  | nil =>
    have hlen : s.codec.clen.val = 0 := by rw [← canonSet_length, h, List.length_nil]
    exact ⟨s.codec, .raised .emptySet, fun hne => absurd hlen hne, fun u r _ =>
      (CommandEffect.emptySet (s := u.withCodec s.codec r) h).runCommand_eq⟩
  | cons c cs =>
    exact ⟨{ s.codec with wbuf := overlay s.codec.wbuf (s.workTrain.map fun p => (snapPulse c cs p).toWord) }, id,
      fun _ => rfl, fun u r _ => (CommandEffect.snap (s := u.withCodec s.codec r) h).runCommand_eq⟩

/-- A codec command acts on the codec; only `SNAP` with an empty set acts on the error report. -/
theorem codecCommand_actsOnCodec {c : Instr} (hc : c = .decode ∨ c = .isrepeat ∨ c = .encode ∨ c = .snap) (s : State) :
    ∃ k' report, (c ≠ .snap ∨ s.codec.clen.val ≠ 0 → report = id) ∧ ActsOnCodec c s.params s.codec k' report := by
  rcases hc with rfl | rfl | rfl | rfl
  · obtain ⟨k', h⟩ := decode_actsOnCodec s
    exact ⟨k', id, fun _ => rfl, h⟩
  · exact ⟨{ s.codec with resKind := if isRepeat s.workTrain then .repeatYes else .repeatNo }, id, fun _ => rfl,
      fun _ _ _ => rfl⟩
  · exact ⟨{ s.codec with wbuf := overlay s.codec.wbuf ((encodeTrain s.codec.payload).map Pulse.toWord), wlen := 67 },
      id, fun _ => rfl, fun _ _ _ => rfl⟩
  · obtain ⟨k', report, hid, h⟩ := snap_actsOnCodec s
    exact ⟨k', report, fun hne => hid (hne.resolve_left fun hsnap => hsnap rfl), h⟩

theorem usecMany_withCodec (n : Nat) (k : Codec) (r : ErrorReport) (s : State) :
    usecMany n (s.withCodec k r) = (usecMany n s).withCodec k r := by
  induction n generalizing s with
  | zero => rfl
  | succ n ih => exact ih (usecOne s)

theorem usec_actsBesideCodec (n : Nat) (s : State) : ActsBesideCodec (.usec n) s (usecMany n s) id :=
  ⟨usecMany_params n s, fun k r => by rw [exec_usec, usecMany_withCodec]; rfl⟩

theorem dispose_actsBesideCodec (s : State) : ∃ t, ActsBesideCodec .dispose s t id := by
  cases hc : s.capture.constructed with
  | true => exact ⟨disposeEngine s, rfl, fun k r =>
      (CommandEffect.disposed (s := s.withCodec k r) hc).runCommand_eq⟩
  | false => exact ⟨s, rfl, fun k r => (CommandEffect.nothingToDispose (s := s.withCodec k r) hc).runCommand_eq⟩

theorem construct_actsBesideCodec (al : Bool) (s : State) :
    ∃ t report, (s.capture.constructed = false ∧ s.params.hwAvailable = true → report = id) ∧
      ActsBesideCodec (.construct al) s t report := by
  cases hc : s.capture.constructed with
  | true =>
    exact ⟨s, .raised .alreadyConstructed, fun h => absurd h.1 (by simp), rfl, fun k r =>
      (CommandEffect.alreadyConstructed (s := s.withCodec k r) hc).runCommand_eq⟩
  | false =>
    cases hw : s.params.hwAvailable with
    | true =>
      exact ⟨buildEngine al s, id, fun _ => rfl, rfl, fun k r =>
        (CommandEffect.constructed (s := s.withCodec k r) hc hw).runCommand_eq⟩
    | false =>
      exact ⟨s, fun _ => { fatal := true, cmdErr := true, errcode := CmdError.code .hwUnavailable },
        fun h => absurd h.2 (by simp), rfl, fun k r =>
          (CommandEffect.hwUnavailable (s := s.withCodec k r) hc hw).runCommand_eq⟩

/-- The operations on the engine and time (the right-hand side of 20_memory.md R69). -/
def CaptureOperation (e : Instr) : Prop :=
  e = .tick ∨ e = .dispose ∨ (∃ l, e = .edge l) ∨ (∃ n, e = .usec n) ∨ ∃ al, e = .construct al

/-- Capture and time act beside the codec; only a refused `CONSTRUCT` acts on the error report. -/
theorem captureOperation_actsBesideCodec {e : Instr} (he : CaptureOperation e) (s : State) :
    ∃ t report, ((∀ al, e ≠ .construct al) ∨ (s.capture.constructed = false ∧ s.params.hwAvailable = true) →
        report = id) ∧ ActsBesideCodec e s t report := by
  rcases he with rfl | rfl | ⟨l, rfl⟩ | ⟨n, rfl⟩ | ⟨al, rfl⟩
  · exact ⟨onEngine idleCheck s, id, fun _ => rfl, rfl, fun _ _ => rfl⟩
  · obtain ⟨t, h⟩ := dispose_actsBesideCodec s
    exact ⟨t, id, fun _ => rfl, h⟩
  · exact ⟨onEngine (edgeEvent l) s, id, fun _ => rfl, rfl, fun _ _ => rfl⟩
  · exact ⟨_, id, fun _ => rfl, usec_actsBesideCodec n s⟩
  · obtain ⟨t, report, hid, h⟩ := construct_actsBesideCodec al s
    exact ⟨t, report, fun hne => hid (hne.resolve_left fun hall => hall al rfl), h⟩

/-- An operation on the codec and one beside it commute where what they make of the error report does. -/
theorem ActsOnCodec.commute {c e : Instr} {s t : State} {k' : Codec} {f g : ErrorReport → ErrorReport}
    (hc : ActsOnCodec c s.params s.codec k' f) (he : ActsBesideCodec e s t g) (hfg : g (f s.err) = f (g s.err)) :
    ∃ u, execAll [c, e] s = .next u ∧ execAll [e, c] s = .next u := by
  obtain ⟨hp, he⟩ := he
  refine ⟨t.withCodec k' (g (f s.err)), ?_, ?_⟩
  · calc execAll [c, e] s = execAll [e] (s.withCodec k' (f s.err)) := execAll_cons_next (hc s s.err rfl)
      _ = .next (t.withCodec k' (g (f s.err))) := execAll_cons_next (he k' (f s.err))
  · calc execAll [e, c] s = execAll [c] (t.withCodec s.codec (g s.err)) := execAll_cons_next (he s.codec s.err)
      _ = .next (t.withCodec k' (f (g s.err))) := execAll_cons_next (hc t (g s.err) hp)
      _ = .next (t.withCodec k' (g (f s.err))) := by rw [hfg]

/-- Settles O47: the one acts on the codec, the other beside it, and not both on the error report. -/
theorem codecCommandsCommuteWithCapture : Obligations.CodecCommandsCommuteWithCapture := by
  unfold Obligations.CodecCommandsCommuteWithCapture
  intro c e s hc he
  have hcapture : CaptureOperation e := he.imp_right (.imp_right (.imp_right (.imp_right And.left)))
  obtain ⟨k', f, hf, hcodec⟩ := codecCommand_actsOnCodec hc s
  obtain ⟨t, g, hg, hbeside⟩ := captureOperation_actsBesideCodec hcapture s
  have hquiet : f = id ∨ g = id := by
    rcases he with rfl | rfl | ⟨l, rfl⟩ | ⟨n, rfl⟩ | ⟨-, hsnap | hclen | hbuilt⟩
    · exact .inr (hg (.inl nofun))
    · exact .inr (hg (.inl nofun))
    · exact .inr (hg (.inl nofun))
    · exact .inr (hg (.inl nofun))
    · exact .inl (hf (.inl hsnap))
    · exact .inl (hf (.inr hclen))
    · exact .inr (hg (.inr hbuilt))
  refine hcodec.commute hbeside ?_
  rcases hquiet with rfl | rfl
  · rfl
  · rfl

/-! ### The bytes an operation changes (20_memory.md R62, R65) -/

/-- The set `w` of byte offsets has all of `lo` to below `hi`. -/
def Covers (w : Nat → Bool) (lo hi : Nat) : Prop := ∀ a, lo ≤ a → a < hi → w a = true

theorem Covers.mono {w : Nat → Bool} {lo hi lo' hi' : Nat} (h : Covers w lo hi) (hlo : lo ≤ lo') (hhi : hi' ≤ hi) :
    Covers w lo' hi' := fun a h1 h2 => h a (hlo.trans h1) (h2.trans_le hhi)

/-- The lists of bytes are unions of intervals; `covers_within` and the two rules after it pick an interval of one. -/
theorem covers_within {lo hi : Nat} : Covers (within lo hi) lo hi := fun a h1 h2 => by simp [within, h1, h2]

theorem Covers.or_left {w v : Nat → Bool} {lo hi : Nat} (h : Covers w lo hi) : Covers (fun a => w a || v a) lo hi :=
  fun a h1 h2 => by simp only [h a h1 h2, Bool.true_or]

theorem Covers.or_right {w v : Nat → Bool} {lo hi : Nat} (h : Covers v lo hi) : Covers (fun a => w a || v a) lo hi :=
  fun a h1 h2 => by simp only [h a h1 h2, Bool.or_true]

/-- All of a register's bytes are in `w`. -/
abbrev Reg.CoveredBy (r : Reg) (w : Nat → Bool) : Prop := Covers w r.offset (r.offset + 4)

theorem cbuf_coveredBy {w : Nat → Bool} (h : Covers w 0x400 0x600) (i : Fin 128) : (Reg.cbuf i).CoveredBy w :=
  h.mono (Nat.le_add_right _ _) (by simp only [Reg.offset]; omega)

/-- Bytes outside `w` are the same where every register reads the same or lies in `w`. -/
theorem SameBytesOutside.of_regs {w : Nat → Bool} {s t : State}
    (h : ∀ r : Reg, r.CoveredBy w ∨ readReg r t = readReg r s) : SameBytesOutside w s t := by
  intro a ha
  refine windowByte_congr fun r h1 h2 => (h r).resolve_left fun hw => ?_
  exact Bool.false_ne_true (ha.symm.trans (hw a h1 h2))

/-- An operation that keeps the codec: the registers that show the engine, the transmitter or the error report are in
`w` where that part changed. -/
theorem SameBytesOutside.of_parts {w : Nat → Bool} {s t : State} (hparams : t.params = s.params)
    (hcodec : t.codec = s.codec)
    (hcap : t.capture = s.capture ∨ Covers w 0x004 0x008 ∧ Covers w 0x020 0x030 ∧ Covers w 0x400 0x600)
    (htx : t.tx = s.tx ∨ Covers w 0x004 0x008 ∧ Covers w 0x030 0x040)
    (herr : t.err = s.err ∨ Covers w 0x004 0x00C) : SameBytesOutside w s t := by
  have engine (r : Reg) (hr : t.capture = s.capture → readReg r t = readReg r s)
      (hlo : 0x020 ≤ r.offset) (hhi : r.offset + 4 ≤ 0x030) : r.CoveredBy w ∨ readReg r t = readReg r s := by
    rcases hcap with h | ⟨-, h, -⟩
    · exact .inr (hr h)
    · exact .inl (h.mono hlo hhi)
  have transmitter (r : Reg) (hr : t.tx = s.tx → readReg r t = readReg r s)
      (hlo : 0x030 ≤ r.offset) (hhi : r.offset + 4 ≤ 0x040) : r.CoveredBy w ∨ readReg r t = readReg r s := by
    rcases htx with h | ⟨-, h⟩
    · exact .inr (hr h)
    · exact .inl (h.mono hlo hhi)
  refine .of_regs fun r => ?_
  cases r with
  | cmd => exact .inr rfl
  | status =>
    rcases hcap with hcap | ⟨h, -⟩
    · rcases htx with htx | ⟨h, -⟩
      · rcases herr with herr | h
        · exact .inr (by simp only [readReg, State.status, State.capturing, hcap, htx, herr])
        · exact .inl (h.mono (by decide) (by decide))
      · exact .inl h
    · exact .inl h
  | errcode =>
    rcases herr with herr | h
    · exact .inr (by simp only [readReg, herr])
    · exact .inl (h.mono (by decide) (by decide))
  | cbuflen | ptimer | since | tickcnt => exact engine _ (fun h => by simp only [readReg, h]) (by decide) (by decide)
  | txlen | txidx | txrem | duty =>
    exact transmitter _ (fun h => by simp only [readReg, h, hparams]) (by decide) (by decide)
  | cbuf i =>
    rcases hcap with hcap | ⟨-, -, h⟩
    · exact .inr (by simp only [readReg, hcap])
    · exact .inl (cbuf_coveredBy h i)
  | reskind | payload | result | wlen | clen | cset i | wbuf i => exact .inr (by simp only [readReg, hcodec])

/-- A changed error report shows in `STATUS` and `ERRCODE`. -/
theorem sameBytes_err {w : Nat → Bool} (s : State) (e : ErrorReport) (hw : Covers w 0x004 0x00C) :
    SameBytesOutside w s { s with err := e } :=
  .of_parts rfl rfl (.inl rfl) (.inl rfl) (.inr hw)

/-- A changed work buffer shows in its own words, from the first to the last that differs. -/
theorem readReg_wbuf_or_covered {w : Nat → Bool} {n : Nat} {s t : State} (hw : Covers w 0x200 (0x200 + 4 * n))
    (hbuf : ∀ i : Fin 128, n ≤ i.val → t.codec.wbuf[i] = s.codec.wbuf[i]) (i : Fin 128) :
    (Reg.wbuf i).CoveredBy w ∨ readReg (.wbuf i) t = readReg (.wbuf i) s := by
  by_cases hi : i.val < n
  · exact .inl (hw.mono (Nat.le_add_right _ _) (by simp only [Reg.offset]; omega))
  · exact .inr (hbuf i (Nat.le_of_not_lt hi))

/-- An overlaid register file keeps what lies past the new values. -/
theorem overlay_get_past {α : Type} {n : Nat} (v : Vector α n) (xs : List α) (i : Fin n) (h : xs.length ≤ i.val) :
    (overlay v xs)[i] = v[i] :=
  (overlay_get v xs i.val i.isLt).trans (dif_neg (Nat.not_lt.mpr h))

/-- Each command changes its own bytes only (44_host_commands.md R194). -/
theorem CommandEffect.sameBytes {c : Command} {s t : State} (h : CommandEffect s c t) :
    SameBytesOutside (commandBytes c s) s t := by
  cases h with
  | nop | nothingToDispose => exact fun _ _ => rfl
  | clrerr => exact sameBytes_err s _ covers_within
  | emptySet | txBusy => exact sameBytes_err s _ covers_within.or_left
  | alreadyConstructed | hwUnavailable => exact sameBytes_err s _ covers_within.or_left.or_left
  | constructed =>
    exact .of_parts rfl rfl
      (.inr ⟨covers_within.or_left.or_left.mono (by decide) (by decide), covers_within.or_right.or_left,
        covers_within.or_right⟩)
      (.inl rfl) (.inl rfl)
  | sent =>
    exact .of_parts rfl rfl (.inl rfl)
      (.inr ⟨covers_within.or_left.mono (by decide) (by decide), covers_within.or_right⟩) (.inl rfl)
  | disposed =>
    refine .of_regs fun r => ?_
    cases r with
    | status => exact .inl covers_within.or_left.or_left
    | cbuflen => exact .inl covers_within.or_right.or_left
    | cbuf i => exact .inl (cbuf_coveredBy covers_within.or_right i)
    | _ => exact .inr rfl
  | payload | noResult =>
    refine .of_regs fun r => ?_
    cases r with
    | reskind => exact .inl covers_within.or_left
    | result => exact .inl covers_within.or_right
    | _ => exact .inr rfl
  | isrepeat =>
    refine .of_regs fun r => ?_
    cases r with
    | reskind => exact .inl covers_within
    | _ => exact .inr rfl
  | encode =>
    refine .of_regs fun r => ?_
    cases r with
    | wlen => exact .inl covers_within.or_left
    | wbuf i =>
      refine readReg_wbuf_or_covered covers_within.or_right (fun i hi => overlay_get_past _ _ i ?_) i
      rwa [List.length_map, encodeTrain_length]
    | _ => exact .inr rfl
  | snap =>
    refine .of_regs fun r => ?_
    cases r with
    | wbuf i =>
      refine readReg_wbuf_or_covered covers_within.or_right (fun i hi => overlay_get_past _ _ i ?_) i
      rwa [List.length_map, workTrain_length]
    | _ => exact .inr rfl

/-- The bytes a write to an operand register may change: its own, and the error report for a length. -/
def operandBytes (off a : Nat) : Bool := within off (off + 4) a || (within 0x018 0x020 off && within 0x004 0x00C a)

theorem SameBytesOutside.of_reg {s t : State} (r : Reg) (h : ∀ r' ≠ r, readReg r' t = readReg r' s) :
    SameBytesOutside (operandBytes r.offset) s t := by
  refine .of_regs fun r' => ?_
  by_cases hr : r' = r
  · exact .inl (hr ▸ covers_within.or_left)
  · exact .inr (h r' hr)

theorem writeReg_sameBytes {r : Reg} {data : Word} {s t : State} (hw : r.writable = true) (hr : r ≠ .cmd)
    (h : writeReg r data s = .next t) : SameBytesOutside (operandBytes r.offset) s t := by
  rcases writeReg_cases h with ⟨rfl, -⟩ | ⟨rfl, rfl⟩ | ⟨rfl, n, -, rfl⟩ | ⟨rfl, n, -, rfl⟩ | ⟨hlen, rfl⟩ |
    ⟨i, rfl, rfl⟩ | ⟨i, rfl, rfl⟩ | ⟨hro, -⟩
  · exact absurd rfl hr
  · refine .of_reg .payload fun r' hne => ?_
    cases r' with
    | payload => exact absurd rfl hne
    | _ => rfl
  · refine .of_reg .wlen fun r' hne => ?_
    cases r' with
    | wlen => exact absurd rfl hne
    | _ => rfl
  · refine .of_reg .clen fun r' hne => ?_
    cases r' with
    | clen => exact absurd rfl hne
    | _ => rfl
  · rcases hlen with ⟨rfl, -⟩ | ⟨rfl, -⟩
    · exact sameBytes_err s _ covers_within.or_right
    · exact sameBytes_err s _ covers_within.or_right
  · refine .of_reg (.cset i) fun r' hne => ?_
    cases r' with
    | cset j =>
      have hij : i.val ≠ j.val := fun hij => hne (congrArg Reg.cset (Fin.ext hij.symm))
      exact congrArg (BitVec.setWidth 32) (Vector.getElem_set_ne i.isLt j.isLt hij)
    | _ => rfl
  · refine .of_reg (.wbuf i) fun r' hne => ?_
    cases r' with
    | wbuf j =>
      have hij : i.val ≠ j.val := fun hij => hne (congrArg Reg.wbuf (Fin.ext hij.symm))
      exact Vector.getElem_set_ne i.isLt j.isLt hij
    | _ => rfl
  · exact absurd (hro.symm.trans hw) Bool.false_ne_true

/-! ### The bytes listed for an operation -/

theorem ownBytes_command {i : Instr} {c : Command} (h : commandOf i = some c) (s : State) :
    ownBytes i s = commandBytes c s := by
  funext a
  simp only [ownBytes, h]

theorem ownBytes_badWord {w : Word} {e : CmdError} (h : decodeCommand w = .error e) (s : State) :
    ownBytes (.wr 0x000 w) s = within 0x004 0x00C := by
  funext a
  simp [ownBytes, commandOf, h]

theorem ownBytes_operand {off : Nat} (h : off ≠ 0x000) (data : Word) (s : State) :
    ownBytes (.wr off data) s = operandBytes off := by
  funext a
  simp [ownBytes, commandOf, h, operandBytes]

theorem eq_cmd_of_offset {r : Reg} (h : r.offset = 0x000) : r = .cmd := by
  have hat : regAt r.offset = .ok .cmd := h ▸ regAt_offset .cmd
  rw [regAt_offset] at hat
  exact Except.ok.inj hat

/-- Settles O59: each effect of an operation, with the parts of the state it touches. -/
theorem operationsChangeOnlyTheirOwnBytes : Obligations.OperationsChangeOnlyTheirOwnBytes := by
  unfold Obligations.OperationsChangeOnlyTheirOwnBytes
  intro i s t h
  cases exec_effect h with
  | command hc h =>
    rw [ownBytes_command hc]
    exact (runCommand_effect h).sameBytes
  | badWord hd =>
    rw [ownBytes_badWord hd]
    exact sameBytes_err s _ covers_within
  | store hw hr h =>
    rw [ownBytes_operand fun h0 => hr (eq_cmd_of_offset h0)]
    exact writeReg_sameBytes hw hr h
  | time n =>
    exact .of_parts (usecMany_params n s) (usecMany_codec n s)
      (.inr ⟨covers_within.or_left.or_left, covers_within.or_right.or_left.mono (by decide) (by decide),
        covers_within.or_right⟩)
      (.inr ⟨covers_within.or_left.or_left, covers_within.or_right.or_left.mono (by decide) (by decide)⟩)
      (.inl (usecMany_err n s))
  | edge _ | tick =>
    exact .of_parts rfl rfl
      (.inr ⟨covers_within.or_left.or_left, covers_within.or_right.or_left, covers_within.or_right⟩)
      (.inl rfl) (.inl rfl)
  | read _ | busError _ => exact .of_parts rfl rfl (.inl rfl) (.inl rfl) (.inl rfl)

end Sys2Proof.Machine
end

section
/-! ## Encoding and the harness: what the decoder reads, the words of an operation, traces as the harness loads and
steps them -/

namespace Sys2Proof

/-! ### Operation words -/

theorem field_opWord_whole {opc arg : Nat} (ho : opc < 2 ^ 8) (ha : arg < 2 ^ 24) : field (opWord opc arg) 23 0 = arg := by
  rw [field_opWord_arg 0 ho ha (by decide) (by decide), pow_zero, Nat.div_one, Nat.mod_eq_of_lt ha]

/-- An argument of 12 bits is the offset, with no reserved bit set. -/
theorem field_opWord_off {opc off : Nat} (ho : opc < 2 ^ 8) (h : off < 2 ^ 12) :
    field (opWord opc off) 11 0 = off ∧ field (opWord opc off) 23 12 = 0 := by
  have hw := field_opWord_whole (arg := off) ho (by omega)
  have hs := field_arg_split12 (opWord opc off)
  have hl := field_off_lt (opWord opc off)
  omega

/-- An argument of one bit is the flag, with no reserved bit set. -/
theorem field_opWord_flag {opc : Nat} (ho : opc < 2 ^ 8) (b : Bool) :
    field (opWord opc b.toNat) 0 0 = b.toNat ∧ field (opWord opc b.toNat) 23 1 = 0 := by
  have hb := b.toNat_lt
  have hw := field_opWord_whole (arg := b.toNat) ho (by omega)
  have hs := field_arg_split1 (opWord opc b.toNat)
  have hl := field_bit_lt (opWord opc b.toNat)
  omega

theorem opWord_of_flag {w : Word} {opc : Nat} (ho : field w 31 24 = opc) (h : field w 23 1 = 0) :
    opWord opc (field w 0 0 == 1).toNat = w := by
  have hs := field_arg_split1 w
  have hl := field_bit_lt w
  have hb : (field w 0 0 == 1).toNat = field w 23 0 := by
    rw [hs, h]
    interval_cases field w 0 0 <;> rfl
  rw [hb, ← ho, opWord_fields]

theorem opWord_of_off {w : Word} {opc : Nat} (ho : field w 31 24 = opc) (h : field w 23 12 = 0) :
    opWord opc (field w 11 0) = w := by
  have hs := field_arg_split12 w
  rw [h, Nat.mul_zero, Nat.zero_add] at hs
  rw [← hs, ← ho, opWord_fields]

/-! ### What the decoder reads -/

/-- The words that spell no operation (30_encoding.md R89): `w` with the words `rest` after it. -/
def IllFormed (w : Word) (rest : List Word) : Prop :=
  (0x83 ≤ field w 31 24 ∧ field w 31 24 ≤ 0xBF) ∨ (0xC2 ≤ field w 31 24 ∧ field w 31 24 ≤ 0xFF) ∨
  (field w 31 24 = 0x81 ∧ field w 23 1 ≠ 0) ∨ (field w 31 24 = 0x82 ∧ field w 23 0 ≠ 0) ∨
  ((field w 31 24 = 0xC0 ∨ field w 31 24 = 0xC1) ∧ field w 23 12 ≠ 0) ∨ (field w 31 24 = 0xC0 ∧ rest = [])

/-- A word whose opcode is no row's is ill-formed. -/
theorem illFormed_of_opcode {w : Word} {rest : List Word} (hc : ¬ field w 31 24 < 0x80) (h80 : field w 31 24 ≠ 0x80)
    (h81 : field w 31 24 ≠ 0x81) (h82 : field w 31 24 ≠ 0x82) (hC0 : field w 31 24 ≠ 0xC0)
    (hC1 : field w 31 24 ≠ 0xC1) : IllFormed w rest := by
  have hlt := field_opc_lt w
  have hopc : (0x83 ≤ field w 31 24 ∧ field w 31 24 ≤ 0xBF) ∨ (0xC2 ≤ field w 31 24 ∧ field w 31 24 ≤ 0xFF) := by omega
  exact hopc.imp_right .inl

/-- What the decoder answers to the word `w` with `rest` after it: one constructor per format of item, and the words
that spell none. -/
inductive Reading (w : Word) : List Word → Decoded → Prop where
  | command {rest : List Word} (ho : field w 31 24 < 0x80) : Reading w rest (.item (commandItem w) 1)
  | usec {rest : List Word} (ho : field w 31 24 = 0x80) : Reading w rest (.item (.usec (field w 23 0)) 1)
  | edge {rest : List Word} (ho : field w 31 24 = 0x81) (hr : field w 23 1 = 0) :
      Reading w rest (.item (.edge (field w 0 0 == 1)) 1)
  | tick {rest : List Word} (ho : field w 31 24 = 0x82) (hr : field w 23 0 = 0) : Reading w rest (.item .tick 1)
  | wr {data : Word} {rest : List Word} (ho : field w 31 24 = 0xC0) (hr : field w 23 12 = 0) :
      Reading w (data :: rest) (.item (.wr (field w 11 0) data) 2)
  | rd {rest : List Word} (ho : field w 31 24 = 0xC1) (hr : field w 23 12 = 0) :
      Reading w rest (.item (.rd (field w 11 0)) 1)
  | illFormed {rest : List Word} {why : DecodeReject} (h : IllFormed w rest) (hw : why ≠ .endOfTrace) :
      Reading w rest (.reject why)

/-- Everything the decoder answers. -/
theorem decodeItem_reading (w : Word) (rest : List Word) : Reading w rest (decodeItem (w :: rest)) := by
  simp only [decodeItem]
  split
  · exact .command ‹_›
  · split
    · exact .usec ‹_›
    · split
      · exact .edge ‹_› ‹_›
      · exact .illFormed (.inr (.inr (.inl ⟨‹_›, ‹_›⟩))) (by decide)
    · split
      · exact .tick ‹_› ‹_›
      · exact .illFormed (.inr (.inr (.inr (.inl ⟨‹_›, ‹_›⟩)))) (by decide)
    · split
      · split
        · exact .wr ‹_› ‹_›
        · exact .illFormed (.inr (.inr (.inr (.inr (.inr ⟨‹_›, rfl⟩))))) (by decide)
      · exact .illFormed (.inr (.inr (.inr (.inr (.inl ⟨.inl ‹_›, ‹_›⟩))))) (by decide)
    · split
      · exact .rd ‹_› ‹_›
      · exact .illFormed (.inr (.inr (.inr (.inr (.inl ⟨.inr ‹_›, ‹_›⟩))))) (by decide)
    · exact .illFormed (illFormed_of_opcode ‹_› ‹_› ‹_› ‹_› ‹_› ‹_›) (by decide)

/-- An item by its format is what the decoder answers. -/
theorem Reading.decodeItem_eq {w : Word} {rest : List Word} {i : Instr} {len : Nat} (h : Reading w rest (.item i len)) :
    decodeItem (w :: rest) = .item i len := by
  cases h with
  | command ho => exact decodeItem_command ho rest
  | usec ho => simp [decodeItem, ho]
  | edge ho hr | tick ho hr | wr ho hr | rd ho hr => simp [decodeItem, ho, hr]

/-- No item is read at an ill-formed word. -/
theorem Reading.not_illFormed {w : Word} {rest : List Word} {i : Instr} {len : Nat} (h : Reading w rest (.item i len)) :
    ¬ IllFormed w rest := by
  unfold IllFormed
  cases h with
  | command ho | usec ho | edge ho hr | tick ho hr | rd ho hr => omega
  | wr ho hr => simp [ho, hr]

theorem exists_item_of_not_illFormed {w : Word} {rest : List Word} (h : ¬ IllFormed w rest) :
    ∃ i len, decodeItem (w :: rest) = .item i len := by
  have hr := decodeItem_reading w rest
  cases hd : decodeItem (w :: rest) with
  | item i len => exact ⟨i, len, rfl⟩
  | reject why =>
    rw [hd] at hr
    cases hr with
    | illFormed hbad _ => exact absurd hbad h

theorem exists_reject_of_illFormed {w : Word} {rest : List Word} (h : IllFormed w rest) :
    ∃ why, decodeItem (w :: rest) = .reject why := by
  have hr := decodeItem_reading w rest
  cases hd : decodeItem (w :: rest) with
  | item i len =>
    rw [hd] at hr
    exact absurd h hr.not_illFormed
  | reject why => exact ⟨why, rfl⟩

@[simp] theorem decodeItem_nil : decodeItem [] = .reject .endOfTrace := rfl

/-- The decoder reports the end of the trace where there is no word, and only there. -/
theorem decodeItem_endOfTrace_iff {ws : List Word} : decodeItem ws = .reject .endOfTrace ↔ ws = [] := by
  cases ws with
  | nil => simp
  | cons w rest =>
    have hr := decodeItem_reading w rest
    refine iff_of_false (fun hd => ?_) (List.cons_ne_nil _ _)
    rw [hd] at hr
    cases hr with
    | illFormed _ hw => exact hw rfl

/-! ### Decoding what was encoded, and the other way round -/

/-- The words of a well-formed operation decode to it, whatever follows (30_encoding.md R81 to R84, R90). -/
theorem decodeItem_encode {i : Instr} (h : i.WellFormed = true) (rest : List Word) :
    decodeItem (encode i ++ rest) = .item i (encode i).length := by
  cases i with
  | nop => exact decodeItem_encode_command .nop rest
  | construct al => exact decodeItem_encode_command (.construct al) rest
  | dispose => exact decodeItem_encode_command .dispose rest
  | clrerr => exact decodeItem_encode_command .clrerr rest
  | decode => exact decodeItem_encode_command .decode rest
  | isrepeat => exact decodeItem_encode_command .isrepeat rest
  | encode => exact decodeItem_encode_command .encode rest
  | snap => exact decodeItem_encode_command .snap rest
  | send => exact decodeItem_encode_command .send rest
  | usec n =>
    have hn : n < 2 ^ 24 := of_decide_eq_true h
    have hr := (Reading.usec (rest := rest) (field_opWord_opc (by decide) hn)).decodeItem_eq
    rwa [field_opWord_whole (by decide) hn] at hr
  | edge lvl =>
    obtain ⟨hbit, hzero⟩ := field_opWord_flag (opc := 0x81) (by decide) lvl
    have hlt := lvl.toNat_lt
    have hr := (Reading.edge (rest := rest) (field_opWord_opc (by decide) (by omega)) hzero).decodeItem_eq
    have hlvl : (lvl.toNat == 1) = lvl := by cases lvl <;> rfl
    rwa [hbit, hlvl] at hr
  | tick => exact (Reading.tick (field_opWord_opc (by decide) (by decide)) (by decide)).decodeItem_eq
  | wr off data =>
    have hoff : off < 2 ^ 12 := of_decide_eq_true h
    obtain ⟨hfield, hzero⟩ := field_opWord_off (opc := 0xC0) (by decide) hoff
    have hr := (Reading.wr (data := data) (rest := rest) (field_opWord_opc (by decide) (by omega)) hzero).decodeItem_eq
    rwa [hfield] at hr
  | rd off =>
    have hoff : off < 2 ^ 12 := of_decide_eq_true h
    obtain ⟨hfield, hzero⟩ := field_opWord_off (opc := 0xC1) (by decide) hoff
    have hr := (Reading.rd (rest := rest) (field_opWord_opc (by decide) (by omega)) hzero).decodeItem_eq
    rwa [hfield] at hr

/-- Settles O1: the fields of the operation's words are its operands. -/
theorem decodeOfEncodeReturnsTheInstruction : Obligations.DecodeOfEncodeReturnsTheInstruction := by
  unfold Obligations.DecodeOfEncodeReturnsTheInstruction
  exact fun i rest h => decodeItem_encode h rest

theorem encode_of_decodeCommand {w : Word} {c : Command} (h : decodeCommand w = .ok c) : encode c.toInstr = [w] := by
  rcases decodeCommand_cases w with ⟨-, he⟩ | ⟨-, -, he⟩ | ⟨-, -, c', hc', hw⟩
  · cases h.symm.trans he
  · cases h.symm.trans he
  · cases h.symm.trans hc'
    exact hw

theorem Command.toInstr_wellFormed (c : Command) : c.toInstr.WellFormed = true := by cases c <;> rfl

/-- Settles O2: each format's word is put together again from the fields read. -/
theorem encodeOfDecodeReturnsTheWords : Obligations.EncodeOfDecodeReturnsTheWords := by
  unfold Obligations.EncodeOfDecodeReturnsTheWords
  intro ws i len h
  cases ws with
  | nil => cases h
  | cons w rest =>
    have hr := decodeItem_reading w rest
    rw [h] at hr
    cases hr with
    | command ho =>
      cases hc : decodeCommand w with
      | ok c =>
        rw [commandItem_ok hc, encode_of_decodeCommand hc]
        exact ⟨c.toInstr_wellFormed, .inl rfl⟩
      | error e =>
        rw [commandItem_error hc]
        exact ⟨rfl, .inr ⟨w, e, rfl, hc, rfl, rfl⟩⟩
    | usec ho =>
      refine ⟨decide_eq_true (field_arg_lt w), .inl ?_⟩
      rw [encode, ← ho, opWord_fields]; rfl
    | edge ho hr => exact ⟨rfl, .inl (by rw [encode, opWord_of_flag ho hr]; rfl)⟩
    | tick ho hr =>
      refine ⟨rfl, .inl ?_⟩
      rw [encode, ← ho, ← hr, opWord_fields]; rfl
    | wr ho hr => exact ⟨decide_eq_true (field_off_lt w), .inl (by rw [encode, opWord_of_off ho hr]; rfl)⟩
    | rd ho hr => exact ⟨decide_eq_true (field_off_lt w), .inl (by rw [encode, opWord_of_off ho hr]; rfl)⟩

/-! ### The rows of the opcode map -/

/-- A mask without its low `k` bits compares the rest of the word. -/
theorem OpRow.hits_div {r : OpRow} {w : Word} {k : Nat} (hm : r.mask = BitVec.allOnes 32 <<< k) (h : r.hits w = true) :
    w.toNat / 2 ^ k = r.bits.toNat / 2 ^ k := by
  have hand : w &&& BitVec.allOnes 32 <<< k = r.bits := by simpa [OpRow.hits, hm] using h
  have hshift : (w &&& BitVec.allOnes 32 <<< k) >>> k = w >>> k := by
    apply BitVec.eq_of_getLsbD_eq
    intro i hi
    simp only [BitVec.getLsbD_ushiftRight, BitVec.getLsbD_and, BitVec.getLsbD_shiftLeft, BitVec.getLsbD_allOnes]
    by_cases hki : k + i < 32
    · simp [hki, hi]
    · simp [BitVec.getLsbD_of_ge w (k + i) (by omega)]
  have hnat := congrArg BitVec.toNat hshift
  rw [hand] at hnat
  simpa [BitVec.toNat_ushiftRight, Nat.shiftRight_eq_div_pow] using hnat.symm

theorem opWord_toNat {opc arg : Nat} (ho : opc < 2 ^ 8) (ha : arg < 2 ^ 24) :
    (opWord opc arg).toNat = opc * 2 ^ 24 + arg := by
  simp only [opWord, BitVec.toNat_ofNat]; omega

/-- A word with a row's fixed bits is the row's opcode with an argument in the bits the row leaves free. -/
theorem OpRow.exists_arg_of_hits {r : OpRow} {w : Word} {opc k : Nat} (hk : k ≤ 24) (ho : opc < 2 ^ 8)
    (hm : r.mask = BitVec.allOnes 32 <<< k) (hb : r.bits = opWord opc 0) (h : r.hits w = true) :
    ∃ arg < 2 ^ k, w = opWord opc arg := by
  have hle : 2 ^ k ≤ 2 ^ 24 := Nat.pow_le_pow_right (by decide) hk
  have hlt : w.toNat % 2 ^ k < 2 ^ k := Nat.mod_lt _ (by positivity)
  have hbits : r.bits.toNat = opc * 2 ^ 24 := by rw [hb, opWord_toNat ho (by decide), Nat.add_zero]
  have hdvd : 2 ^ k ∣ r.bits.toNat := hbits ▸ Dvd.dvd.mul_left (pow_dvd_pow 2 hk) opc
  refine ⟨w.toNat % 2 ^ k, hlt, BitVec.eq_of_toNat_eq ?_⟩
  calc w.toNat = 2 ^ k * (w.toNat / 2 ^ k) + w.toNat % 2 ^ k := (Nat.div_add_mod _ _).symm
    _ = opc * 2 ^ 24 + w.toNat % 2 ^ k := by rw [OpRow.hits_div hm h, Nat.mul_div_cancel' hdvd, hbits]
    _ = (opWord opc (w.toNat % 2 ^ k)).toNat := (opWord_toNat ho (by omega)).symm

/-- The words with the row's fixed bits decode to the row's operation, the second word present where the row has two. -/
def OpRow.DecodesToRow (r : OpRow) : Prop :=
  ∀ (w : Word) (rest : List Word), r.hits w = true → (r.words = 2 → rest ≠ []) →
    ∃ i, decodeItem (w :: rest) = .item i r.words ∧ i.mnemonic = r.mnemonic ∧ i.WellFormed = true

/-- It is enough to name the operation of each argument the row leaves free. -/
theorem OpRow.decodesToRow {r : OpRow} {opc k : Nat} (hk : k ≤ 24) (ho : opc < 2 ^ 8)
    (hm : r.mask = BitVec.allOnes 32 <<< k) (hb : r.bits = opWord opc 0)
    (hi : ∀ arg < 2 ^ k, ∀ rest, (r.words = 2 → rest ≠ []) → ∃ i tail, opWord opc arg :: rest = encode i ++ tail ∧
      (encode i).length = r.words ∧ i.mnemonic = r.mnemonic ∧ i.WellFormed = true) : r.DecodesToRow := by
  intro w rest h hrest
  obtain ⟨arg, harg, rfl⟩ := OpRow.exists_arg_of_hits hk ho hm hb h
  obtain ⟨i, tail, hw, hlen, hname, hwf⟩ := hi arg harg rest hrest
  exact ⟨i, by rw [hw, decodeItem_encode hwf, hlen], hname, hwf⟩

/-- A row that fixes every bit is the one word of one operation. -/
theorem OpRow.decodesToRow_fixed {r : OpRow} {opc : Nat} (i : Instr) (ho : opc < 2 ^ 8)
    (hm : r.mask = BitVec.allOnes 32 <<< 0) (hb : r.bits = opWord opc 0) (he : encode i = [opWord opc 0])
    (hw : r.words = 1) (hname : i.mnemonic = r.mnemonic) (hwf : i.WellFormed = true) : r.DecodesToRow := by
  refine OpRow.decodesToRow (by decide) ho hm hb fun arg harg rest _ => ⟨i, rest, ?_, by rw [he, hw]; rfl, hname, hwf⟩
  obtain rfl : arg = 0 := by omega
  rw [he]; rfl

theorem exists_toNat_of_lt_two {n : Nat} (h : n < 2 ^ 1) : ∃ b : Bool, b.toNat = n :=
  ⟨n == 1, by interval_cases n <;> rfl⟩

/-- Settles O3: a word that hits a row has an argument within the row's free bits, so it is the encoding of the row's
operation on that argument. -/
theorem rowWordsDecodeToTheirRow : Obligations.RowWordsDecodeToTheirRow := by
  unfold Obligations.RowWordsDecodeToTheirRow
  show ∀ r ∈ opRows, r.DecodesToRow
  simp only [opRows, List.forall_mem_cons, List.not_mem_nil, false_implies, implies_true, and_true]
  refine ⟨?nop, ?construct, ?dispose, ?clrerr, ?decode, ?isrepeat, ?encode, ?snap, ?send, ?usec, ?edge, ?tick, ?wr, ?rd⟩
  case nop => exact OpRow.decodesToRow_fixed (opc := 0x00) .nop (by decide) (by decide) rfl rfl rfl rfl rfl
  case dispose => exact OpRow.decodesToRow_fixed (opc := 0x02) .dispose (by decide) (by decide) rfl rfl rfl rfl rfl
  case clrerr => exact OpRow.decodesToRow_fixed (opc := 0x0F) .clrerr (by decide) (by decide) rfl rfl rfl rfl rfl
  case decode => exact OpRow.decodesToRow_fixed (opc := 0x10) .decode (by decide) (by decide) rfl rfl rfl rfl rfl
  case isrepeat => exact OpRow.decodesToRow_fixed (opc := 0x11) .isrepeat (by decide) (by decide) rfl rfl rfl rfl rfl
  case encode => exact OpRow.decodesToRow_fixed (opc := 0x12) .encode (by decide) (by decide) rfl rfl rfl rfl rfl
  case snap => exact OpRow.decodesToRow_fixed (opc := 0x13) .snap (by decide) (by decide) rfl rfl rfl rfl rfl
  case send => exact OpRow.decodesToRow_fixed (opc := 0x20) .send (by decide) (by decide) rfl rfl rfl rfl rfl
  case tick => exact OpRow.decodesToRow_fixed (opc := 0x82) .tick (by decide) (by decide) rfl rfl rfl rfl rfl
  case construct =>
    refine OpRow.decodesToRow (opc := 0x01) (k := 1) (by decide) (by decide) (by decide) rfl fun arg harg rest _ => ?_
    obtain ⟨b, rfl⟩ := exists_toNat_of_lt_two harg
    exact ⟨.construct b, rest, rfl, rfl, rfl, rfl⟩
  case edge =>
    refine OpRow.decodesToRow (opc := 0x81) (k := 1) (by decide) (by decide) (by decide) rfl fun arg harg rest _ => ?_
    obtain ⟨b, rfl⟩ := exists_toNat_of_lt_two harg
    exact ⟨.edge b, rest, rfl, rfl, rfl, rfl⟩
  case usec =>
    exact OpRow.decodesToRow (opc := 0x80) (k := 24) (by decide) (by decide) (by decide) rfl fun n hn rest _ =>
      ⟨.usec n, rest, rfl, rfl, rfl, decide_eq_true hn⟩
  case rd =>
    exact OpRow.decodesToRow (opc := 0xC1) (k := 12) (by decide) (by decide) (by decide) rfl fun off hoff rest _ =>
      ⟨.rd off, rest, rfl, rfl, rfl, decide_eq_true hoff⟩
  case wr =>
    refine OpRow.decodesToRow (opc := 0xC0) (k := 12) (by decide) (by decide) (by decide) rfl fun off hoff rest hrest => ?_
    obtain ⟨data, tail, rfl⟩ := List.exists_cons_of_ne_nil (hrest rfl)
    exact ⟨.wr off data, tail, rfl, rfl, rfl, decide_eq_true hoff⟩

/-- Settles O6 by running the decoder on the six closed lists of words. -/
theorem wordsOfEachFormatDecode : Obligations.WordsOfEachFormatDecode := by
  unfold Obligations.WordsOfEachFormatDecode
  exact ⟨by decide, by decide, by decide, by decide, by decide, by decide⟩

/-! ### Decoding a trace -/

theorem decodeTraceFrom_item {ws : List Word} {i : Instr} {len : Nat} (h : decodeItem ws = .item i len)
    (fuel start : Nat) :
    decodeTraceFrom (fuel + 1) start ws = (decodeTraceFrom fuel (start + len) (ws.drop len)).map (i :: ·) := by
  cases ws with
  | nil => cases h
  | cons w rest =>
    simp only [decodeTraceFrom, h]
    cases decodeTraceFrom fuel (start + len) ((w :: rest).drop len) <;> rfl

theorem decodeTraceFrom_reject {w : Word} {rest : List Word} {why : DecodeReject}
    (h : decodeItem (w :: rest) = .reject why) (fuel start : Nat) :
    decodeTraceFrom (fuel + 1) start (w :: rest) = .error (start, why) := by
  simp only [decodeTraceFrom, h]

theorem encode_length_pos (i : Instr) : 0 < (encode i).length := by cases i <;> exact Nat.succ_pos _

/-- Well-formed operations before a rejected word put its index past their words. -/
theorem decodeTraceFrom_encode_reject {w : Word} {rest : List Word} {why : DecodeReject}
    (hd : decodeItem (w :: rest) = .reject why) {is : List Instr} (his : ∀ i ∈ is, i.WellFormed = true) :
    ∀ fuel start, (is.flatMap encode ++ w :: rest).length ≤ fuel →
      decodeTraceFrom fuel start (is.flatMap encode ++ w :: rest) = .error (start + (is.flatMap encode).length, why) := by
  induction is with
  | nil =>
    intro fuel start hfuel
    obtain ⟨n, rfl⟩ := Nat.exists_eq_add_one.mpr (Nat.lt_of_lt_of_le (Nat.succ_pos _) hfuel)
    exact decodeTraceFrom_reject hd n start
  | cons i is ih =>
    intro fuel start hfuel
    obtain ⟨hi, his⟩ := List.forall_mem_cons.mp his
    have hpos := encode_length_pos i
    rw [List.flatMap_cons, List.append_assoc] at hfuel ⊢
    rw [List.length_append] at hfuel
    obtain ⟨n, rfl⟩ := Nat.exists_eq_add_one.mpr (by omega : 0 < fuel)
    rw [decodeTraceFrom_item (decodeItem_encode hi _), List.drop_left, ih his n _ (by omega), List.length_append,
      ← Nat.add_assoc]
    rfl

/-- A list of words that decodes as a trace, item by item to its end (30_encoding.md R90). -/
def Readable (ws : List Word) : Prop := ∃ fuel start is, decodeTraceFrom fuel start ws = .ok is

/-- Behind an item of a readable trace the rest is readable. -/
theorem Readable.drop {ws : List Word} (h : Readable ws) {i : Instr} {len : Nat} (hd : decodeItem ws = .item i len) :
    Readable (ws.drop len) := by
  obtain ⟨fuel, start, is, h⟩ := h
  cases fuel with
  | zero =>
    cases ws with
    | nil => cases hd
    | cons w rest => cases h
  | succ fuel =>
    rw [decodeTraceFrom_item hd] at h
    cases hrest : decodeTraceFrom fuel (start + len) (ws.drop len) with
    | ok is' => exact ⟨fuel, start + len, is', hrest⟩
    | error e => rw [hrest] at h; cases h

/-- A readable trace has no rejected word ahead, only its end. -/
theorem Readable.reject {ws : List Word} (h : Readable ws) {why : DecodeReject} (hd : decodeItem ws = .reject why) :
    why = .endOfTrace := by
  obtain ⟨fuel, start, is, h⟩ := h
  cases ws with
  | nil => cases hd; rfl
  | cons w rest =>
    cases fuel with
    | zero => cases h
    | succ fuel => rw [decodeTraceFrom_reject hd] at h; cases h

end Sys2Proof

namespace Sys2Proof.Machine

/-! ### The step, by what the decoder reads at `pc` -/

theorem step_endOfTrace {s : State} (h : s.harness.trace.length ≤ s.harness.pc) : step s = .refused .endOfTrace := by
  have hd : decodeItem (s.harness.trace.drop s.harness.pc) = .reject .endOfTrace :=
    decodeItem_endOfTrace_iff.mpr (List.drop_eq_nil_iff.mpr h)
  simp only [step, fetch, hd]

theorem step_reject {s : State} {why : DecodeReject}
    (h : decodeItem (s.harness.trace.drop s.harness.pc) = .reject why) (hw : why ≠ .endOfTrace) :
    step s = .refused (.illFormedTrace s.harness.pc why) := by
  simp only [step, fetch, h]

/-- Everything a step can do (30_encoding.md R93, R97, R89; log 6). -/
theorem step_cases (s : State) :
    (∃ i len t, decodeItem (s.harness.trace.drop s.harness.pc) = .item i len ∧ exec i s = .next t ∧
      step s = .next (advance len t)) ∨
    (s.harness.trace.length ≤ s.harness.pc ∧ step s = .refused .endOfTrace) ∨
    (s.harness.pc < s.harness.trace.length ∧ ∃ why, why ≠ .endOfTrace ∧
      decodeItem (s.harness.trace.drop s.harness.pc) = .reject why ∧
      step s = .refused (.illFormedTrace s.harness.pc why)) := by
  cases hd : decodeItem (s.harness.trace.drop s.harness.pc) with
  | item i len =>
    obtain ⟨t, ht⟩ := exec_total i s
    exact .inl ⟨i, len, t, rfl, ht, step_item hd ht⟩
  | reject why =>
    by_cases hpc : s.harness.trace.length ≤ s.harness.pc
    · exact .inr (.inl ⟨hpc, step_endOfTrace hpc⟩)
    · have hw : why ≠ .endOfTrace := by
        rintro rfl
        exact hpc (List.drop_eq_nil_iff.mp (decodeItem_endOfTrace_iff.mp hd))
      exact .inr (.inr ⟨Nat.lt_of_not_le hpc, why, hw, rfl, step_reject hd hw⟩)

/-- Settles O7: every operation completes, and none moves `pc`. -/
theorem stepRunsTheDecodedItem : Obligations.StepRunsTheDecodedItem := by
  unfold Obligations.StepRunsTheDecodedItem
  intro s i len h
  obtain ⟨t, ht⟩ := exec_total i s
  refine ⟨t, ht, ?_⟩
  rw [step_item h ht, advance, exec_pc ht]

/-- Settles O8: of the three things a step can do, the end of the trace is the one with no word left. -/
theorem stepStopsExactlyAtTheEndOfTheTrace : Obligations.StepStopsExactlyAtTheEndOfTheTrace := by
  unfold Obligations.StepStopsExactlyAtTheEndOfTheTrace
  intro s
  refine ⟨fun h => ?_, step_endOfTrace⟩
  rcases step_cases s with ⟨i, len, t, -, -, hs⟩ | ⟨hpc, -⟩ | ⟨-, why, -, -, hs⟩
  · cases h.symm.trans hs
  · exact hpc
  · cases h.symm.trans hs

/-! ### Ill-formed words -/

theorem loadTrace_encode_reject {w : Word} {rest : List Word} {why : DecodeReject}
    (hd : decodeItem (w :: rest) = .reject why) {is : List Instr} (his : ∀ i ∈ is, i.WellFormed = true) (s : State) :
    loadTrace (is.flatMap encode ++ w :: rest) s = .error (.illFormedTrace (is.flatMap encode).length why) := by
  have hdecode := decodeTraceFrom_encode_reject hd his _ 0 le_rfl
  rw [Nat.zero_add] at hdecode
  simp only [loadTrace, decodeTrace, hdecode]

/-- Settles O4: an ill-formed word is rejected where the decoder meets it, at `pc` or behind the words of well-formed
operations. -/
theorem illFormedWordsAreRefusedByIndex : Obligations.IllFormedWordsAreRefusedByIndex := by
  unfold Obligations.IllFormedWordsAreRefusedByIndex
  intro w rest
  refine ⟨exists_item_of_not_illFormed, fun hbad => ?_⟩
  obtain ⟨why, hd⟩ := exists_reject_of_illFormed hbad
  refine ⟨why, fun s hs => step_reject (hs ▸ hd) ?_, fun is s his => loadTrace_encode_reject hd his s⟩
  rintro rfl
  cases decodeItem_endOfTrace_iff.mp hd

/-- A loaded trace is readable from its first word. -/
theorem loadTrace_readable {ws : List Word} {s t : State} (h : loadTrace ws s = .ok t) :
    Readable (t.harness.trace.drop t.harness.pc) := by
  unfold loadTrace at h
  split at h
  · cases h
  · rename_i is hd
    split at h
    · cases h
      exact ⟨ws.length, 0, is, hd⟩
    · cases h

theorem core_run_of_next {s t : State} (h : step s = .next t) (k : Nat) :
    Host.Core.run Sys2Proof.core (k + 1) s = Host.Core.run Sys2Proof.core k t := by
  have hcore : Sys2Proof.core.step s = .next t := h
  simp only [Host.Core.run, hcore]

theorem core_run_of_refused {s : State} {r : Refusal} (h : step s = .refused r) (k : Nat) :
    Host.Core.run Sys2Proof.core (k + 1) s = .refused r := by
  have hcore : Sys2Proof.core.step s = .refused r := h
  simp only [Host.Core.run, hcore]

/-- A run with only readable words ahead meets no ill-formed word: each step moves to the end of an item. -/
theorem run_of_readable {s : State} (h : Readable (s.harness.trace.drop s.harness.pc)) (k index : Nat)
    (why : DecodeReject) : Host.Core.run Sys2Proof.core k s ≠ .refused (.illFormedTrace index why) := by
  induction k generalizing s with
  | zero => exact fun hr => nomatch hr
  | succ k ih =>
    rcases step_cases s with ⟨i, len, t, hd, hx, hs⟩ | ⟨-, hs⟩ | ⟨-, why', hw, hd, -⟩
    · have hnext : Readable ((advance len t).harness.trace.drop (advance len t).harness.pc) := by
        rw [advance_harness, exec_trace hx, exec_pc hx, ← List.drop_drop]
        exact h.drop hd
      rw [core_run_of_next hs]
      exact ih hnext
    · rw [core_run_of_refused hs]
      exact fun hr => nomatch hr
    · exact absurd (h.reject hd) hw

/-- Settles O9: a loaded trace is readable, and every step keeps the rest of it readable. -/
theorem loadedTraceNeverMeetsAnIllFormedWord : Obligations.LoadedTraceNeverMeetsAnIllFormedWord := by
  unfold Obligations.LoadedTraceNeverMeetsAnIllFormedWord
  exact fun ws s₀ s k index why h => run_of_readable (loadTrace_readable h) k index why

/-! ### Words written to `CMD` -/

/-- A bare command word acts as the write of the word to `CMD`, refused or not. -/
theorem exec_commandItem (w : Word) (s : State) : exec (commandItem w) s = exec (.wr 0x000 w) s := by
  cases hc : decodeCommand w with
  | ok c => rw [commandItem_ok hc, exec_toInstr, exec_wr_cmd, execCmd_ok hc]
  | error e => rw [commandItem_error hc]

/-- Settles O5: the item read is the word's command, or the write itself where the command is refused. -/
theorem bareCommandWordIsAWriteToCmd : Obligations.BareCommandWordIsAWriteToCmd := by
  unfold Obligations.BareCommandWordIsAWriteToCmd
  exact fun w rest h => ⟨commandItem w, decodeItem_command h rest, exec_commandItem w⟩

/-- Settles O58: the three answers of the command decoder. -/
theorem commandWordsAreCheckedThenPerformed : Obligations.CommandWordsAreCheckedThenPerformed := by
  unfold Obligations.CommandWordsAreCheckedThenPerformed
  intro w s
  rw [exec_wr_cmd]
  rcases decodeCommand_cases w with ⟨hunknown, hd⟩ | ⟨hknown, hreserved, hd⟩ | ⟨hknown, hzero, c, hd, hw⟩
  · rw [execCmd_error hd]
    exact ⟨fun _ => rfl, fun hk => absurd hk hunknown, fun hk => absurd hk hunknown⟩
  · rw [execCmd_error hd]
    exact ⟨fun hu => absurd hknown hu, fun _ _ => rfl, fun _ hr => absurd hreserved hr⟩
  · refine ⟨fun hu => absurd hknown hu, fun _ hr => ?_, fun _ _ => ⟨c, hw, ?_⟩⟩
    · omega
    · rw [execCmd_ok hd, exec_toInstr]

/-! ### Pseudo-operations and the call form of `send` -/

/-- Every sequence of operations completes. -/
theorem execAll_total (is : List Instr) (s : State) : ∃ t, execAll is s = .next t := by
  induction is generalizing s with
  | nil => exact ⟨s, rfl⟩
  | cons i is ih =>
    obtain ⟨u, hu⟩ := exec_total i s
    rw [execAll_cons_next hu]
    exact ih u

theorem execAll_live {is : List Instr} {s t : State} (h : execAll is s = .next t) (hl : s.tx.Live) : t.tx.Live := by
  induction is generalizing s with
  | nil => cases h; exact hl
  | cons i is ih =>
    obtain ⟨u, hu⟩ := exec_total i s
    rw [execAll_cons_next hu] at h
    exact ih h (exec_live hu hl)

theorem waitItems_wellFormed (n : Nat) : ∀ i ∈ waitItems n, i.WellFormed = true := by
  intro i hi
  rcases List.mem_append.mp hi with h | h
  · rw [List.eq_of_mem_replicate h]; decide
  · rw [List.mem_singleton.mp h]
    have hlt : n % maxUsec < maxUsec := Nat.mod_lt _ (by decide)
    exact decide_eq_true (hlt.trans (by decide))

theorem execAll_replicate_usec (k m : Nat) (s : State) :
    execAll (List.replicate k (.usec m)) s = .next (usecMany (m * k) s) := by
  induction k generalizing s with
  | zero => rfl
  | succ k ih => rw [List.replicate_succ, execAll_cons_next (exec_usec m s), ih, ← usecMany_add, Nat.mul_succ, Nat.add_comm]

/-- `WAIT n` is `n` microseconds: the full `USEC` words and the remainder. -/
theorem execAll_waitItems (n : Nat) (s : State) : execAll (waitItems n) s = .next (usecMany n s) := by
  rw [waitItems, execAll_append_next (execAll_replicate_usec _ _ s), execAll_cons_next (exec_usec _ _), ← usecMany_add,
    Nat.div_add_mod]
  rfl

theorem callSend_eq {ps : List Word} {s sent : State} (h : execAll (loadTrainItems ps ++ [.send]) s = .next sent) :
    callSend ps s = loadTrainItems ps ++ [.send] ++ waitItems (busyUs sent.tx) := by
  simp only [callSend, busyUsAfter, h]

/-- Settles O60: time adds up, and the wait of `callSend` is as long as the transmitter stays busy. -/
theorem waitIsTimeForAnyCount : Obligations.WaitIsTimeForAnyCount := by
  unfold Obligations.WaitIsTimeForAnyCount
  intro n lvl ps s
  refine ⟨waitItems_wellFormed n, ?_, ?_, fun hi => ?_⟩
  · rw [execAll_waitItems, exec_usec]
  · rw [pulseInItems, execAll_append_next (execAll_waitItems n s), execAll_cons_next (exec_usec n s)]
  · obtain ⟨sent, hsent⟩ := execAll_total (loadTrainItems ps ++ [.send]) s
    have hbusy := usecMany_busy (execAll_live hsent hi.live)
    refine ⟨busyUs sent.tx, sent, usecMany (busyUs sent.tx) sent, callSend_eq hsent, hsent, ?_, ?_,
      fun k hk => ⟨usecMany k sent, exec_usec k sent, (hbusy k).mpr hk⟩⟩
    · rw [callSend_eq hsent, execAll_append_next hsent, execAll_waitItems]
    · exact Bool.eq_false_of_not_eq_true fun hb => absurd ((hbusy _).mp hb) (lt_irrefl _)

end Sys2Proof.Machine
end

section
/-! ## The capture engine: its commands, its events, its time, and the legality of what it emits -/

namespace Sys2Proof.Machine

/-! ### Encodings and outcomes -/

/-- A well-formed operation with one word is encoded as that word, in both directions. -/
theorem encodedAs_of_encode {i : Instr} {opc arg : Nat} (h : encode i = [opWord opc arg]) (hw : i.WellFormed = true) :
    encodedAs i opc arg :=
  ⟨h, fun rest => by simpa [h] using decodeItem_encode hw rest⟩

/-- An engine step by its outcome: the engine it leaves, and the notifications it appends. -/
theorem onEngine_eq {f : Engine → Engine} {s : State} {c : Capture} {out : List Notification}
    (h : f ⟨s.capture, []⟩ = ⟨c, out⟩) : onEngine f s = { s with capture := c, notifLog := s.notifLog ++ out } := by
  simp [onEngine, h]

/-! ### Every notification is legal (40_capture.md R113, R115, R116, R124) -/

/-- Every operation keeps the history legal: only events and time append to it, and the engine they start from has its
invariant. -/
theorem exec_logLegal {i : Instr} {s t : State} (h : exec i s = .next t) (hi : s.Inv) (hl : s.LogLegal) :
    t.LogLegal := by
  rcases exec_engine h with ⟨-, hlog⟩ | ⟨al, -, rfl⟩ | ⟨-, rfl⟩ | ⟨l, -, rfl⟩ | ⟨-, rfl⟩ | ⟨n, -, rfl⟩
  · rw [State.LogLegal, hlog]; exact hl
  · exact hl
  · exact hl
  · exact List.forall_mem_append.mpr ⟨hl, (edgeEvent_good hi.engine.good).2⟩
  · exact List.forall_mem_append.mpr ⟨hl, (idleCheck_good hi.engine.good).2⟩
  · obtain ⟨hperiod, -⟩ := hi.params
    refine (usecMany_engine_induct (fun c log => c.Inv s.params.tickPeriodUs ∧ ∀ n ∈ log, n.legal = true)
      ⟨hi.engine, hl⟩ (fun c log ⟨hc, hlog⟩ => ?_) n).2
    have hgood := engineUsec_good hperiod hc.good
    exact ⟨hgood.1, List.forall_mem_append.mpr ⟨hlog, hgood.2⟩⟩

/-- Settles O14: a step is an operation, which keeps the history legal, and a move of `pc`. -/
theorem everyStepEmitsOnlyLegalNotifications : Obligations.EveryStepEmitsOnlyLegalNotifications := by
  unfold Obligations.EveryStepEmitsOnlyLegalNotifications
  intro s t hi hl h
  obtain ⟨i, len, u, -, hu, rfl⟩ := step_next h
  have hlegal : u.LogLegal := exec_logLegal hu hi hl
  exact hlegal

/-! ### `CONSTRUCT` and `DISPOSE` -/

/-- Settles O22, from the outcomes of the command. -/
theorem constructBuildsTheEngineOrIsRefused : Obligations.ConstructBuildsTheEngineOrIsRefused := by
  unfold Obligations.ConstructBuildsTheEngineOrIsRefused
  intro al s
  exact ⟨encodedAs_of_encode rfl rfl, fun hc => (CommandEffect.alreadyConstructed hc).runCommand_eq,
    fun hc hw => (CommandEffect.hwUnavailable hc hw).runCommand_eq,
    fun hc hw => (CommandEffect.constructed hc hw).runCommand_eq⟩

/-- Settles O23, from the outcomes of the command. -/
theorem disposeDiscardsTheBuffer : Obligations.DisposeDiscardsTheBuffer := by
  unfold Obligations.DisposeDiscardsTheBuffer
  exact ⟨encodedAs_of_encode rfl rfl, fun s => ⟨fun hc => (CommandEffect.disposed hc).runCommand_eq,
    fun hc => (CommandEffect.nothingToDispose hc).runCommand_eq⟩⟩

/-! ### The idle check -/

theorem exec_tick_due {s : State} (h : s.capture.FlushDue) :
    exec .tick s = .next { s with
      capture := { s.capture with cbuf := [] }, notifLog := s.notifLog ++ [.train s.capture.cbuf .idle] } := by
  rcases idleCheck_cases ⟨s.capture, []⟩ with ⟨-, he⟩ | ⟨hn, -⟩
  · exact congrArg _ (onEngine_eq he)
  · exact absurd h hn

theorem exec_tick_not_due {s : State} (h : ¬ s.capture.FlushDue) : exec .tick s = .next s := by
  rcases idleCheck_cases ⟨s.capture, []⟩ with ⟨hd, -⟩ | ⟨-, he⟩
  · exact absurd hd h
  · exact congrArg _ (onEngine_id he)

/-- Settles O26: the two outcomes of the idle check, by whether a flush is due. -/
theorem tickFlushesAQuietBuffer : Obligations.TickFlushesAQuietBuffer := by
  unfold Obligations.TickFlushesAQuietBuffer
  exact ⟨encodedAs_of_encode rfl rfl, fun s => ⟨exec_tick_due, exec_tick_not_due,
    fun hi ⟨_, _, hb, _⟩ => ⟨List.length_pos_iff.mpr hb, hi.cbufLen⟩⟩⟩

/-! ### Events while there is no engine -/

/-- No time changes an engine that is not there. -/
theorem usecMany_unbuilt {s : State} (hc : s.capture.constructed = false) (n : Nat) :
    (usecMany n s).capture = s.capture ∧ (usecMany n s).notifLog = s.notifLog := by
  refine usecMany_engine_induct (fun c log => c = s.capture ∧ log = s.notifLog) ⟨rfl, rfl⟩ ?_ n
  rintro _ _ ⟨rfl, rfl⟩
  rw [engineUsec_unbuilt hc]
  exact ⟨rfl, List.append_nil _⟩

/-- Settles O25: without an engine each event leaves the engine's state as it is. -/
theorem eventsWithoutAnEngineDoNothing : Obligations.EventsWithoutAnEngineDoNothing := by
  unfold Obligations.EventsWithoutAnEngineDoNothing
  intro s hc
  exact ⟨fun l => congrArg _ (onEngine_id (edgeEvent_unbuilt hc)), congrArg _ (onEngine_id (idleCheck_unbuilt hc)),
    fun n => ⟨usecMany n s, exec_usec n s, usecMany_unbuilt hc n⟩⟩

/-! ### Edges -/

/-- What an edge appends to the buffer: the ended pulse, unless it is silence (40_capture.md R108 step 4). -/
def Capture.stored (c : Capture) (newLevel : Bool) : Train :=
  if 250000 ≤ c.ptimer.toNat then [] else [c.endedPulse newLevel]

theorem Capture.stored_silence {c : Capture} (h : 250000 ≤ c.ptimer.toNat) (l : Bool) : c.stored l = [] := if_pos h

theorem Capture.stored_pulse {c : Capture} (h : c.ptimer.toNat < 250000) (l : Bool) : c.stored l = [c.endedPulse l] :=
  if_neg (Nat.not_le.mpr h)

/-- An edge stores and notifies, then keeps the buffer below capacity or emits it at capacity. -/
theorem edgeEvent_stored {s : State} (hc : s.capture.constructed = true) (l : Bool) :
    let buf := s.capture.cbuf ++ s.capture.stored l
    let out := (s.capture.stored l).map Notification.pulse
    (buf.length < 128 ∧ edgeEvent l ⟨s.capture, []⟩ = ⟨s.capture.afterEdge buf, out⟩) ∨
    (128 ≤ buf.length ∧ edgeEvent l ⟨s.capture, []⟩ = ⟨s.capture.afterEdge [], out ++ [.train buf .overflow]⟩) := by
  obtain ⟨buf, out, hbuf, hres⟩ := edgeEvent_constructed (l := l) (e := ⟨s.capture, []⟩) hc
  rcases hbuf with ⟨hs, rfl, rfl⟩ | ⟨hs, rfl, rfl⟩
  · simpa [Capture.stored_silence hs] using hres
  · simpa [Capture.stored_pulse hs] using hres

theorem exec_edge_below {s : State} {l : Bool} (hc : s.capture.constructed = true)
    (hb : (s.capture.cbuf ++ s.capture.stored l).length < 128) :
    exec (.edge l) s = .next { s with
      capture := s.capture.afterEdge (s.capture.cbuf ++ s.capture.stored l)
      notifLog := s.notifLog ++ (s.capture.stored l).map .pulse } := by
  rcases edgeEvent_stored hc l with ⟨-, he⟩ | ⟨hn, -⟩
  · exact congrArg _ (onEngine_eq he)
  · omega

theorem exec_edge_full {s : State} {l : Bool} (hc : s.capture.constructed = true)
    (hb : 128 ≤ (s.capture.cbuf ++ s.capture.stored l).length) :
    exec (.edge l) s = .next { s with
      capture := s.capture.afterEdge []
      notifLog := s.notifLog ++ ((s.capture.stored l).map .pulse ++
        [.train (s.capture.cbuf ++ s.capture.stored l) .overflow]) } := by
  rcases edgeEvent_stored hc l with ⟨hn, -⟩ | ⟨-, he⟩
  · omega
  · exact congrArg _ (onEngine_eq he)

/-- Settles O24: the buffer and the history with what the edge stores, below capacity and at capacity. -/
theorem edgeStoresTheEndedPulse : Obligations.EdgeStoresTheEndedPulse := by
  unfold Obligations.EdgeStoresTheEndedPulse
  intro l s p hlevel hus silence buf log
  have hbuf : buf = s.capture.cbuf ++ s.capture.stored l := by
    simp only [buf, silence, Capture.stored, Capture.endedPulse_eq hlevel hus]
    split <;> simp
  have hlog : log = s.notifLog ++ (s.capture.stored l).map .pulse := by
    simp only [log, silence, Capture.stored, Capture.endedPulse_eq hlevel hus]
    split <;> simp
  refine ⟨encodedAs_of_encode rfl rfl, fun hc => congrArg _ (onEngine_id (edgeEvent_unbuilt hc)), fun hc => ?_⟩
  rw [hbuf, hlog]
  rcases Nat.lt_or_ge (s.capture.cbuf ++ s.capture.stored l).length 128 with hb | hb
  · exact ⟨_, exec_edge_below hc hb, rfl, rfl, rfl, fun _ => ⟨rfl, rfl⟩, fun hge => absurd hb (Nat.not_lt.mpr hge),
      hc, rfl, rfl, rfl, rfl, rfl, rfl, rfl, rfl⟩
  · exact ⟨_, exec_edge_full hc hb, rfl, rfl, rfl, fun hlt => absurd hb (Nat.not_le.mpr hlt),
      fun _ => ⟨rfl, (List.append_assoc _ _ _).symm⟩, hc, rfl, rfl, rfl, rfl, rfl, rfl, rfl, rfl⟩

/-! ### One microsecond of the engine (40_capture.md R120, R121) -/

/-- The tick divider comes to its period in the next microsecond. -/
def TickFires (period : Nat) (k : Word) : Prop := period ≠ 0 ∧ k.toNat + 1 = period

/-- The tick divider one microsecond later. -/
def nextTick (period : Nat) (k : Word) : Word :=
  if period = 0 then k else if k.toNat + 1 = period then 0 else BitVec.ofNat 32 (k.toNat + 1)

theorem nextTick_zero (k : Word) : nextTick 0 k = k := rfl

theorem nextTick_of_fires {period : Nat} {k : Word} (h : TickFires period k) : nextTick period k = 0 := by
  obtain ⟨h0, h1⟩ := h
  rw [nextTick, if_neg h0, if_pos h1]

/-- Below its period the divider counts, without wrapping. -/
theorem nextTick_of_counting {period : Nat} {k : Word} (h0 : period ≠ 0) (hf : ¬ TickFires period k)
    (hk : k.toNat < max period 1) (hp : period ≤ 2 ^ 32) : (nextTick period k).toNat = k.toNat + 1 := by
  have h1 : k.toNat + 1 ≠ period := fun h1 => hf ⟨h0, h1⟩
  rw [nextTick, if_neg h0, if_neg h1, BitVec.toNat_ofNat]
  omega

/-- A constructed engine one microsecond later, before the idle check: both timers and the divider have advanced. -/
def Capture.aged (period : Nat) (c : Capture) : Capture :=
  { c with ptimer := satInc c.ptimer, sinceEdge := satInc c.sinceEdge, tickCnt := nextTick period c.tickCnt }

theorem Capture.aged_ptimer (period : Nat) (c : Capture) :
    (c.aged period).ptimer.toNat = min (c.ptimer.toNat + 1) (2 ^ 32 - 1) := satInc_toNat _

theorem Capture.aged_sinceEdge (period : Nat) (c : Capture) :
    (c.aged period).sinceEdge.toNat = min (c.sinceEdge.toNat + 1) (2 ^ 32 - 1) := satInc_toNat _

/-- The coming microsecond ends with an idle flush. -/
def Capture.FlushesNext (period : Nat) (c : Capture) : Prop :=
  TickFires period c.tickCnt ∧ (c.aged period).FlushDue

/-- Both things one microsecond can do to a constructed engine: age it and flush, or age it alone. -/
theorem engineUsec_aged {period : Nat} {e : Engine} (hc : e.cap.constructed = true) :
    (e.cap.FlushesNext period ∧ engineUsec period e = flush .idle { e with cap := e.cap.aged period }) ∨
    (¬ e.cap.FlushesNext period ∧ engineUsec period e = { e with cap := e.cap.aged period }) := by
  obtain ⟨e₁, rfl, hcases⟩ := engineUsec_constructed (period := period) hc
  rcases hcases with ⟨rfl, he⟩ | ⟨h0, h1, he⟩ | ⟨h0, h1, he⟩
  · exact .inr ⟨fun h => h.1.1 rfl, he⟩
  · have hfire : TickFires period e.cap.tickCnt := ⟨h0, h1⟩
    have haged : { e.cap with ptimer := satInc e.cap.ptimer, sinceEdge := satInc e.cap.sinceEdge, tickCnt := 0 }
        = e.cap.aged period := by rw [Capture.aged, nextTick_of_fires hfire]
    simp only [haged] at he
    rw [he]
    exact (idleCheck_cases _).imp (fun h => ⟨⟨hfire, h.1⟩, h.2⟩) (fun h => ⟨fun hd => h.1 hd.2, h.2⟩)
  · refine .inr ⟨fun h => h1 h.1.2, ?_⟩
    rw [he, Capture.aged, nextTick, if_neg h0, if_neg h1]

theorem usecOne_of_flush {s : State} (hc : s.capture.constructed = true)
    (hf : s.capture.FlushesNext s.params.tickPeriodUs) :
    (usecOne s).capture = { s.capture.aged s.params.tickPeriodUs with cbuf := [] } ∧
      (usecOne s).notifLog = s.notifLog ++ [.train s.capture.cbuf .idle] := by
  rcases engineUsec_aged (e := ⟨s.capture, []⟩) hc with ⟨-, he⟩ | ⟨hn, -⟩
  · rw [usecOne_capture, usecOne_notifLog, he]
    exact ⟨rfl, rfl⟩
  · exact absurd hf hn

theorem usecOne_of_not_flush {s : State} (hc : s.capture.constructed = true)
    (hf : ¬ s.capture.FlushesNext s.params.tickPeriodUs) :
    (usecOne s).capture = s.capture.aged s.params.tickPeriodUs ∧ (usecOne s).notifLog = s.notifLog := by
  rcases engineUsec_aged (e := ⟨s.capture, []⟩) hc with ⟨hd, -⟩ | ⟨-, he⟩
  · exact absurd hd hf
  · rw [usecOne_capture, usecOne_notifLog, he]
    exact ⟨rfl, List.append_nil _⟩

/-- With no edge handler running, a flush comes in the next microsecond exactly when the tick fires on a buffer quiet
for long enough. -/
theorem flushesNext_iff {period : Nat} {c : Capture} (hc : c.constructed = true) (hi : c.inIsr = false) :
    c.FlushesNext period ↔
      TickFires period c.tickCnt ∧ c.cbuf ≠ [] ∧ 5000 ≤ min (c.sinceEdge.toNat + 1) (2 ^ 32 - 1) := by
  rw [← c.aged_sinceEdge period]
  exact ⟨fun ⟨hf, _, _, hb, hs⟩ => ⟨hf, hb, hs⟩, fun ⟨hf, hb, hs⟩ => ⟨hf, hc, hi, hb, hs⟩⟩

/-- Settles O27: the engine ages, and flushes if the tick fires on a quiet buffer. -/
theorem oneMicrosecondOfTheEngine : Obligations.OneMicrosecondOfTheEngine := by
  unfold Obligations.OneMicrosecondOfTheEngine
  intro s hi hc since fires flushes
  have hiff : s.capture.FlushesNext s.params.tickPeriodUs ↔ flushes := flushesNext_iff hc hi.inIsr
  obtain ⟨hperiod, -⟩ := hi.params
  have hzero : s.params.tickPeriodUs = 0 → nextTick s.params.tickPeriodUs s.capture.tickCnt = s.capture.tickCnt :=
    fun h0 => by rw [h0, nextTick_zero]
  have hcount := fun h0 hf => nextTick_of_counting h0 hf hi.tickCnt hperiod
  refine ⟨usecOne s, exec_usec 1 s, ?_⟩
  by_cases hf : flushes
  · obtain ⟨hcap, hlog⟩ := usecOne_of_flush hc (hiff.mpr hf)
    rw [hcap, hlog]
    exact ⟨satInc_toNat _, satInc_toNat _, hzero, nextTick_of_fires, hcount, fun _ => ⟨rfl, rfl⟩,
      fun hn => absurd hf hn, hc, rfl, rfl, rfl, rfl, rfl, rfl, rfl⟩
  · obtain ⟨hcap, hlog⟩ := usecOne_of_not_flush hc (mt hiff.mp hf)
    rw [hcap, hlog]
    exact ⟨satInc_toNat _, satInc_toNat _, hzero, nextTick_of_fires, hcount, fun hd => absurd hd hf,
      fun _ => ⟨rfl, rfl⟩, hc, rfl, rfl, rfl, rfl, rfl, rfl, rfl⟩

/-! ### Time in which nothing is flushed -/

/-- `d` is the engine `c` after `n` microseconds without a flush, whatever its tick divider has become. -/
structure Capture.Waited (n : Nat) (c d : Capture) : Prop where
  constructed : d.constructed = c.constructed
  activeLow : d.activeLow = c.activeLow
  cbuf : d.cbuf = c.cbuf
  ptimer : d.ptimer.toNat = min (c.ptimer.toNat + n) (2 ^ 32 - 1)
  sinceEdge : d.sinceEdge.toNat = min (c.sinceEdge.toNat + n) (2 ^ 32 - 1)

theorem Capture.Waited.refl (c : Capture) : c.Waited 0 c := by
  have hp := c.ptimer.isLt
  have hs := c.sinceEdge.isLt
  exact ⟨rfl, rfl, rfl, by omega, by omega⟩

theorem Capture.Waited.of_aged {n period : Nat} {c d : Capture} (h : (c.aged period).Waited n d) :
    c.Waited (n + 1) d := by
  have hp := c.aged_ptimer period
  have hs := c.aged_sinceEdge period
  have hp' := h.ptimer
  have hs' := h.sinceEdge
  exact ⟨h.constructed, h.activeLow, h.cbuf, by omega, by omega⟩

/-- Time before the quiet limit, or on an empty buffer, flushes nothing and only ages the engine. -/
theorem usecMany_waited {n : Nat} {s : State} (hc : s.capture.constructed = true)
    (hq : s.capture.cbuf = [] ∨ s.capture.sinceEdge.toNat + n < 5000) :
    s.capture.Waited n (usecMany n s).capture ∧ (usecMany n s).notifLog = s.notifLog := by
  induction n generalizing s with
  | zero => exact ⟨.refl _, rfl⟩
  | succ n ih =>
    have hs := s.capture.aged_sinceEdge s.params.tickPeriodUs
    have hno : ¬ s.capture.FlushesNext s.params.tickPeriodUs := by
      rintro ⟨-, -, -, hb, hlim⟩
      rcases hq with hq | hq
      · exact hb hq
      · omega
    obtain ⟨hcap, hlog⟩ := usecOne_of_not_flush hc hno
    obtain ⟨hw, hlog'⟩ := ih (s := usecOne s) (by rw [hcap]; exact hc) (by
      rw [hcap, hs]
      exact hq.imp id fun hq => by omega)
    rw [hcap] at hw
    exact ⟨hw.of_aged, hlog'.trans hlog⟩

/-! ### A quiet line (40_capture.md R123) -/

/-- On a buffer at its quiet limit, the time left of the tick period flushes it; after that the buffer stays empty. -/
theorem usecMany_flushes {n : Nat} {s : State} (hi : s.Inv) (hc : s.capture.constructed = true)
    (hb : s.capture.cbuf ≠ []) (hp : s.params.tickPeriodUs ≠ 0) (hs : 5000 ≤ s.capture.sinceEdge.toNat + 1)
    (hn : s.params.tickPeriodUs ≤ s.capture.tickCnt.toNat + n) :
    (usecMany n s).capture.cbuf = [] ∧ (usecMany n s).notifLog = s.notifLog ++ [.train s.capture.cbuf .idle] := by
  have hlim : 5000 ≤ min (s.capture.sinceEdge.toNat + 1) (2 ^ 32 - 1) := by omega
  have htick := hi.tickCnt
  induction n generalizing s with
  | zero => omega
  | succ n ih =>
    have hiff := flushesNext_iff (period := s.params.tickPeriodUs) hc hi.inIsr
    by_cases hf : TickFires s.params.tickPeriodUs s.capture.tickCnt
    · obtain ⟨hcap, hlog⟩ := usecOne_of_flush hc (hiff.mpr ⟨hf, hb, hlim⟩)
      obtain ⟨hw, hlog'⟩ := usecMany_waited (n := n) (s := usecOne s) (by rw [hcap]; exact hc) (.inl (by rw [hcap]))
      exact ⟨hw.cbuf.trans (by rw [hcap]), hlog'.trans hlog⟩
    · obtain ⟨hcap, hlog⟩ := usecOne_of_not_flush hc fun h => hf h.1
      obtain ⟨hperiod, -⟩ := hi.params
      have htick' : (usecOne s).capture.tickCnt.toNat = s.capture.tickCnt.toNat + 1 := by
        rw [hcap]; exact nextTick_of_counting hp hf htick hperiod
      have hs' : (usecOne s).capture.sinceEdge.toNat = min (s.capture.sinceEdge.toNat + 1) (2 ^ 32 - 1) := by
        rw [hcap]; exact s.capture.aged_sinceEdge _
      have hi' : (usecOne s).Inv := exec_inv (exec_usec 1 s) hi
      obtain ⟨hbuf, hlog'⟩ := ih (s := usecOne s) hi' (by rw [hcap]; exact hc) (by rw [hcap]; exact hb) hp (by omega)
        (by rw [htick', usecOne_params]; omega) (by omega) hi'.tickCnt
      refine ⟨hbuf, hlog'.trans ?_⟩
      rw [hlog, hcap]; rfl

/-- Settles O30: the line is quiet up to the limit, and from there a tick comes within one period. -/
theorem quietLineFlushesOneIdleTrain : Obligations.QuietLineFlushesOneIdleTrain := by
  unfold Obligations.QuietLineFlushesOneIdleTrain
  intro s n hi hc hb hp
  refine ⟨fun hn => ⟨usecMany n s, exec_usec n s, ?_⟩, fun hn => ⟨usecMany n s, exec_usec n s, ?_⟩⟩
  · by_cases hlim : 5000 ≤ s.capture.sinceEdge.toNat + 1
    · exact usecMany_flushes hi hc hb hp hlim (by omega)
    · obtain ⟨k, hk⟩ : ∃ k, s.capture.sinceEdge.toNat + k = 4999 := ⟨_, Nat.add_sub_cancel' (by omega)⟩
      obtain ⟨hw, hlog⟩ := usecMany_waited hc (.inr (by omega : s.capture.sinceEdge.toNat + k < 5000))
      have hs := hw.sinceEdge
      obtain ⟨m, rfl⟩ : ∃ m, n = k + m := Nat.exists_eq_add_of_le (by omega)
      have hflush := usecMany_flushes (n := m) (exec_inv (exec_usec k s) hi) (hw.constructed.trans hc)
        (by rw [hw.cbuf]; exact hb) (by rw [usecMany_params]; exact hp) (by omega) (by rw [usecMany_params]; omega)
      rwa [← usecMany_add, hw.cbuf, hlog] at hflush
  · obtain ⟨hw, hlog⟩ := usecMany_waited hc (.inr hn)
    exact ⟨hw.cbuf, hlog⟩

/-! ### Gaps and edges (40_capture.md R122) -/

/-- The operations of gaps, each ended by an edge. -/
def gapItems (gaps : List (Nat × Bool)) : List Instr := gaps.flatMap fun g => [.usec g.1, .edge g.2]

/-- The pulse of a gap that starts at a pulse timer of 0. -/
def gapPulse (activeLow : Bool) (g : Nat × Bool) : Pulse := pulseOf ((!g.2) ^^ activeLow) (max 50 g.1)

/-- The pulses of gaps from the engine `c` on: the first is as long as the pulse timer and the gap together. -/
def Capture.gapTrain (c : Capture) (g : Nat × Bool) (rest : List (Nat × Bool)) : Train :=
  gapPulse c.activeLow (c.ptimer.toNat + g.1, g.2) :: rest.map (gapPulse c.activeLow)

theorem gapPulse_us {al : Bool} {g : Nat × Bool} (h : g.1 < 250000) : (gapPulse al g).us = max 50 g.1 :=
  pulseOf_us (by omega)

/-- What an edge after a gap below silence stores. -/
theorem Capture.Waited.stored {c d : Capture} {g : Nat × Bool} (h : c.Waited g.1 d)
    (hp : c.ptimer.toNat + g.1 < 250000) : d.stored g.2 = [gapPulse c.activeLow (c.ptimer.toNat + g.1, g.2)] := by
  have hpt : d.ptimer.toNat = c.ptimer.toNat + g.1 := by rw [h.ptimer]; omega
  rw [Capture.stored_pulse (by omega), Capture.endedPulse, h.activeLow, hpt, Nat.min_eq_left (by omega)]
  rfl

section OneGap

variable {s : State} {g : Nat × Bool} (hc : s.capture.constructed = true)
  (hq : s.capture.cbuf = [] ∨ s.capture.sinceEdge.toNat + g.1 < 5000) (hp : s.capture.ptimer.toNat + g.1 < 250000)
include hc hq hp

/-- A gap and its edge, with room left in the buffer: one pulse is stored and notified, and the timers start again. -/
theorem execAll_gap_below (hlen : s.capture.cbuf.length < 127) :
    let p := gapPulse s.capture.activeLow (s.capture.ptimer.toNat + g.1, g.2)
    ∃ t, (∀ is, execAll (.usec g.1 :: .edge g.2 :: is) s = execAll is t) ∧ t.capture.constructed = true ∧
      t.capture.activeLow = s.capture.activeLow ∧ t.capture.ptimer.toNat = 0 ∧ t.capture.sinceEdge.toNat = 0 ∧
      t.capture.cbuf = s.capture.cbuf ++ [p] ∧ t.notifLog = s.notifLog ++ [.pulse p] := by
  obtain ⟨hw, hlog⟩ := usecMany_waited hc hq
  have hcu := hw.constructed.trans hc
  have hedge := exec_edge_below (l := g.2) hcu
    (by rw [hw.cbuf, hw.stored hp, List.length_append]; exact Nat.succ_lt_succ hlen)
  rw [hw.cbuf, hw.stored hp, hlog] at hedge
  exact ⟨_, fun is => (execAll_cons_next (exec_usec _ _)).trans (execAll_cons_next hedge), hcu, hw.activeLow, rfl, rfl,
    rfl, rfl⟩

/-- A gap and its edge on the last place of the buffer: the pulse is notified and the whole buffer is emitted. -/
theorem execAll_gap_full (hlen : s.capture.cbuf.length = 127) :
    let p := gapPulse s.capture.activeLow (s.capture.ptimer.toNat + g.1, g.2)
    ∃ t, execAll [.usec g.1, .edge g.2] s = .next t ∧ t.capture.constructed = true ∧ t.capture.cbuf = [] ∧
      t.notifLog = s.notifLog ++ ([.pulse p] ++ [.train (s.capture.cbuf ++ [p]) .overflow]) := by
  obtain ⟨hw, hlog⟩ := usecMany_waited hc hq
  have hcu := hw.constructed.trans hc
  have hedge := exec_edge_full (l := g.2) hcu
    (by rw [hw.cbuf, hw.stored hp, List.length_append, hlen]; exact le_rfl)
  rw [hw.cbuf, hw.stored hp, hlog] at hedge
  exact ⟨_, (execAll_cons_next (exec_usec _ _)).trans (execAll_cons_next hedge), hcu, rfl, rfl⟩

end OneGap

/-- Gaps that bring the buffer to its capacity notify their pulses and emit one Overflow train of the whole buffer. -/
theorem execAll_gaps_overflow {s : State} {g : Nat × Bool} {rest : List (Nat × Bool)}
    (hc : s.capture.constructed = true) (hq : s.capture.cbuf = [] ∨ s.capture.sinceEdge.toNat + g.1 < 5000)
    (hp : s.capture.ptimer.toNat + g.1 < 250000) (hrest : ∀ g' ∈ rest, g'.1 < 5000)
    (hlen : s.capture.cbuf.length + rest.length = 127) :
    ∃ t, execAll (gapItems (g :: rest)) s = .next t ∧
      t.notifLog = s.notifLog ++ (s.capture.gapTrain g rest).map .pulse ++
        [.train (s.capture.cbuf ++ s.capture.gapTrain g rest) .overflow] ∧
      t.capture.cbuf = [] ∧ t.capture.constructed = true := by
  induction rest generalizing s g with
  | nil =>
    obtain ⟨t, ht, hct, hbuf, hlog⟩ := execAll_gap_full hc hq hp hlen
    exact ⟨t, ht, hlog.trans (List.append_assoc _ _ _).symm, hbuf, hct⟩
  | cons g' rest ih =>
    rw [List.length_cons] at hlen
    obtain ⟨hg', hrest⟩ := List.forall_mem_cons.mp hrest
    obtain ⟨u, hu, hcu, hal, hpu, hsu, hbuf, hlog⟩ := execAll_gap_below hc hq hp (by omega)
    have htrain : s.capture.gapTrain g (g' :: rest)
        = gapPulse s.capture.activeLow (s.capture.ptimer.toNat + g.1, g.2) :: u.capture.gapTrain g' rest := by
      simp [Capture.gapTrain, hal, hpu]
    obtain ⟨t, ht, hlog', hbuf', hct⟩ := ih (s := u) (g := g') hcu (.inr (by omega)) (by omega) hrest
      (by rw [hbuf, List.length_append, List.length_singleton]; omega)
    refine ⟨t, (hu _).trans ht, ?_, hbuf', hct⟩
    rw [hlog', hlog, hbuf, htrain]
    simp

/-- Settles O29: the train of the gaps is the whole buffer, which was empty before. -/
theorem overflowAfterOneHundredTwentyEightEdges : Obligations.OverflowAfterOneHundredTwentyEightEdges := by
  unfold Obligations.OverflowAfterOneHundredTwentyEightEdges
  intro s gap level rest _ hc hb hp hlen hrest gaps
  obtain ⟨t, ht, hlog, hbuf, hct⟩ := execAll_gaps_overflow (g := (gap, level)) hc (.inl hb) hp hrest
    (by simp [hb, hlen])
  rw [hb, List.nil_append] at hlog
  refine ⟨t, s.capture.gapTrain (gap, level) rest, ht, by simp [Capture.gapTrain, hlen], hlog, hbuf, hct, ?_, ?_⟩
  · simp [Capture.gapTrain, gapPulse, gaps]
  · rw [Capture.gapTrain, List.map_cons, gapPulse_us hp, List.map_map]
    exact congrArg _ (List.map_congr_left fun g hg => gapPulse_us ((hrest g hg).trans (by decide)))

end Sys2Proof.Machine
end

section
/-! ## The NEC decoder: what a decodable train and a repeat code are by index, and the two commands that apply them -/

namespace Sys2Proof.Machine

/-! ### The steps of `decode`, by index (41_nec_decoder.md R143 to R147) -/

/-- Pulse `a` is the first from index `n` on that satisfies `p`. -/
def IsFirstFrom (p : Pulse → Bool) (t : Train) (n a : Nat) : Prop :=
  n ≤ a ∧ (∃ x, t[a]? = some x ∧ p x = true) ∧ ∀ i, n ≤ i → i < a → ∀ y, t[i]? = some y → ¬ p y = true

/-- A scan that starts at index `n` stops at the first pulse from `n` on. -/
theorem afterFirst_drop_some {p : Pulse → Bool} {t rest : Train} {n : Nat} :
    afterFirst p (t.drop n) = some rest ↔ ∃ a, IsFirstFrom p t n a ∧ rest = t.drop (a + 1) := by
  simp only [afterFirst_some, List.getElem?_drop, List.drop_drop]
  constructor
  · rintro ⟨d, x, hx, hp, hmin, rfl⟩
    refine ⟨n + d, ⟨Nat.le_add_right n d, ⟨x, hx, hp⟩, fun i hn hi y hy => ?_⟩, rfl⟩
    obtain ⟨e, rfl⟩ := Nat.exists_eq_add_of_le hn
    exact ne_true_of_eq_false (hmin e (by omega) y hy)
  · rintro ⟨a, ⟨hn, ⟨x, hx, hp⟩, hmin⟩, rfl⟩
    obtain ⟨d, rfl⟩ := Nat.exists_eq_add_of_le hn
    exact ⟨d, x, hx, hp, fun i hi y hy => eq_false_of_ne_true (hmin (n + i) (by omega) (by omega) y hy), rfl⟩

theorem stopBitOk_iff {t : Train} : stopBitOk t = true ↔ ∃ p, t.getLast? = some p ∧ p.isMarkIn shortWin = true := by
  unfold stopBitOk
  cases t.getLast? <;> simp

/-- Collecting and packing succeed with `r` exactly when the 32 pairs are the bits of `r` from bit 31 down. -/
theorem collectBits_packBits_iff {long : Window} {v : Train} {r : Word} :
    (∃ bits, collectBits long 32 v = some bits ∧ bits.length = 32 ∧ packBits bits = r) ↔
      ∀ k < 32, ∃ m s, v[2 * k]? = some m ∧ v[2 * k + 1]? = some s ∧
        pairBit long m s = some (r.getLsbD (31 - k)) := by
  constructor
  · rintro ⟨bits, hb, hl, rfl⟩ k hk
    obtain ⟨-, hpairs⟩ := collectBits_some.mp ⟨hb, hl⟩
    obtain ⟨m, s, b, hm, hs, hbk, hp⟩ := hpairs k hk
    exact ⟨m, s, hm, hs, by rw [packBits_getLsbD hl hk, hbk]; exact hp⟩
  · intro h
    obtain ⟨hb, hl⟩ := collectBits_some.mpr ⟨payloadBitsOf_length r, fun k hk =>
      have ⟨m, s, hm, hs, hp⟩ := h k hk
      ⟨m, s, _, hm, hs, payloadBitsOf_get r hk, hp⟩⟩
    exact ⟨payloadBitsOf r, hb, hl, packBits_payloadBitsOf r⟩

/-- `decode` by index: the first leader, the first header space after it, the stop mark, and the 32 pairs that follow
the header space. -/
theorem decodeTrain_some_iff_index {long : Window} {t : Train} {r : Word} :
    decodeTrain long t = some r ↔
      ∃ a b, IsFirstFrom (·.isMarkIn burstWin) t 0 a ∧ IsFirstFrom (·.isSpaceIn hdrWin) t (a + 1) b ∧
        stopBitOk t = true ∧
        ∀ k < 32, ∃ m s, t[b + 1 + 2 * k]? = some m ∧ t[b + 2 + 2 * k]? = some s ∧
          pairBit long m s = some (r.getLsbD (31 - k)) := by
  have hpairs (b : Nat) := collectBits_packBits_iff (long := long) (v := t.drop (b + 1)) (r := r)
  have hshift (b k : Nat) : b + 1 + (2 * k + 1) = b + 2 + 2 * k := by omega
  simp only [List.getElem?_drop, hshift] at hpairs
  have hleader (u : Train) :
      afterLeader t = some u ↔ ∃ a, IsFirstFrom (·.isMarkIn burstWin) t 0 a ∧ u = t.drop (a + 1) :=
    afterFirst_drop_some (n := 0)
  rw [decodeTrain_some]
  constructor
  · rintro ⟨u, v, bits, hu, hv, hstop, hbits⟩
    obtain ⟨a, ha, rfl⟩ := (hleader u).mp hu
    obtain ⟨b, hb, rfl⟩ := afterFirst_drop_some.mp hv
    exact ⟨a, b, ha, hb, hstop, (hpairs b).mp ⟨bits, hbits⟩⟩
  · rintro ⟨a, b, ha, hb, hstop, hp⟩
    obtain ⟨bits, hbits⟩ := (hpairs b).mpr hp
    exact ⟨_, _, bits, (hleader _).mpr ⟨a, ha, rfl⟩, afterFirst_drop_some.mpr ⟨b, hb, rfl⟩, hstop, hbits⟩

/-- A bit's pair by its levels and durations, the long window tested first. -/
theorem pairBit_some_iff_us {long : Window} {m s : Pulse} {b : Bool} :
    pairBit long m s = some b ↔
      m.level = true ∧ (400 ≤ m.us ∧ m.us ≤ 700) ∧ s.level = false ∧
        (((long.lo ≤ s.us ∧ s.us ≤ long.hi) ∧ b = true) ∨
          (¬ (long.lo ≤ s.us ∧ s.us ≤ long.hi) ∧ (400 ≤ s.us ∧ s.us ≤ 700) ∧ b = false)) := by
  rw [pairBit_some, ← Bool.not_eq_true, isMarkIn_iff, isSpaceIn_iff, isSpaceIn_iff, shortWin]
  tauto

/-- Settles O34: the steps by index, with the windows' numbers; the last pair says how long the train is. -/
theorem decodeMeansLeaderHeaderStopAndThirtyTwoPairs :
    Obligations.DecodeMeansLeaderHeaderStopAndThirtyTwoPairs := by
  unfold Obligations.DecodeMeansLeaderHeaderStopAndThirtyTwoPairs
  intro lo hi t r win
  simp only [decodeTrain_some_iff_index, IsFirstFrom, stopBitOk_iff, isMarkIn_iff, isSpaceIn_iff, pairBit_some_iff_us]
  constructor
  · rintro ⟨a, b, ⟨-, hleader, hfirst⟩, ⟨hab, hheader, hbetween⟩, hstop, hpairs⟩
    obtain ⟨_, _, -, hlast, -⟩ := hpairs 31 (by decide)
    exact ⟨a, b, (List.getElem?_eq_some_iff.mp hlast).1, hab, hleader, fun i => hfirst i i.zero_le, hheader, hbetween,
      hstop, hpairs⟩
  · rintro ⟨a, b, -, hab, hleader, hfirst, hheader, hbetween, hstop, hpairs⟩
    exact ⟨a, b, ⟨a.zero_le, hleader, fun i _ => hfirst i⟩, ⟨hab, hheader, hbetween⟩, hstop, hpairs⟩

/-! ### Decoding an encoded train (R154) -/

/-- The pair sent for a bit is that bit, for every admissible long-space window. -/
theorem pairBit_bitSpace {long : Window} (hlo : 562 < long.lo) (hlong : long.lo ≤ 1687 ∧ 1687 ≤ long.hi) (b : Bool) :
    pairBit long shortMark (bitSpace b) = some b := by
  have hus (b : Bool) : (bitSpace b).us = if b then 1687 else 562 := by cases b <;> rfl
  rw [pairBit_some_iff_us, hus]
  refine ⟨rfl, by decide, rfl, ?_⟩
  cases b with
  | true => exact .inl ⟨hlong, rfl⟩
  | false => exact .inr ⟨fun h => absurd h.1 (Nat.not_le.mpr hlo), by decide, rfl⟩

/-- Decoding undoes encoding: the leader is pulse 0, the header space pulse 1, and the pairs are the payload's. -/
theorem decodeTrain_encodeTrain {long : Window} (hlo : 562 < long.lo) (hlong : long.lo ≤ 1687 ∧ 1687 ≤ long.hi)
    (p : Word) : decodeTrain long (encodeTrain p) = some p := by
  obtain ⟨hleader, hheader, -, hpairs⟩ := encodeTrain_get p
  refine decodeTrain_some_iff_index.mpr ⟨0, 1, ⟨le_rfl, ⟨_, hleader, by decide⟩, fun i _ hi => ?_⟩,
    ⟨le_rfl, ⟨_, hheader, by decide⟩, fun i hn hi => ?_⟩,
    stopBitOk_iff.mpr ⟨_, encodeTrain_getLast p, by decide⟩, fun k hk => ?_⟩
  · exact absurd hi i.not_lt_zero
  · exact absurd hi (Nat.not_lt.mpr hn)
  · obtain ⟨hmark, hspace⟩ := hpairs k hk
    exact ⟨_, _, hmark, hspace, pairBit_bitSpace hlo hlong _⟩

/-- Settles O32, for a window given by its two bounds. -/
theorem decodeOfEncodedTrainIsThePayload : Obligations.DecodeOfEncodedTrainIsThePayload := by
  unfold Obligations.DecodeOfEncodedTrainIsThePayload
  exact fun p lo hi hlo hlo' hhi => decodeTrain_encodeTrain hlo ⟨hlo', hhi⟩ p

/-- A train whose words were laid over the work buffer is the work train, where `WLEN` is its length. -/
theorem workTrain_of_overlay {s : State} {v : Vector Word 128} {ps : Train}
    (hbuf : s.codec.wbuf = overlay v (ps.map Pulse.toWord)) (hlen : ps.length = s.codec.wlen.val) :
    s.workTrain = ps := by
  have hfits : (ps.map Pulse.toWord).length ≤ 128 := by
    rw [List.length_map, hlen]
    exact s.codec.wlen.is_le
  rw [State.workTrain, hbuf, overlay_toList _ _ hfits, List.take_left' (by rw [List.length_map, hlen])]
  simp [Function.comp_def]

/-- The work train after `ENCODE` is the encoded train (42_nec_encoder.md R161). -/
theorem CommandEffect.encode_workTrain {s t : State} (h : CommandEffect s .encode t) :
    t.workTrain = encodeTrain s.codec.payload := by
  cases h
  exact workTrain_of_overlay rfl (encodeTrain_length _)

/-- Settles O33: `DECODE` sees the encoded train and finds the payload in it. -/
theorem encodeThenDecodeReturnsThePayloadRegister : Obligations.EncodeThenDecodeReturnsThePayloadRegister := by
  unfold Obligations.EncodeThenDecodeReturnsThePayloadRegister
  rintro s ⟨-, hlo, hlo', hhi, -⟩
  have hdecodes := decodeTrain_encodeTrain (long := longWin s.params) hlo ⟨hlo', hhi⟩ s.codec.payload
  rw [← CommandEffect.encode.encode_workTrain] at hdecodes
  exact ⟨_, _, CommandEffect.encode.runCommand_eq, (CommandEffect.payload hdecodes).runCommand_eq, rfl, rfl⟩

/-- Settles O35, from the outcomes of the command. -/
theorem decodeCommandLatchesTheResult : Obligations.DecodeCommandLatchesTheResult := by
  unfold Obligations.DecodeCommandLatchesTheResult
  exact ⟨encodedAs_of_encode rfl rfl, fun s => ⟨fun r h => (CommandEffect.payload h).runCommand_eq,
    fun h => (CommandEffect.noResult h).runCommand_eq⟩⟩

/-! ### Repeat codes -/

/-- `is_repeat` in terms of its steps. -/
theorem isRepeat_iff {t : Train} :
    isRepeat t = true ↔
      t.length = 4 ∧ inWin (totalUs t) rptTotalWin = true ∧
        ∃ s m, (∃ rest, afterLeader t = some (s :: m :: rest)) ∧ s.isSpaceIn rptSpaceWin = true ∧
          m.isMarkIn shortWin = true := by
  unfold isRepeat
  rcases afterLeader t with _ | _ | ⟨s, _ | ⟨m, rest⟩⟩ <;> simp [and_assoc]

/-- The two pulses after the leader of a train of four: the leader is pulse 0 or pulse 1, since two pulses follow it. -/
theorem afterLeader_four {p0 p1 p2 p3 s m : Pulse} :
    (∃ rest, afterLeader [p0, p1, p2, p3] = some (s :: m :: rest)) ↔
      (p0.isMarkIn burstWin = true ∧ s = p1 ∧ m = p2) ∨
        (¬ p0.isMarkIn burstWin = true ∧ p1.isMarkIn burstWin = true ∧ s = p2 ∧ m = p3) := by
  simp only [afterLeader, afterFirst, @eq_comm _ s, @eq_comm _ m]
  by_cases h0 : p0.isMarkIn burstWin = true
  · simp [h0]
  by_cases h1 : p1.isMarkIn burstWin = true
  · simp [h0, h1]
  · by_cases h2 : p2.isMarkIn burstWin = true
    · simp [h0, h1, h2]
    · by_cases h3 : p3.isMarkIn burstWin = true <;> simp [h0, h1, h2, h3]

theorem totalUs_four (p0 p1 p2 p3 : Pulse) : totalUs [p0, p1, p2, p3] = p0.us + p1.us + p2.us + p3.us := by
  simp [totalUs, Nat.add_assoc]

/-- Settles O37: the four pulses named, and the leader among the first two. -/
theorem isRepeatMeansLeaderSpaceMark : Obligations.IsRepeatMeansLeaderSpaceMark := by
  unfold Obligations.IsRepeatMeansLeaderSpaceMark
  intro t leader
  have hleader (p : Pulse) : leader p ↔ p.isMarkIn burstWin = true := (isMarkIn_iff p burstWin).symm
  simp only [hleader]
  rw [isRepeat_iff]
  constructor
  · rintro ⟨hlen, htotal, s, m, hafter, hs, hm⟩
    obtain ⟨p0, p1, p2, p3, rfl⟩ := List.length_eq_four.mp hlen
    obtain ⟨hsl, hs⟩ := (isSpaceIn_iff s _).mp hs
    rw [totalUs_four, inWin_iff] at htotal
    exact ⟨p0, p1, p2, p3, rfl, htotal.1, htotal.2, s, m, afterLeader_four.mp hafter, hsl, hs.1, hs.2,
      (isMarkIn_iff m _).mp hm⟩
  · rintro ⟨p0, p1, p2, p3, rfl, hlo, hhi, s, m, hafter, hsl, hslo, hshi, hm⟩
    refine ⟨rfl, ?_, s, m, afterLeader_four.mpr hafter, (isSpaceIn_iff s _).mpr ⟨hsl, hslo, hshi⟩,
      (isMarkIn_iff m _).mpr hm⟩
    rw [totalUs_four]
    exact (inWin_iff _ _).mpr ⟨hlo, hhi⟩

/-- Settles O38: the outcome of the command, by the answer. -/
theorem isRepeatCommandLatchesTheAnswer : Obligations.IsRepeatCommandLatchesTheAnswer := by
  unfold Obligations.IsRepeatCommandLatchesTheAnswer
  refine ⟨encodedAs_of_encode rfl rfl, fun s => ?_⟩
  have hexec := (CommandEffect.isrepeat (s := s)).runCommand_eq
  exact ⟨fun h => by rwa [h] at hexec, fun h => by rwa [h] at hexec⟩

/-! ### The two are exclusive (R153) -/

/-- A decodable train has the header space and 64 pulses after it, so more than four. -/
theorem decodeTrain_length {long : Window} {t : Train} {r : Word} (h : decodeTrain long t = some r) :
    64 < t.length := by
  obtain ⟨_, b, -, -, -, hpairs⟩ := decodeTrain_some_iff_index.mp h
  obtain ⟨_, _, -, hlast, -⟩ := hpairs 31 (by decide)
  have := (List.getElem?_eq_some_iff.mp hlast).1
  omega

theorem decodeTrain_of_isRepeat {t : Train} (h : isRepeat t = true) (long : Window) : decodeTrain long t = none := by
  obtain ⟨hlen, -⟩ := isRepeat_iff.mp h
  refine Option.eq_none_iff_forall_ne_some.mpr fun r hr => ?_
  have := decodeTrain_length hr
  omega

/-- Settles O39: a repeat code does not decode, so both orders of the tests name it a repeat code. -/
theorem repeatAndDecodeAreExclusive : Obligations.RepeatAndDecodeAreExclusive := by
  unfold Obligations.RepeatAndDecodeAreExclusive
  intro long t
  refine ⟨fun ⟨hrep, hdec⟩ => hdec (decodeTrain_of_isRepeat hrep long), ?_⟩
  unfold classify
  by_cases hrep : isRepeat t = true
  · simp [hrep, decodeTrain_of_isRepeat hrep long]
  · cases decodeTrain long t <;> simp [hrep]

end Sys2Proof.Machine
end

section
/-! ## The NEC encoder: the pulses of an encoded train by index, their total, and the command that writes them -/

namespace Sys2Proof.Machine

/-! ### The pulses of an encoded train (42_nec_encoder.md R162) -/

theorem bitSpace_us (b : Bool) : (bitSpace b).us = if b then 1687 else 562 := by cases b <;> rfl

/-- Settles O40: the pulses by index, with their levels and durations. -/
theorem encodedTrainIndexMap : Obligations.EncodedTrainIndexMap := by
  unfold Obligations.EncodedTrainIndexMap
  intro p holds
  obtain ⟨hleader, hheader, hstop, hpairs⟩ := encodeTrain_get p
  refine ⟨encodeTrain_length p, ⟨_, hleader, rfl, rfl⟩, ⟨_, hheader, rfl, rfl⟩, ⟨_, hstop, rfl, rfl⟩, fun k hk => ?_⟩
  obtain ⟨hmark, hspace⟩ := hpairs k hk
  exact ⟨⟨_, hmark, rfl, rfl⟩, fun h => ⟨_, hspace, rfl, by rw [bitSpace_us, h]; rfl⟩,
    fun h => ⟨_, hspace, rfl, by rw [bitSpace_us, h]; rfl⟩⟩

/-- What a pulse of an encoded train can be: a mark at an even index, a space at an odd one. -/
theorem encodeTrain_pulse_cases {p : Word} {i : Nat} {q : Pulse} (h : (encodeTrain p)[i]? = some q) :
    (i % 2 = 0 ∧ (q = pulseOf true 9000 ∨ q = shortMark)) ∨
      (i % 2 = 1 ∧ (q = pulseOf false 4500 ∨ ∃ b, q = bitSpace b)) := by
  have hi : i < 67 := encodeTrain_length p ▸ (List.getElem?_eq_some_iff.mp h).1
  obtain ⟨hleader, hheader, hstop, hpairs⟩ := encodeTrain_get p
  have hplace : i = 0 ∨ i = 1 ∨ i = 66 ∨ ∃ k < 32, i = 2 + 2 * k ∨ i = 3 + 2 * k := by
    by_cases hmid : 2 ≤ i ∧ i < 66
    · exact .inr (.inr (.inr ⟨(i - 2) / 2, by omega, by omega⟩))
    · omega
  rcases hplace with rfl | rfl | rfl | ⟨k, hk, rfl | rfl⟩
  · exact .inl ⟨rfl, .inl (Option.some.inj (h.symm.trans hleader))⟩
  · exact .inr ⟨rfl, .inl (Option.some.inj (h.symm.trans hheader))⟩
  · exact .inl ⟨rfl, .inr (Option.some.inj (h.symm.trans hstop))⟩
  · exact .inl ⟨by omega, .inr (Option.some.inj (h.symm.trans (hpairs k hk).1))⟩
  · exact .inr ⟨by omega, .inr ⟨_, Option.some.inj (h.symm.trans (hpairs k hk).2)⟩⟩

/-- Levels alternate, starting with a mark (R164 (b)). -/
theorem encodeTrain_level_iff {p : Word} {i : Nat} {q : Pulse} (h : (encodeTrain p)[i]? = some q) :
    q.level = true ↔ i % 2 = 0 := by
  rcases encodeTrain_pulse_cases h with ⟨hi, rfl | rfl⟩ | ⟨hi, rfl | ⟨b, rfl⟩⟩
  · exact iff_of_true rfl hi
  · exact iff_of_true rfl hi
  · exact iff_of_false Bool.false_ne_true (by omega)
  · exact iff_of_false Bool.false_ne_true (by omega)

/-- Only the encoder's four durations occur (R164 (c)). -/
theorem encodeTrain_us {p : Word} {q : Pulse} (h : q ∈ encodeTrain p) :
    q.us = 9000 ∨ q.us = 4500 ∨ q.us = 562 ∨ q.us = 1687 := by
  obtain ⟨i, hi⟩ := List.mem_iff_getElem?.mp h
  rcases encodeTrain_pulse_cases hi with ⟨-, rfl | rfl⟩ | ⟨-, rfl | ⟨b, rfl⟩⟩
  · exact .inl rfl
  · exact .inr (.inr (.inl rfl))
  · exact .inr (.inl rfl)
  · cases b with
    | false => exact .inr (.inr (.inl rfl))
    | true => exact .inr (.inr (.inr rfl))

/-! ### The total of an encoded train (R164 (d)) -/

theorem totalUs_cons (q : Pulse) (t : Train) : totalUs (q :: t) = q.us + totalUs t := by simp [totalUs]

theorem totalUs_append (t u : Train) : totalUs (t ++ u) = totalUs t + totalUs u := by simp [totalUs]

theorem totalUs_bitPulses (b : Bool) : totalUs (bitPulses b) = 1124 + 1125 * b.toNat := by cases b <;> rfl

/-- A bit takes 1124 µs, and 1125 more when it is 1. -/
theorem totalUs_flatMap_bitPulses (bits : List Bool) :
    totalUs (bits.flatMap bitPulses) = 1124 * bits.length + 1125 * bits.count true := by
  induction bits with
  | nil => rfl
  | cons b bits ih =>
    rw [List.flatMap_cons, totalUs_append, totalUs_bitPulses, ih, List.length_cons, List.count_cons]
    cases b <;> simp <;> omega

/-- The bits in the order sent are the word's bits from 0 up, reversed (R163). -/
theorem payloadBitsOf_eq_reverse (p : Word) : payloadBitsOf p = ((List.range 32).map p.getLsbD).reverse := by
  have hsent : (List.range 32).reverse = (List.range 32).map (31 - ·) := by decide
  rw [← List.map_reverse, hsent, List.map_map]
  rfl

theorem payloadBitsOf_count_true (p : Word) :
    (payloadBitsOf p).count true = ((List.range 32).filter fun k => p.getLsbD k).length := by
  rw [payloadBitsOf_eq_reverse, List.count_reverse, List.count, List.countP_map, List.countP_eq_length_filter]
  simp [Function.comp_def]

theorem totalUs_encodeTrain (p : Word) :
    totalUs (encodeTrain p) = 50030 + 1125 * ((List.range 32).filter fun k => p.getLsbD k).length := by
  have hleader : (pulseOf true 9000).us = 9000 := rfl
  have hheader : (pulseOf false 4500).us = 4500 := rfl
  have hstop : totalUs [shortMark] = 562 := rfl
  rw [encodeTrain_eq, totalUs_cons, totalUs_cons, totalUs_append, totalUs_flatMap_bitPulses, payloadBitsOf_length,
    payloadBitsOf_count_true, hleader, hheader, hstop]
  omega

/-- The encoder loses nothing: decoding, with a window that holds 1687 only, gives the payload back (R164 (e), R165). -/
theorem encodeTrain_injective : Function.Injective encodeTrain := fun p q h => by
  have hdecodes := decodeTrain_encodeTrain (long := ⟨1687, 1687⟩) (by decide) ⟨le_rfl, le_rfl⟩
  exact Option.some.inj ((hdecodes p).symm.trans (h ▸ hdecodes q))

/-- Settles O41: the properties (a) to (e) of R164. -/
theorem encodedTrainProperties : Obligations.EncodedTrainProperties := by
  unfold Obligations.EncodedTrainProperties
  intro p
  refine ⟨encodeTrain_length p, fun _ _ => encodeTrain_level_iff, fun q hq => ?_, totalUs_encodeTrain p,
    fun _ h => encodeTrain_injective h⟩
  have hus := encodeTrain_us hq
  exact ⟨hus, by omega, by omega⟩

/-! ### `ENCODE` (R161, R167) -/

/-- An overlay as long as the one before it hides it. -/
theorem overlay_overlay {α : Type} {n : Nat} (v : Vector α n) {xs ys : List α} (h : xs.length = ys.length) :
    overlay (overlay v xs) ys = overlay v ys := by
  refine Vector.ext fun i hi => ?_
  rw [overlay_get, overlay_get v ys]
  split
  case isTrue => rfl
  case isFalse hpast => rw [overlay_get, dif_neg (h ▸ hpast)]

/-- `ENCODE` reads only `PAYLOAD`, which it keeps; so performing it again changes nothing (R167). -/
theorem CommandEffect.encode_idempotent {s t : State} (h : CommandEffect s .encode t) : CommandEffect t .encode t := by
  obtain ⟨u, hagain⟩ := commandEffect_total .encode t
  have hsame : u = t := by
    cases h
    cases hagain
    simp only [overlay_overlay]
  exact hsame ▸ hagain

/-- Settles O42: the outcome of the command, with the overlaid buffer by index. -/
theorem encodeCommandWritesTheWorkBuffer : Obligations.EncodeCommandWritesTheWorkBuffer := by
  unfold Obligations.EncodeCommandWritesTheWorkBuffer
  refine ⟨encodedAs_of_encode rfl rfl, fun s => ?_⟩
  have heffect := CommandEffect.encode (s := s)
  have hlen : ((encodeTrain s.codec.payload).map Pulse.toWord).length = 67 := by
    rw [List.length_map, encodeTrain_length]
  refine ⟨_, _, heffect.runCommand_eq, rfl, fun i hi hin => ?_, fun i hi hpast => ?_, heffect.encode_workTrain,
    heffect.encode_idempotent.runCommand_eq⟩
  · rw [overlay_get, dif_pos (hlen ▸ hin), ← List.getElem?_map, List.getElem?_eq_getElem]
  · exact overlay_get_past _ _ ⟨i, hi⟩ (hlen ▸ hpast)

end Sys2Proof.Machine
end

section
/-! ## The transmitter and the snap helper: the duty timeline after `SEND`, the nearest member of a set, and what `SNAP`
does to the work train -/

namespace Sys2Proof.Machine

/-- Settles O31: each course depends on its own part of the state and on the parameters. -/
theorem engineAndTransmitterAreIndependentInTime : Obligations.EngineAndTransmitterAreIndependentInTime := by
  unfold Obligations.EngineAndTransmitterAreIndependentInTime
  intro n s tx cap
  obtain ⟨hcapture, hlog⟩ := usecMany_engine_congr (s := s) (t := { s with tx := tx }) rfl rfl rfl n
  have htx := usecMany_tx_congr (s := s) (t := { s with capture := cap }) rfl rfl n
  exact ⟨_, _, _, exec_usec n _, exec_usec n _, exec_usec n _, hcapture, hlog, htx⟩

/-! ### `SEND` and the duty timeline (43_transmitter.md R171, R175) -/

/-- Pulses of duration 0 take no time. -/
theorem startUs_eq_zero {train : Train} {i : Nat} (h : ∀ j < i, ∀ q, train[j]? = some q → q.us = 0) :
    startUs train i = 0 := by
  induction i with
  | zero => exact startUs_zero train
  | succ i ih =>
    have hbefore := ih fun j hj => h j (Nat.lt_succ_of_lt hj)
    cases hq : train[i]? with
    | some q => rw [startUs_succ hq, hbefore, h i (Nat.lt_succ_self i) q hq]
    | none =>
      have hend := List.getElem?_eq_none_iff.mp hq
      rwa [startUs, List.take_of_length_le (Nat.le_succ_of_le hend), ← List.take_of_length_le hend]

/-- At the start of the timeline of a train without time, the transmitter is idle at the train's end. -/
theorem OnTimeline.eq_idle {params : Params} {train : Train} {t : Transmitter} (h : OnTimeline params train 0 t)
    (hzero : ∀ p ∈ train, p.us = 0) :
    t = { busy := false, train := train, idx := train.length, rem := 0, duty := 0 } := by
  obtain ⟨hbusy, hidx, hrem, hduty⟩ :=
    h.past (startUs_eq_zero fun _ _ q hq => hzero q (List.mem_of_getElem? hq)).le
  calc t = ⟨t.busy, t.train, t.idx, t.rem, t.duty⟩ := rfl
    _ = _ := by rw [hbusy, h.train_eq, hidx, hrem, hduty]

/-- At the start of the timeline, the transmitter is in the first pulse that has time, with its whole duration left. -/
theorem OnTimeline.eq_first {params : Params} {train : Train} {t : Transmitter} (h : OnTimeline params train 0 t)
    {i : Nat} {p : Pulse} (hp : train[i]? = some p) (htime : p.us ≠ 0)
    (hfirst : ∀ j < i, ∀ q, train[j]? = some q → q.us = 0) :
    t = { busy := true, train := train, idx := i, rem := p.dur, duty := dutyOf params p } := by
  have hstart := startUs_eq_zero hfirst
  have hnext := startUs_succ hp
  obtain ⟨hbusy, hidx, hus, hduty⟩ := h.inside i p hp hstart.le (by omega)
  have hrem : t.rem = p.dur := BitVec.eq_of_toNat_eq (by rw [hus, hnext, hstart, Nat.zero_add]; rfl)
  calc t = ⟨t.busy, t.train, t.idx, t.rem, t.duty⟩ := rfl
    _ = _ := by rw [hbusy, h.train_eq, hidx, hrem, hduty]

/-- Settles O43: the two latched outcomes are the start of the train's timeline. -/
theorem sendLatchesTheWorkTrain : Obligations.SendLatchesTheWorkTrain := by
  unfold Obligations.SendLatchesTheWorkTrain
  refine ⟨encodedAs_of_encode rfl rfl, fun s => ⟨fun hb => (CommandEffect.txBusy hb).runCommand_eq, fun hb => ?_⟩⟩
  have hexec : exec .send s = _ := (CommandEffect.sent hb).runCommand_eq
  have hline := startTrain_onTimeline s.params s.workTrain s.tx hb
  exact ⟨fun hzero => by rw [hexec, hline.eq_idle hzero],
    fun i p hp htime hfirst => by rw [hexec, hline.eq_first hp htime hfirst]; rfl⟩

/-- Settles O44: `SEND` starts the timeline, and each microsecond is a step along it. -/
theorem dutyTimeline : Obligations.DutyTimeline := by
  unfold Obligations.DutyTimeline
  intro s s₁ n hb hsend train start
  cases runCommand_effect (c := .send) hsend with
  | txBusy hb' => exact absurd (hb.symm.trans hb') Bool.false_ne_true
  | sent _ =>
    have hline := usecMany_onTimeline (s := { s with tx := startTrain s.params s.workTrain s.tx })
      (startTrain_onTimeline s.params s.workTrain s.tx hb) n
    rw [Nat.zero_add] at hline
    exact ⟨_, exec_usec n _, hline.inside, hline.past⟩

/-! ### The nearest member of a set (43_transmitter.md R181) -/

/-- Settles O49: the nearest member is the only one as good as every other, for any listing of the set. -/
theorem nearestDependsOnTheSetAlone : Obligations.NearestDependsOnTheSetAlone := by
  unfold Obligations.NearestDependsOnTheSetAlone
  intro d c cs
  refine ⟨nearest_spec d c cs, fun c' cs' hset => ?_⟩
  obtain ⟨hmem, hbest⟩ := nearest_spec d c' cs'
  exact nearest_unique ((hset _).mpr hmem) fun x hx => hbest x ((hset x).mp hx)

/-! ### Snapping a pulse -/

@[simp] theorem snapPulse_level (c : Nat) (cs : List Nat) (p : Pulse) : (snapPulse c cs p).level = p.level := rfl

theorem snapPulse_us {c : Nat} {cs : List Nat} (hset : ∀ x ∈ c :: cs, x < 2 ^ 31) (p : Pulse) :
    (snapPulse c cs p).us = nearest p.us c cs :=
  pulseOf_us (hset _ (nearest_spec p.us c cs).1)

/-- A snapped pulse is snapped to itself. -/
theorem snapPulse_snapPulse {c : Nat} {cs : List Nat} (hset : ∀ x ∈ c :: cs, x < 2 ^ 31) (p : Pulse) :
    snapPulse c cs (snapPulse c cs p) = snapPulse c cs p := by
  have hmem := (nearest_spec p.us c cs).1
  refine Pulse.ext_us (snapPulse_level c cs _) ?_
  rw [snapPulse_us hset, snapPulse_us hset, nearest_of_mem hmem]

/-- The encoder's durations lie more than twice 562 apart, so a duration within 562 of one of them has it as the
nearest (R183 (d)). -/
theorem nearest_encoded {d e : Nat} (he : e = 9000 ∨ e = 4500 ∨ e = 562 ∨ e = 1687) (hd : absDiff d e ≤ 562) :
    nearest d 9000 [4500, 562, 1687] = e := by
  refine nearest_unique (by simpa using he) fun x hx => ?_
  have hx' : x = 9000 ∨ x = 4500 ∨ x = 562 ∨ x = 1687 := by simpa using hx
  simp only [Better, absDiff] at hd ⊢
  omega

/-- Settles O51: pulse by pulse, the nearest of the encoder's durations is the one sent. -/
theorem snapRestoresAnEncodedTrain : Obligations.SnapRestoresAnEncodedTrain := by
  unfold Obligations.SnapRestoresAnEncodedTrain
  intro p t hlen hnear
  refine List.ext_getElem (by rw [List.length_map, hlen, encodeTrain_length]) fun i hi hi' => ?_
  rw [List.getElem_map]
  obtain ⟨hlevel, hdist⟩ := hnear i _ _ (List.getElem?_eq_getElem (by simpa using hi)) (List.getElem?_eq_getElem hi')
  have hnearest := nearest_encoded (encodeTrain_us (List.getElem_mem hi')) hdist
  exact Pulse.ext_us ((snapPulse_level _ _ _).trans hlevel) ((snapPulse_us (by decide) _).trans hnearest)

/-! ### `SNAP` (43_transmitter.md R180, R183) -/

theorem canonSet_eq_nil_iff {s : State} : s.canonSet = [] ↔ s.codec.clen.val = 0 := by
  rw [← canonSet_length, List.length_eq_zero_iff]

/-- The canonical durations are durations. -/
theorem canonSet_lt {s : State} {x : Nat} (h : x ∈ s.canonSet) : x < 2 ^ 31 := by
  obtain ⟨j, hj, -, rfl⟩ := mem_canonSet.mp h
  exact s.codec.cset[j].isLt

/-- The state after `SNAP` with the set listed as `c :: cs` (R180). -/
def snapWorkTrain (c : Nat) (cs : List Nat) (s : State) : State :=
  { s with
    codec :=
      { s.codec with
        wbuf := overlay s.codec.wbuf (s.workTrain.map fun p => (snapPulse c cs p).toWord) } }

theorem snapWorkTrain_workTrain (c : Nat) (cs : List Nat) (s : State) :
    (snapWorkTrain c cs s).workTrain = s.workTrain.map (snapPulse c cs) :=
  workTrain_of_overlay (v := s.codec.wbuf) (by rw [List.map_map]; rfl) (by rw [List.length_map, workTrain_length]; rfl)

/-- The work train snapped once holds members of the set only, so snapping it again writes the same words. -/
theorem snapWorkTrain_idempotent {c : Nat} {cs : List Nat} (hset : ∀ x ∈ c :: cs, x < 2 ^ 31) (s : State) :
    snapWorkTrain c cs (snapWorkTrain c cs s) = snapWorkTrain c cs s := by
  have hwords : (snapWorkTrain c cs s).workTrain.map (fun p => (snapPulse c cs p).toWord) =
      s.workTrain.map fun p => (snapPulse c cs p).toWord := by
    simp [snapWorkTrain_workTrain, Function.comp_def, snapPulse_snapPulse hset]
  rw [snapWorkTrain, hwords]
  simp only [snapWorkTrain, overlay_overlay]

/-- `SNAP` keeps the set it reads, so performing it again changes nothing (R183 (a)). -/
theorem CommandEffect.snap_idempotent {s t : State} (h : CommandEffect s .snap t) : CommandEffect t .snap t := by
  cases h with
  | emptySet h => exact .emptySet h
  | @snap c cs h =>
    have hagain : CommandEffect (snapWorkTrain c cs s) .snap (snapWorkTrain c cs (snapWorkTrain c cs s)) := .snap h
    rwa [snapWorkTrain_idempotent fun x hx => canonSet_lt (h ▸ hx)] at hagain

/-- Settles O50: the outcomes of the command keep `WLEN` and are their own outcome. -/
theorem snapIsIdempotent : Obligations.SnapIsIdempotent := by
  unfold Obligations.SnapIsIdempotent
  intro s t h
  have heffect := runCommand_effect (c := .snap) h
  refine ⟨?_, heffect.snap_idempotent.runCommand_eq⟩
  cases heffect <;> rfl

/-- The word `SNAP` leaves in the work train: that of the snapped pulse. -/
theorem snapWorkTrain_wbuf_inside (c : Nat) (cs : List Nat) {s : State} {i : Nat} (h : i < 128)
    (hw : i < s.codec.wlen.val) :
    (snapWorkTrain c cs s).codec.wbuf[i] =
      (snapPulse c cs (Pulse.ofWord s.codec.wbuf[i])).toWord := by
  obtain ⟨hi, hget⟩ := List.getElem?_eq_some_iff.mp (workTrain_get s h hw)
  rw [snapWorkTrain, overlay_get, dif_pos (by rwa [List.length_map]), List.getElem_map, hget]

/-- Settles O48: the outcomes of the command, with the overlaid buffer by index. -/
theorem snapReplacesDurationsByTheNearest : Obligations.SnapReplacesDurationsByTheNearest := by
  unfold Obligations.SnapReplacesDurationsByTheNearest
  refine ⟨encodedAs_of_encode rfl rfl, fun s =>
    ⟨fun h => (CommandEffect.emptySet (canonSet_eq_nil_iff.mpr h)).runCommand_eq, fun hclen => ?_⟩⟩
  obtain ⟨c, cs, hset⟩ := List.exists_cons_of_ne_nil (mt canonSet_eq_nil_iff.mp hclen)
  refine ⟨(snapWorkTrain c cs s).codec.wbuf, (CommandEffect.snap hset).runCommand_eq, fun i hi hpast => overlay_get_past _ _ ⟨i, hi⟩ ?_,
    fun i hi hin => ?_⟩
  · rwa [List.length_map, workTrain_length]
  · have hlt : ∀ x ∈ c :: cs, x < 2 ^ 31 := fun x hx => canonSet_lt (hset ▸ hx)
    simp only [snapWorkTrain_wbuf_inside c cs hi hin, Pulse.toWord_level, Pulse.toWord_us, snapPulse_us hlt, Pulse.ofWord_us]
    obtain ⟨hmem, hbest⟩ := nearest_spec (s.codec.wbuf[i].toNat % 2 ^ 31) c cs
    rw [← hset] at hmem hbest
    exact ⟨rfl, mem_canonSet.mp hmem, fun j hj hjc => hbest _ (mem_canonSet.mpr ⟨j, hj, hjc, rfl⟩)⟩

end Sys2Proof.Machine
end

section
/-! ## Host accesses and time: successive microseconds, plain stores, the housekeeping commands, and length writes -/

namespace Sys2Proof.Machine

/-- Settles O28: `n` microseconds are an iteration of one microsecond, and iterations add up. -/
theorem usecIsSuccessiveMicroseconds : Obligations.UsecIsSuccessiveMicroseconds := by
  unfold Obligations.UsecIsSuccessiveMicroseconds
  refine fun s => ⟨exec_usec 0 s, fun a b => ⟨usecMany a s, usecMany b (usecMany a s), exec_usec a s, exec_usec b _, ?_⟩⟩
  rw [exec_usec, usecMany_add]

/-! ### Plain stores (44_host_commands.md R196) -/

/-- The registers that a write stores to without a check. -/
def Reg.PlainStore (r : Reg) : Prop := r = .payload ∨ (∃ i, r = .cset i) ∨ ∃ i, r = .wbuf i

theorem exists_plainStore {off : Nat} (h4 : off % 4 = 0)
    (h : off = 0x010 ∨ (0x040 ≤ off ∧ off < 0x080) ∨ (0x200 ≤ off ∧ off < 0x400)) :
    ∃ r : Reg, r.offset = off ∧ r.PlainStore := by
  rcases h with rfl | ⟨hlo, hhi⟩ | ⟨hlo, hhi⟩
  · exact ⟨.payload, rfl, .inl rfl⟩
  · obtain ⟨i, rfl, -⟩ := regAt_cset h4 hlo hhi
    exact ⟨.cset i, rfl, .inr (.inl ⟨i, rfl⟩)⟩
  · obtain ⟨i, rfl, -⟩ := regAt_wbuf h4 hlo hhi
    exact ⟨.wbuf i, rfl, .inr (.inr ⟨i, rfl⟩)⟩

theorem Reg.PlainStore.writable {r : Reg} (h : r.PlainStore) : r.writable = true := by
  rcases h with rfl | ⟨i, rfl⟩ | ⟨i, rfl⟩ <;> rfl

theorem Reg.PlainStore.offset_ge {r : Reg} (h : r.PlainStore) : r.offset = 0x010 ∨ 0x040 ≤ r.offset := by
  rcases h with rfl | ⟨i, rfl⟩ | ⟨i, rfl⟩
  · exact .inl rfl
  · exact .inr (Nat.le_add_right _ _)
  · exact .inr ((by decide : 0x040 ≤ 0x200).trans (Nat.le_add_right _ _))

/-- A plain store changes the codec alone, and the register then reads as the data (a `CSET` entry as 31 bits of it). -/
theorem Reg.PlainStore.writeReg_eq {r : Reg} (h : r.PlainStore) (data : Word) (s : State) :
    ∃ k : Codec, writeReg r data s = .next { s with codec := k } ∧ k.resKind = s.codec.resKind ∧
      (readReg r { s with codec := k }).toNat =
        if 0x040 ≤ r.offset ∧ r.offset < 0x080 then data.toNat % 2 ^ 31 else data.toNat := by
  rcases h with rfl | ⟨i, rfl⟩ | ⟨i, rfl⟩
  · exact ⟨_, rfl, rfl, rfl⟩
  · refine ⟨_, rfl, rfl, ?_⟩
    rw [if_pos (by simp only [Reg.offset]; omega)]
    simp only [readReg, Fin.getElem_fin, Vector.getElem_set_self, BitVec.toNat_setWidth]
    omega
  · refine ⟨_, rfl, rfl, ?_⟩
    rw [if_neg (by simp only [Reg.offset]; omega)]
    simp only [readReg, Fin.getElem_fin, Vector.getElem_set_self]

/-- The bytes a write may change are its own four where the register is no length. -/
theorem operandBytes_outside {off a : Nat} (hoff : off = 0x010 ∨ 0x040 ≤ off) (ha : a < off ∨ off + 4 ≤ a) :
    operandBytes off a = false := by
  simp only [operandBytes, within, Bool.or_eq_false_iff, Bool.and_eq_false_iff, decide_eq_false_iff_not]
  omega

/-- Settles O56: the register at the offset is a plain store's, and the bytes are those of the word it then reads as. -/
theorem writeStoresExactlyItsFourBytes : Obligations.WriteStoresExactlyItsFourBytes := by
  unfold Obligations.WriteStoresExactlyItsFourBytes
  intro off data s h4 hoff
  obtain ⟨r, rfl, hr⟩ := exists_plainStore h4 hoff
  obtain ⟨k, hwrite, hkind, hread⟩ := hr.writeReg_eq data s
  have hne : r ≠ .cmd := by rintro rfl; exact absurd hr.offset_ge (by decide)
  refine ⟨{ s with codec := k }, (exec_wr_reg r data s).trans hwrite, fun j hj => ?_, fun a ha => ?_,
    hkind, rfl, rfl, rfl, rfl, rfl, rfl⟩
  · rw [windowByte_reg r j hj, byteOf_eq, hread]
  · exact writeReg_sameBytes hr.writable hne hwrite a (operandBytes_outside hr.offset_ge ha)

/-! ### Housekeeping commands and length writes -/

/-- Settles O52: the encodings, the two commands, and the refusal of a word with a reserved bit (O58). -/
theorem nopAndClrerr : Obligations.NopAndClrerr := by
  unfold Obligations.NopAndClrerr
  refine ⟨encodedAs_of_encode rfl rfl, encodedAs_of_encode rfl rfl, fun s =>
    ⟨CommandEffect.nop.runCommand_eq, CommandEffect.clrerr.runCommand_eq, fun w hopc harg => ?_⟩⟩
  obtain ⟨-, hrefused, -⟩ := commandWordsAreCheckedThenPerformed w s
  refine hrefused ?_ (.inr ⟨by omega, harg⟩)
  rcases hopc with h | h <;> simp [h]

/-- Settles O57: the length registers' writes in range, and the bad length above it. -/
theorem lengthWritesAreRangeChecked : Obligations.LengthWritesAreRangeChecked := by
  unfold Obligations.LengthWritesAreRangeChecked
  exact fun data s => ⟨fun _ hn => (exec_wr_reg .wlen data s).trans (writeReg_wlen hn s),
    fun hbig => (exec_wr_reg .wlen data s).trans (writeReg_badLen (.inl ⟨rfl, hbig⟩) s),
    fun _ hn => (exec_wr_reg .clen data s).trans (writeReg_clen hn s),
    fun hbig => (exec_wr_reg .clen data s).trans (writeReg_badLen (.inr ⟨rfl, hbig⟩) s)⟩

end Sys2Proof.Machine
end

section
/-! ## Reset and hazards: `fatal` is sticky, and only a failing `CONSTRUCT` sets it -/

namespace Sys2Proof.Machine

/-- A command keeps `fatal`, or it is a `CONSTRUCT` without an engine that finds the hardware unavailable. -/
theorem runCommand_fatal {c : Command} {s t : State} (h : runCommand c s = .next t) :
    t.err.fatal = s.err.fatal ∨
      t.err.fatal = true ∧ (∃ al, c = .construct al) ∧ s.capture.constructed = false ∧ s.params.hwAvailable = false := by
  cases runCommand_effect h with
  | hwUnavailable hc hw => exact .inr ⟨rfl, ⟨_, rfl⟩, hc, hw⟩
  | _ => exact .inl rfl

/-- So does every operation: the others never write `fatal`. -/
theorem exec_fatal {i : Instr} {s t : State} (h : exec i s = .next t) :
    t.err.fatal = s.err.fatal ∨
      t.err.fatal = true ∧ (∃ al, commandOf i = some (.construct al)) ∧ s.capture.constructed = false ∧
        s.params.hwAvailable = false := by
  cases exec_effect h with
  | command hc h =>
    rcases runCommand_fatal h with hkeep | ⟨hset, ⟨al, rfl⟩, hfree⟩
    · exact .inl hkeep
    · exact .inr ⟨hset, ⟨al, hc⟩, hfree⟩
  | store hw hr h =>
    obtain ⟨-, -, -, hkeep, -⟩ := writeReg_keeps hw hr h
    exact .inl hkeep
  | time n => exact .inl (congrArg _ (usecMany_err n s))
  | badWord _ | read _ | edge _ | tick | busError _ => exact .inl rfl

/-- Settles O18: an operation keeps `fatal` or sets it as `exec_fatal` says, so none clears it. -/
theorem fatalIsStickyAndOnlyConstructSetsIt : Obligations.FatalIsStickyAndOnlyConstructSetsIt := by
  unfold Obligations.FatalIsStickyAndOnlyConstructSetsIt
  intro i s t h
  rcases exec_fatal h with hkeep | ⟨hset, hfailed⟩
  · exact ⟨fun hf => ⟨hkeep.trans hf, rfl⟩, fun hf ht => absurd ((hkeep.trans hf).symm.trans ht) Bool.false_ne_true⟩
  · exact ⟨fun _ => ⟨hset, rfl⟩, fun _ _ => hfailed⟩

end Sys2Proof.Machine
end
